-- ==== Sys2Proof/Word.lean ====
section
/-! DEFINITION. The word types of the JPC core: 32-bit registers and command words (00_scope.md R6), bytes of DMEM, and binary32 values held as their 32 bits (R11). -/

namespace Sys2Proof

/-- A byte of DMEM. -/
abbrev Byte := BitVec 8

/-- A register or a command word: REG_WIDTH is 32 (R6). -/
abbrev Word := BitVec 32

/-- An IEEE 754 binary32 value, held as its bits (R6, R11). -/
abbrev F32 := BitVec 32

end Sys2Proof
end

