-- ==== Sys2Proof/Config.lean ====
section
/-! DEFINITION. What a platform fixes (00_scope.md R6), the implementation parameters of the spec, and the free values: constants without a body, so that nothing can be proved of their value. -/

namespace Sys2Proof.Config

/-- N_MAX, the largest block size (R6). -/
def nMax : Nat := 16

/-- CODE_MAX, the longest Huffman code in bits (R6). -/
def codeMax : Nat := 32

/-- The default of the OPEN parameter DMEM_BYTES (R6). DESIGN CHOICE, log entry 2, safe: the size of a machine is the field `size` of its DMEM, and this default is only what reset holds there. -/
def dmemBytesDefault : Nat := 262144

/-- A legal DMEM_BYTES: a multiple of 4 with 4 ≤ DMEM_BYTES ≤ 2^31 (R6). -/
abbrev legalSize (n : Nat) : Prop := n % 4 = 0 ∧ 4 ≤ n ∧ n ≤ 2 ^ 31

/-- Which 2^17-byte block of the host's addresses holds the register block: the OPEN parameter BASE (R6). Log entry 3, safe. -/
opaque baseBlock : Nat

/-- BASE, the host byte address of the register block, a multiple of 2^17 (R6, R68). -/
def base : Nat := 2 ^ 17 * baseBlock

/-- The host byte address of a host offset (R23, R68). -/
def hostAddress (off : Nat) : Nat := base + off

/-- The draw that an unwritten DMEM byte reads as: `powerOnByte n a` is the byte at address `a` after the power-on reset number `n`, under no law (R45, R291). FREE VALUE, log entry 1, safe. -/
opaque powerOnByte : Nat → Nat → BitVec 8

/-- The draw left in an output byte of an abandoned command: `abortByte n a` is the byte at address `a` after the abandonment number `n`, under no law (R293). FREE VALUE, log entry 5, safe. -/
opaque abortByte : Nat → Nat → BitVec 8

/-- The value of a host variable the host program has not assigned (R101 gives none). FREE VALUE, log entry 8, safe. -/
opaque unsetHostVar : Nat → Int

end Sys2Proof.Config
end

