-- ==== Sys2Proof/Syntax.lean ====
section
/-! DEFINITION. The commands of JPC-CMD version 1, one constructor per row of the opcode map (30_encoding.md R96). -/

namespace Sys2Proof

/-- A command. The operands that a command word carries are FMT, S and LEN (R99); everything else is read from registers. -/
inductive Instr where
  /-- NOP, OP 0x00 (R117). -/
  | nop
  /-- CSC, OP 0x01: convert COUNT pixels; `fmt` is the format tag FMT (R92, R134). -/
  | csc (fmt : Nat)
  /-- FDCT, OP 0x02: forward transform of a plane; `sep` is S, true for Separable (R93, R160). -/
  | fdct (sep : Bool)
  /-- IDCT, OP 0x03: inverse transform of a plane; `sep` is S (R93, R163). -/
  | idct (sep : Bool)
  /-- QZZ, OP 0x04: quantize and zigzag (R183). -/
  | qzz
  /-- DQZZ, OP 0x05: de-zigzag and dequantize (R184). -/
  | dqzz
  /-- HENC, OP 0x06: Huffman encode COUNT bytes (R212). -/
  | henc
  /-- HDEC, OP 0x07: Huffman decode BITCNT bits (R219). -/
  | hdec
  /-- BBRST, OP 0x08: open a bit-buffer stream (R243). -/
  | bbrst
  /-- BBADD, OP 0x09: append the code (ARG0, LEN); `len` is LEN (R94, R244). -/
  | bbadd (len : Nat)
  /-- BBFIN, OP 0x0A: flush the partial byte (R245). -/
  | bbfin
  deriving DecidableEq, Repr

end Sys2Proof
end

