-- ==== Sys2Proof/WellFormed.lean ====
section
/-! DEFINITION. Which commands have an encoding: their operands fit the fields of the command word (30_encoding.md R90). Whether FMT names a format and whether LEN is at most 32 is decided by the command's own rule, after decode (R96). -/

namespace Sys2Proof

/-- The operands fit their fields: FMT is 4 bits wide, LEN 6 bits, S one bit (R90). -/
def Instr.wf : Instr → Bool
  | .nop => true
  | .csc fmt => decide (fmt < 16)
  | .fdct _ => true
  | .idct _ => true
  | .qzz => true
  | .dqzz => true
  | .henc => true
  | .hdec => true
  | .bbrst => true
  | .bbadd len => decide (len < 64)
  | .bbfin => true

end Sys2Proof
end

