-- ==== Sys2Proof/Decode.lean ====
section
/-! DEFINITION. Decoding a command word and encoding a command (30_encoding.md R90 to R98), the opcode map as a table, and the assembler's spellings (R100). -/

namespace Sys2Proof

/-- Why a command word is no command. -/
inductive DecodeReject where
  /-- OP is 0x0B to 0xFF (R97). -/
  | reservedOp (op : Nat)
  /-- a reserved bit of the word is not 0 (R95). -/
  | reservedBits
  deriving DecidableEq, Repr

/-- The field of `n` bits from bit `lo` of a word, as an unsigned integer (R7). -/
def bitField (w : Word) (lo n : Nat) : Nat := w.toNat / 2 ^ lo % 2 ^ n

/-- `i`, if every bit of the word from bit `lo` up is 0 (R90, R95). -/
def ifReservedClear (w : Word) (lo : Nat) (i : Instr) : Except DecodeReject Instr :=
  if w.toNat / 2 ^ lo = 0 then .ok i else .error .reservedBits

/-- The command of a word: OP first, then the reserved bits for that OP (R91). -/
def decode (w : Word) : Except DecodeReject Instr :=
  match bitField w 0 8 with
  | 0x00 => ifReservedClear w 8 .nop
  | 0x01 => ifReservedClear w 12 (.csc (bitField w 8 4))
  | 0x02 => ifReservedClear w 9 (.fdct (bitField w 8 1 == 1))
  | 0x03 => ifReservedClear w 9 (.idct (bitField w 8 1 == 1))
  | 0x04 => ifReservedClear w 8 .qzz
  | 0x05 => ifReservedClear w 8 .dqzz
  | 0x06 => ifReservedClear w 8 .henc
  | 0x07 => ifReservedClear w 8 .hdec
  | 0x08 => ifReservedClear w 8 .bbrst
  | 0x09 => ifReservedClear w 14 (.bbadd (bitField w 8 6))
  | 0x0A => ifReservedClear w 8 .bbfin
  | op => .error (.reservedOp op)

/-- OP of a command, bits 7:0 (R96). -/
def Instr.op : Instr → Nat
  | .nop => 0x00
  | .csc _ => 0x01
  | .fdct _ => 0x02
  | .idct _ => 0x03
  | .qzz => 0x04
  | .dqzz => 0x05
  | .henc => 0x06
  | .hdec => 0x07
  | .bbrst => 0x08
  | .bbadd _ => 0x09
  | .bbfin => 0x0A

/-- The modifier field F of a command, bits 13:8 (R90). -/
def Instr.modifier : Instr → Nat
  | .nop => 0
  | .csc fmt => fmt
  | .fdct sep => sep.toNat
  | .idct sep => sep.toNat
  | .qzz => 0
  | .dqzz => 0
  | .henc => 0
  | .hdec => 0
  | .bbrst => 0
  | .bbadd len => len
  | .bbfin => 0

/-- The word of a well-formed command: OP + F·0x100 (R90, R100). -/
def encode (i : Instr) : Word := BitVec.ofNat 32 (i.op + i.modifier * 0x100)

/-- The command that the first `nbits` bits of `w`, numbered as the opcode table numbers them, encode. A command is one 32-bit word (R98), so a bit the table gives no place is 0. -/
def decodeTableWord (nbits w : Nat) : Option Instr :=
  match decode (BitVec.ofNat 32 (w % 2 ^ nbits)) with
  | .ok i => some i
  | .error _ => none

/-- A row of the opcode map: a mnemonic with its match and mask (R96). -/
structure OpRow where
  mnemonic : String
  mtch : Word
  mask : Word
  deriving DecidableEq, Repr

/-- The opcode map's match and mask patterns (R96). -/
def opRows : List OpRow :=
  [⟨"NOP", 0x00000000, 0xFFFFFFFF⟩,
   ⟨"CSC", 0x00000001, 0xFFFFF0FF⟩,
   ⟨"FDCT", 0x00000002, 0xFFFFFEFF⟩,
   ⟨"IDCT", 0x00000003, 0xFFFFFEFF⟩,
   ⟨"QZZ", 0x00000004, 0xFFFFFFFF⟩,
   ⟨"DQZZ", 0x00000005, 0xFFFFFFFF⟩,
   ⟨"HENC", 0x00000006, 0xFFFFFFFF⟩,
   ⟨"HDEC", 0x00000007, 0xFFFFFFFF⟩,
   ⟨"BBRST", 0x00000008, 0xFFFFFFFF⟩,
   ⟨"BBADD", 0x00000009, 0xFFFFC0FF⟩,
   ⟨"BBFIN", 0x0000000A, 0xFFFFFFFF⟩]

/-- A word is the command of a row iff (w AND mask) = match (R96). -/
def OpRow.covers (r : OpRow) (w : Word) : Bool := w &&& r.mask == r.mtch

/-- A command's mnemonic in the opcode map (R96). -/
def Instr.mnemonic : Instr → String
  | .nop => "NOP"
  | .csc _ => "CSC"
  | .fdct _ => "FDCT"
  | .idct _ => "IDCT"
  | .qzz => "QZZ"
  | .dqzz => "DQZZ"
  | .henc => "HENC"
  | .hdec => "HDEC"
  | .bbrst => "BBRST"
  | .bbadd _ => "BBADD"
  | .bbfin => "BBFIN"

/-- The assembler's spellings without a number and the command each stands for (R100). -/
def asmSpellings : List (String × Instr) :=
  [("nop", .nop),
   ("csc.rgb", .csc 0),
   ("csc.ycc", .csc 1),
   ("fdct.d", .fdct false),
   ("fdct.s", .fdct true),
   ("idct.d", .idct false),
   ("idct.s", .idct true),
   ("qzz", .qzz),
   ("dqzz", .dqzz),
   ("henc", .henc),
   ("hdec", .hdec),
   ("bbrst", .bbrst),
   ("bbfin", .bbfin)]

/-- The word of a spelling with its number, if it takes one: `csc #fmt` and `bbadd #len` take one, the others none (R100). -/
def assemble (spelling : String) (number : Option Nat) : Option Word :=
  match number with
  | none => (asmSpellings.lookup spelling).map encode
  | some n =>
    if spelling = "csc" ∧ n < 16 then some (encode (.csc n))
    else if spelling = "bbadd" ∧ n < 64 then some (encode (.bbadd n))
    else none

end Sys2Proof
end

