-- ==== Sys2Proof/Machine/Agent.lean ====
section
/-! DEFINITION. What the agents outside the engine can do, as plain data: host accesses (70_reset_and_hazards.md R297), the lines of a host program (30_encoding.md R101), and the turns that say who moves next. -/

namespace Sys2Proof.Machine

/-- The registers by name (10_state.md R23). -/
inductive RegName where
  | id | version | ctrl | status | cmd | cfg | src | dst | count | width | height | plane | qaddr
  | bias | arg0 | bitcntLo | bitcntHi | outcnt | dtcnt | maxlen | errinfo | bbptr | bbstate
  | bbtotLo | bbtotHi
  deriving DecidableEq, Repr

/-- One access through the host port: an offset from BASE, a width in bits, and for a write the value (R297). -/
inductive HostAccess where
  | write (off width : Nat) (v : Word)
  | read (off width : Nat)
  deriving DecidableEq, Repr

/-- A variable of the host program. -/
abbrev HostVar := Nat

/-- An integer expression over host variables and constants (R101); `bit e k` is bit k of e, written e[k] in R102. -/
inductive HostExpr where
  | const (v : Int)
  | var (x : HostVar)
  | add (a b : HostExpr)
  | sub (a b : HostExpr)
  | mul (a b : HostExpr)
  | bit (e : HostExpr) (k : Nat)
  deriving DecidableEq, Repr

/-- The condition of an `if cond goto label` line (R101). -/
inductive HostCond where
  | eq (a b : HostExpr)
  | ne (a b : HostExpr)
  | lt (a b : HostExpr)
  | le (a b : HostExpr)
  deriving DecidableEq, Repr

/-- What a `wr` or `rd` line names: a register or a word of a table window (R101). -/
inductive HostLoc where
  | reg (r : RegName)
  | etabCode (b : HostExpr)
  | etabLen (b : HostExpr)
  | dtabCode (i : HostExpr)
  | dtabLen (i : HostExpr)
  | dtabValue (i : HostExpr)
  | ctab (x u : HostExpr)
  deriving DecidableEq, Repr

/-- A line of a host program (R101). `store` is sb, sh or sw and `load` is lb, lh or lw, by their width in bits. -/
inductive HostLine where
  | wr (l : HostLoc) (v : HostExpr)
  | rd (l : HostLoc) (t : HostVar)
  | store (width : Nat) (a v : HostExpr)
  | load (width : Nat) (a : HostExpr) (t : HostVar)
  | set (t : HostVar) (e : HostExpr)
  | label (l : Nat)
  | goto (l : Nat)
  | ifGoto (c : HostCond) (l : Nat)
  deriving DecidableEq, Repr

/-- Who moves next (R297): the host makes the access given, the host executes the next line of its program, the engine takes its step, or the platform resets the machine. -/
inductive Turn where
  | access (a : HostAccess)
  | program
  | complete
  | powerOn
  deriving DecidableEq, Repr

end Sys2Proof.Machine
end

