-- ==== Sys2Proof/Machine/State.lean ====
section
/-! DEFINITION. The state of the JPC core (10_state.md R20), the reasons a step can stop, and the state after power-on reset (70_reset_and_hazards.md R291). -/

namespace Sys2Proof.Machine

/-- Why the machine stops. -/
inductive Fault where
  /-- An unsupported host access, answered with the platform's HOST_BUS_ERROR, JPC's state unchanged (20_memory.md R62, R63, R64). Raised by the host port (`hostRead`, `hostWrite`). Safe: R298 tells a model to treat it as a fault. Log entry 4. -/
  | hostBusError
  deriving DecidableEq, Repr

/-- Why a step has no meaning. -/
inductive Refusal where
  /-- An instruction that has no meaning in this model; raised by an arm of `exec` only, and no arm raises it. Safe. -/
  | notModelled (mnemonic : String)
  /-- A host program jumps to a label no line of it defines; the spec gives such a line no meaning (R101). Raised by `hostProgramStep`. Safe. Log entry 8. -/
  | hostLabelMissing (l : Nat)
  deriving DecidableEq, Repr

/-- The bit buffer: BBPTR, BBSTATE and BBTOT (R37, R38, R39). -/
structure BitBuf where
  /-- BBPTR (R37). -/
  ptr : Word
  /-- BBSTATE.ACC, the partial byte, left-justified (R38). -/
  acc : Byte
  /-- BBSTATE.FILL, how many bits are pending (R38). -/
  fill : BitVec 3
  /-- BBSTATE.OPEN (R38). -/
  isOpen : Bool
  /-- BBTOT, the bits appended (R39). -/
  tot : BitVec 64
  deriving DecidableEq, Repr

/-- The registers of R23, field by field. ID, VERSION, CTRL.SRST and the reserved bits hold no state: what they read as stands in `regRead`. -/
structure Regs where
  /-- CTRL.IE (R26). -/
  ie : Bool
  /-- STATUS.BUSY (R27). -/
  busy : Bool
  /-- STATUS.DONE (R27). -/
  done : Bool
  /-- STATUS.ERR (R27). -/
  err : Bool
  /-- STATUS.WERR (R27). -/
  werr : Bool
  /-- STATUS.ERRCODE (R27). -/
  errcode : BitVec 8
  /-- CMD (R28). -/
  cmd : Word
  /-- CFG.BLKN (R29). -/
  blkn : BitVec 5
  /-- SRC (R30). -/
  src : Word
  /-- DST (R30). -/
  dst : Word
  /-- COUNT (R30). -/
  count : Word
  /-- WIDTH (R30). -/
  width : Word
  /-- HEIGHT (R30). -/
  height : Word
  /-- PLANE (R30). -/
  plane : Word
  /-- QADDR (R30). -/
  qaddr : Word
  /-- BIAS (R31). -/
  bias : F32
  /-- ARG0 (R30). -/
  arg0 : Word
  /-- BITCNT, read and written as BITCNT_LO and BITCNT_HI (R32). -/
  bitcnt : BitVec 64
  /-- OUTCNT (R33). -/
  outcnt : Word
  /-- DTCNT (R34). -/
  dtcnt : BitVec 9
  /-- MAXLEN (R35). -/
  maxlen : BitVec 6
  /-- ERRINFO (R36). -/
  errinfo : Word
  /-- BBPTR, BBSTATE, BBTOT (R37, R38, R39). -/
  bb : BitBuf
  deriving DecidableEq, Repr

/-- An entry of ETAB; LEN 0 means unset (R42). -/
structure EtabEntry where
  code : Word
  len : BitVec 6
  deriving DecidableEq, Repr

/-- An entry of DTAB (R43). -/
structure DtabEntry where
  code : Word
  len : BitVec 6
  value : Byte
  deriving DecidableEq, Repr

/-- DMEM (R45). `size` is DMEM_BYTES; `cells` lists the bytes written since power-on, addresses rising; a byte not listed is unwritten and reads as the draw of power-on number `powerOns` (R291). -/
structure Dmem where
  size : Nat
  powerOns : Nat
  cells : List Host.Cell
  deriving DecidableEq, Repr

/-- The registers, ETAB, DTAB and DMEM: what a launch snapshots (R20, R46). -/
structure Arch where
  regs : Regs
  etab : Vector EtabEntry 256
  dtab : Vector DtabEntry 256
  dmem : Dmem
  deriving DecidableEq, Repr

/-- A command between its launch and its completion (R46). -/
structure InFlight where
  /-- The launched word. -/
  cmdword : Word
  /-- The state at launch. -/
  pre : Arch
  deriving DecidableEq, Repr

/-- The state of the machine: the architectural state of R20, and the plain data that stands for what is outside it (who moves next, the host's program and variables, the counters behind the draws). -/
structure State extends Arch where
  /-- InFlight (R20, R46). -/
  inFlight : Option InFlight
  /-- How many commands a reset has abandoned; picks the draws of R293. The model's own, log entry 5. -/
  aborts : Nat
  /-- Who moves next, oldest first (R297). The model's own, log entry 6. -/
  turns : List Turn
  /-- The value the host port last returned (R297, HostRead). The model's own, log entry 7. -/
  hostData : Word
  /-- The host program (R101). Log entry 8. -/
  prog : List HostLine
  /-- The index of the host's next line (R101). Log entry 8. -/
  progPos : Nat
  /-- The host's variables that have been assigned, names rising (R101). Log entry 8. -/
  vars : List (HostVar × Int)
  deriving DecidableEq, Repr

/-- A bit buffer that has never been opened: every field 0 (R23, R291). -/
def BitBuf.reset : BitBuf := ⟨0, 0, 0, false, 0⟩

/-- The registers after reset: the reset column of R23 (R291). -/
def Regs.reset : Regs :=
  { ie := false, busy := false, done := false, err := false, werr := false, errcode := 0x00,
    cmd := 0, blkn := 8, src := 0, dst := 0, count := 0, width := 0, height := 0, plane := 0,
    qaddr := 0, bias := 0x00000000, arg0 := 0, bitcnt := 0, outcnt := 0, dtcnt := 0, maxlen := 0,
    errinfo := 0, bb := BitBuf.reset }

/-- ETAB after reset: all unset (R291). -/
def etabReset : Vector EtabEntry 256 := Vector.replicate 256 ⟨0, 0⟩

/-- DTAB after reset: all (CODE 0, LEN 0, VALUE 0) (R291). -/
def dtabReset : Vector DtabEntry 256 := Vector.replicate 256 ⟨0, 0, 0⟩

/-- DMEM after a power-on reset: no byte written (R45, R291). -/
def Dmem.powerOn (size powerOns : Nat) : Dmem := ⟨size, powerOns, []⟩

/-- The machine right after power-on reset, waiting for the host's first access (R291). -/
def State.reset : State :=
  { regs := Regs.reset, etab := etabReset, dtab := dtabReset,
    dmem := Dmem.powerOn Config.dmemBytesDefault 0, inFlight := none, aborts := 0, turns := [],
    hostData := 0, prog := [], progPos := 0, vars := [] }

/-- DMEM's canonical form: listed addresses strictly rise and exist. An unlisted byte has no value of its own, so no listed one can equal it. -/
abbrev Dmem.wf (m : Dmem) : Prop :=
  m.cells.Pairwise (fun c d => c.1 < d.1) ∧ ∀ c ∈ m.cells, c.1 < m.size

end Sys2Proof.Machine
end

