-- ==== Sys2Proof/Machine/Flags.lean ====
section
/-! DEFINITION. The error codes (60_exceptions.md R260), the STATUS bits and what changes them (10_state.md R27), and the interrupt line (R49, R263). JPC has no other flags (R48). -/

namespace Sys2Proof.Machine

/-- The errors a command can report (R260). -/
inductive ErrCode where
  | invalidFormat | malformed | decodeMismatch | precondition | bounds | align | illegalCmd
  | codeOverflow
  deriving DecidableEq, Repr

/-- The number of an error in STATUS.ERRCODE (R260). -/
def errNumber : ErrCode → BitVec 8
  | .invalidFormat => 0x01
  | .malformed => 0x02
  | .decodeMismatch => 0x03
  | .precondition => 0x04
  | .bounds => 0x05
  | .align => 0x06
  | .illegalCmd => 0x07
  | .codeOverflow => 0x08

/-- STATUS as the host reads it (R27). -/
def statusWord (r : Regs) : Word :=
  0#16 ++ r.errcode ++ 0#4 ++ BitVec.ofBool r.werr ++ BitVec.ofBool r.err ++ BitVec.ofBool r.done ++
    BitVec.ofBool r.busy

/-- CTRL as the host reads it: SRST always reads 0 (R26). -/
def ctrlWord (r : Regs) : Word := 0#31 ++ BitVec.ofBool r.ie

/-- BBSTATE as the host reads it (R38). -/
def bbstateWord (b : BitBuf) : Word :=
  0#15 ++ BitVec.ofBool b.isOpen ++ 0#5 ++ b.fill ++ b.acc

/-- A host write to STATUS clears DONE, ERR and WERR where the written bit is 1 (R27). -/
def writeStatus (r : Regs) (v : Word) : Regs :=
  { r with
    done := r.done && !v.getLsbD 1
    err := r.err && !v.getLsbD 2
    werr := r.werr && !v.getLsbD 3 }

/-- The registers after a dropped host access: WERR set, all else kept (R73). -/
def setWerr (r : Regs) : Regs := { r with werr := true }

/-- The registers right after a launch of the word `w` (R110). -/
def launchRegs (r : Regs) (w : Word) : Regs :=
  { r with cmd := w, busy := true, done := false, err := false, errcode := 0x00, errinfo := 0 }

/-- STATUS and ERRINFO at a completion: DONE, the error if there is one, and BUSY cleared (R112, R113). -/
def completeStatus (r : Regs) (error : Option (ErrCode × Nat)) : Regs :=
  match error with
  | none => { r with busy := false, done := true, errcode := 0x00, errinfo := 0 }
  | some (c, info) =>
    { r with
      busy := false, done := true, err := true, errcode := errNumber c
      errinfo := BitVec.ofNat 32 info }

/-- The interrupt output: IE and (DONE or ERR) (R49, R263). -/
def State.irq (s : State) : Bool := s.regs.ie && (s.regs.done || s.regs.err)

end Sys2Proof.Machine
end

