-- ==== Sys2Proof/Machine/Float32.lean ====
section
/-! DEFINITION. IEEE 754 binary32 arithmetic with roundTiesToEven, subnormals honoured, every NaN result canonical and no flags (00_scope.md R11), and the conversions of R11 and R12. Every finite binary32 value is an integer multiple of 2^-149, so each operation is computed exactly on integers and rounded once. -/

namespace Sys2Proof.Machine

/-- The canonical NaN (R11). -/
def fNaN : F32 := 0x7FC00000

/-- +0.0. -/
def fZero : F32 := 0x00000000

/-- 1.0. -/
def fOne : F32 := 0x3F800000

/-- The sign bit. -/
def fSign (a : F32) : Bool := a.msb

/-- The bits below the sign, as a number: it grows with the magnitude. -/
def fMag (a : F32) : Nat := a.toNat % 2 ^ 31

/-- The magnitude bits of infinity: exponent 255, fraction 0. -/
def infMag : Nat := 0x7F800000

/-- The magnitude bits exceed those of infinity: exponent 255, fraction not 0. -/
def isNaN (a : F32) : Bool := decide (infMag < fMag a)

/-- Plus or minus infinity. -/
def isInf (a : F32) : Bool := decide (fMag a = infMag)

/-- Neither infinite nor NaN. -/
def isFinite (a : F32) : Bool := decide (fMag a < infMag)

/-- Plus or minus zero. -/
def isZero (a : F32) : Bool := decide (fMag a = 0)

/-- The value with a given sign and magnitude bits. -/
def fOfSignMag (s : Bool) (m : Nat) : F32 := BitVec.ofNat 32 ((if s then 2 ^ 31 else 0) + m)

/-- Infinity of a given sign. -/
def fInf (s : Bool) : F32 := fOfSignMag s infMag

/-- Zero of a given sign. -/
def fZeroOf (s : Bool) : F32 := fOfSignMag s 0

/-- The magnitude of a finite value, in units of 2^-149. -/
def fUnits (a : F32) : Nat :=
  let e := fMag a / 2 ^ 23
  let f := fMag a % 2 ^ 23
  if e = 0 then f else (2 ^ 23 + f) * 2 ^ (e - 1)

/-- The value of a finite binary32, in units of 2^-149. -/
def fToUnits (a : F32) : Int := if fSign a then -(fUnits a : Int) else (fUnits a : Int)

/-- `n / d` rounded to the nearest integer, ties to even. -/
def roundEven (n d : Nat) : Nat :=
  let t := n / d
  let r := n % d
  if d < 2 * r ∨ (2 * r = d ∧ t % 2 = 1) then t + 1 else t

/-- How many low bits of the units the nearest binary32 drops when the integer part of the value is `q` units: none below 2^24 units, and then all but the top 24 bits. -/
def dropBits (q : Nat) : Nat := if q < 2 ^ 24 then 0 else Nat.log2 q - 23

/-- The magnitude bits of the binary32 nearest to `n / d` units of 2^-149, ties to even, infinity past the largest finite value (R11). The rounded significand and the binade add up to the bits, and a carry out of the significand moves on to the next binade. -/
def roundMag (n d : Nat) : Nat :=
  let k := dropBits (n / d)
  min infMag (roundEven n (d * 2 ^ k) + k * 2 ^ 23)

/-- rn32 of the rational `(-1)^s · n / d` (R11). -/
def rn32 (s : Bool) (n d : Nat) : F32 := fOfSignMag s (roundMag (n * 2 ^ 149) d)

/-- neg flips the sign bit (R11). -/
def fneg (a : F32) : F32 := a ^^^ 0x80000000#32

/-- fadd (R11): an exact zero sum is −0.0 only when both operands are negative. -/
def fadd (a b : F32) : F32 :=
  if isNaN a || isNaN b then fNaN
  else if isInf a then (if isInf b && (fSign a != fSign b) then fNaN else a)
  else if isInf b then b
  else
    let z := fToUnits a + fToUnits b
    if z = 0 then fZeroOf (fSign a && fSign b)
    else fOfSignMag (decide (z < 0)) (roundMag z.natAbs 1)

/-- fsub (R11). -/
def fsub (a b : F32) : F32 := fadd a (fneg b)

/-- fmul (R11). -/
def fmul (a b : F32) : F32 :=
  if isNaN a || isNaN b then fNaN
  else if isInf a || isInf b then
    (if isZero a || isZero b then fNaN else fInf (fSign a != fSign b))
  else fOfSignMag (fSign a != fSign b) (roundMag (fUnits a * fUnits b) (2 ^ 149))

/-- fdiv (R11). -/
def fdiv (a b : F32) : F32 :=
  if isNaN a || isNaN b then fNaN
  else if isInf a then (if isInf b then fNaN else fInf (fSign a != fSign b))
  else if isInf b then fZeroOf (fSign a != fSign b)
  else if isZero b then (if isZero a then fNaN else fInf (fSign a != fSign b))
  else fOfSignMag (fSign a != fSign b) (roundMag (fUnits a * 2 ^ 149) (fUnits b))

/-- i2f, the binary32 value of an integer of magnitude at most 2^24 (R11). -/
def i2f (n : Int) : F32 := rn32 (decide (n < 0)) n.natAbs 1

/-- An integer held to the range of a signed byte (R12). -/
def saturate8 (n : Int) : Int := min 127 (max (-128) n)

/-- cvt_sat8 (R12): NaN gives 0, otherwise nearest integer with ties to even, then saturation. -/
def cvtSat8 (a : F32) : Int :=
  if isNaN a then 0
  else if isInf a then (if fSign a then -128 else 127)
  else
    let n := roundEven (fUnits a) (2 ^ 149)
    saturate8 (if fSign a then -(n : Int) else n)

/-- sext8: a byte as two's complement, −128 to 127 (R7). -/
def sext8 (b : Byte) : Int := b.toInt

end Sys2Proof.Machine
end

