-- ==== Sys2Proof/Machine/Ops.lean ====
section
/-! DEFINITION. Reading and writing DMEM (00_scope.md R9), the check primitives (40_command_model.md R114), and the shared operations on the state: launching a command (R110), completing it with or without an error (R112, R113, R116), and power-on reset (70_reset_and_hazards.md R291). -/

namespace Sys2Proof.Machine

/-- The byte listed for an address. -/
def cellAt : List Host.Cell → Nat → Option Byte
  | [], _ => none
  | (k, b) :: rest, a => if k = a then some b else cellAt rest a

/-- The list with one byte written, addresses still rising. -/
def setCell : List Host.Cell → Nat → Byte → List Host.Cell
  | [], a, b => [(a, b)]
  | (k, c) :: rest, a, b =>
    if a < k then (a, b) :: (k, c) :: rest
    else if a = k then (a, b) :: rest
    else (k, c) :: setCell rest a b

/-- LdB (R9): the byte written last, or the power-on draw of a byte not written (R45, R291). -/
def Dmem.byte (m : Dmem) (a : Nat) : Byte := (cellAt m.cells a).getD (Config.powerOnByte m.powerOns a)

/-- StB (R9). -/
def Dmem.setByte (m : Dmem) (a : Nat) (b : Byte) : Dmem := { m with cells := setCell m.cells a b }

/-- The writes of a list made in its order. -/
def Dmem.setBytes (m : Dmem) (ws : List Host.Cell) : Dmem := ws.foldl (fun m c => m.setByte c.1 c.2) m

/-- MemRead(a, n): the n-byte little-endian integer at `a` (R9). -/
def Dmem.read (m : Dmem) (a : Nat) : Nat → Nat
  | 0 => 0
  | n + 1 => (m.byte a).toNat + 256 * Dmem.read m (a + 1) n

/-- The writes that store bytes at consecutive addresses from `a`, in ascending order. -/
def bytesAt : Nat → List Byte → List Host.Cell
  | _, [] => []
  | a, b :: bs => (a, b) :: bytesAt (a + 1) bs

/-- The n bytes of `v`, least significant first (R9, R60). -/
def littleEndian : Nat → Nat → List Byte
  | 0, _ => []
  | n + 1, v => BitVec.ofNat 8 v :: littleEndian n (v / 256)

/-- MemWrite(a, n, v), as the writes it makes (R9). -/
def memWrites (a n v : Nat) : List Host.Cell := bytesAt a (littleEndian n v)

/-- LdF (R9). -/
def Dmem.ldF (m : Dmem) (a : Nat) : F32 := BitVec.ofNat 32 (m.read a 4)

/-- StF (R9), as the writes it makes. -/
def stF (a : Nat) (f : F32) : List Host.Cell := memWrites a 4 f.toNat

/-- A check of a command: whether it fails, and the error it then raises (R114). -/
structure Check where
  fails : Bool
  code : ErrCode
  info : Nat
  deriving DecidableEq, Repr

/-- A span is in bounds iff it is empty or ends inside DMEM (R13). -/
def inBounds (m : Dmem) (a len : Nat) : Bool := decide (len = 0) || decide (a + len ≤ m.size)

/-- Two spans overlap iff both are non-empty and share an address (R13). -/
def overlap (a la b lb : Nat) : Bool :=
  decide (0 < la) && decide (0 < lb) && decide (a < b + lb) && decide (b < a + la)

/-- CheckAlign(v, sub) (R114). -/
def checkAlign (v sub : Nat) : Check := ⟨decide (v % 4 ≠ 0), .align, sub⟩

/-- CheckSpan(a, len, sub) (R114). -/
def checkSpan (m : Dmem) (a len sub : Nat) : Check := ⟨!inBounds m a len, .bounds, sub⟩

/-- The first check that fails decides the error; no other is recorded (R115, R265). -/
def firstError : List Check → Option (ErrCode × Nat)
  | [] => none
  | c :: cs => if c.fails then some (c.code, c.info) else firstError cs

/-- What a command writes besides STATUS, ERRINFO and OUTCNT: DMEM bytes in order, and the registers and tables it changes (R99, R112). -/
structure Effects where
  writes : List Host.Cell := []
  etab : Option (Vector EtabEntry 256) := none
  dtab : Option (Vector DtabEntry 256) := none
  dtcnt : Option (BitVec 9) := none
  maxlen : Option (BitVec 6) := none
  bitcnt : Option (BitVec 64) := none
  bb : Option BitBuf := none

/-- Exec(w, pre): ok(effects) or error(code, info, effects) (R10, R112). -/
structure Result where
  error : Option (ErrCode × Nat) := none
  effects : Effects := {}

/-- A command whose checks raise an error writes nothing (R115, R264); otherwise it does what it does. The body is a function of nothing, so that it is not computed where a check fails. -/
def checked (cs : List Check) (run : Unit → Result) : Result :=
  match firstError cs with
  | some e => { error := some e }
  | none => run ()

/-- OUTCNT: the number of DMEM bytes written, each counted once per write, modulo 2^32 (R116). -/
def Effects.outcnt (e : Effects) : Word := BitVec.ofNat 32 e.writes.length

/-- The registers with a command's effects and OUTCNT written (R99, R116). -/
def Effects.applyRegs (e : Effects) (r : Regs) : Regs :=
  { r with
    dtcnt := e.dtcnt.getD r.dtcnt
    maxlen := e.maxlen.getD r.maxlen
    bitcnt := e.bitcnt.getD r.bitcnt
    bb := e.bb.getD r.bb
    outcnt := e.outcnt }

/-- Completion (R112, R113, R116), the one way a command ends and the one way an error is taken: the effects are written, then STATUS and ERRINFO, and nothing is in flight any more. No other state is saved and no control is transferred (R268). -/
def State.complete (s : State) (r : Result) : State :=
  { s with
    regs := completeStatus (r.effects.applyRegs s.regs) r.error
    etab := r.effects.etab.getD s.etab
    dtab := r.effects.dtab.getD s.dtab
    dmem := s.dmem.setBytes r.effects.writes
    inFlight := none }

/-- The state a command reads: the snapshot of its launch, or the state itself if nothing is in flight (R46, R119). -/
def State.operands (s : State) : Arch :=
  match s.inFlight with
  | some f => f.pre
  | none => s.toArch

/-- Launch of the word `w` (R110). -/
def State.launch (s : State) (w : Word) : State :=
  let a : Arch := { s.toArch with regs := launchRegs s.regs w }
  { s with toArch := a, inFlight := some ⟨w, a⟩ }

/-- The registers and tables at their reset values, no command in flight, DMEM as given (R291, R292). -/
def State.resetTo (s : State) (m : Dmem) : State :=
  { s with regs := Regs.reset, etab := etabReset, dtab := dtabReset, dmem := m, inFlight := none }

/-- Power-on reset: everything at its reset value and every DMEM byte a new draw (R291). A command in flight is abandoned (R293). -/
def State.powerOn (s : State) : State := s.resetTo (Dmem.powerOn s.dmem.size (s.dmem.powerOns + 1))

end Sys2Proof.Machine
end

