-- ==== Sys2Proof/Machine/Operands.lean ====
section
/-! DEFINITION. The operand forms of the commands: stream and plane addresses (40_command_model.md R122, 00_scope.md R14), blocks of a plane (42_dct.md R154, R155), bits of a stream (20_memory.md R61), and the registers as the host reads and writes them (10_state.md R23 to R44). -/

namespace Sys2Proof.Machine

/-- ceil8(n) = (n + 7) div 8 (R7). -/
def ceil8 (n : Nat) : Nat := (n + 7) / 8

/-- The address of sample (r, c) of a plane of width `w` at `p` (R14). -/
def sampleAddr (p w r c : Nat) : Nat := p + 4 * (r * w + c)

/-- The address of element [i][j] of block (br, bc), block size `n` (R155). -/
def blockAddr (p w n br bc i j : Nat) : Nat := sampleAddr p w (br * n + i) (bc * n + j)

/-- The address of component `k` of pixel `p` (R122, R134). -/
def componentAddr (base plane k p : Nat) : Nat := base + k * plane + 4 * p

/-- The address of element [r][c] of the divisor matrix (R182). -/
def matrixAddr (qaddr n r c : Nat) : Nat := qaddr + 4 * (r * n + c)

/-- A square matrix of binary32 values, row by row. -/
abbrev Matrix32 := List (List F32)

/-- The n×n matrix with elements `f i j`. -/
def matrixOf (n : Nat) (f : Nat → Nat → F32) : Matrix32 :=
  (List.range n).map fun i => (List.range n).map fun j => f i j

/-- Element [i][j]. -/
def elemAt (m : Matrix32) (i j : Nat) : F32 := (m.getD i []).getD j fZero

/-- BlockLoad (R155). -/
def blockLoad (m : Dmem) (p w n br bc : Nat) : Matrix32 :=
  matrixOf n fun i j => m.ldF (blockAddr p w n br bc i j)

/-- BlockStore, row-major (R155), as the writes it makes. -/
def blockStore (p w n br bc : Nat) (x : Matrix32) : List Host.Cell :=
  (List.range n).flatMap fun i =>
    (List.range n).flatMap fun j => stF (blockAddr p w n br bc i j) (elemAt x i j)

/-- Steps of a command made one after another: step k reads the memory that the steps before it left, and its own writes come after its reads (R134, R154). The result is all the writes in their order. -/
def inSequence (step : Nat → Dmem → List Host.Cell) : List Nat → Dmem → List Host.Cell
  | [], _ => []
  | k :: ks, m =>
    let ws := step k m
    ws ++ inSequence step ks (m.setBytes ws)

/-- The number of blocks of a plane (R154). -/
def blockCount (w h n : Nat) : Nat := (h / n) * (w / n)

/-- The blocks of a plane in raster order (R154, R185): block k is (k div (w/n), k mod (w/n)). -/
def eachBlock (w h n : Nat) (step : Nat → Nat → Nat → Dmem → List Host.Cell) (m : Dmem) :
    List Host.Cell :=
  inSequence (fun k m => step k (k / (w / n)) (k % (w / n)) m) (List.range (blockCount w h n)) m

/-- Bit k of the stream that starts at byte address `start`: bit 7 − (k mod 8) of its byte (R61). -/
def streamBit (m : Dmem) (start k : Nat) : Bool := (m.byte (start + k / 8)).getLsbD (7 - k % 8)

/-- The `len` low bits of a pattern, most significant first (R61, R200). -/
def patternBits (pat len : Nat) : List Bool :=
  (List.range len).map fun t => pat.testBit (len - 1 - t)

/-- CheckBlocks (R156). -/
def checkBlocks (r : Regs) : List Check :=
  let n := r.blkn.toNat
  [⟨decide (n = 0) || decide (Config.nMax < n), .precondition, 1⟩,
   ⟨decide (r.width.toNat % n ≠ 0), .precondition, 2⟩,
   ⟨decide (r.height.toNat % n ≠ 0), .precondition, 3⟩]

/-- A table of 256 entries. -/
def tableOf {α : Type} (f : Nat → α) : Vector α 256 := ⟨((List.range 256).map f).toArray, by simp⟩

/-- Entry `i` of a table of 256. -/
def entryAt {α : Type} (t : Vector α 256) (i : Nat) (default : α) : α := t.toArray.toList.getD i default

/-- The host offset of a register (R23). -/
def RegName.offset : RegName → Nat
  | .id => 0x000
  | .version => 0x004
  | .ctrl => 0x008
  | .status => 0x00C
  | .cmd => 0x010
  | .cfg => 0x014
  | .src => 0x018
  | .dst => 0x01C
  | .count => 0x020
  | .width => 0x024
  | .height => 0x028
  | .plane => 0x02C
  | .qaddr => 0x030
  | .bias => 0x034
  | .arg0 => 0x038
  | .bitcntLo => 0x03C
  | .bitcntHi => 0x040
  | .outcnt => 0x044
  | .dtcnt => 0x048
  | .maxlen => 0x04C
  | .errinfo => 0x050
  | .bbptr => 0x054
  | .bbstate => 0x058
  | .bbtotLo => 0x05C
  | .bbtotHi => 0x060

/-- The registers in the order of their offsets (R23). -/
def regNames : List RegName :=
  [.id, .version, .ctrl, .status, .cmd, .cfg, .src, .dst, .count, .width, .height, .plane, .qaddr,
   .bias, .arg0, .bitcntLo, .bitcntHi, .outcnt, .dtcnt, .maxlen, .errinfo, .bbptr, .bbstate,
   .bbtotLo, .bbtotHi]

/-- What a register reads as (R24 to R39). No read has a side effect (R41). -/
def regRead (r : Regs) : RegName → Word
  | .id => 0x4A504331
  | .version => 0x00000001
  | .ctrl => ctrlWord r
  | .status => statusWord r
  | .cmd => r.cmd
  | .cfg => 0#27 ++ r.blkn
  | .src => r.src
  | .dst => r.dst
  | .count => r.count
  | .width => r.width
  | .height => r.height
  | .plane => r.plane
  | .qaddr => r.qaddr
  | .bias => r.bias
  | .arg0 => r.arg0
  | .bitcntLo => r.bitcnt.setWidth 32
  | .bitcntHi => (r.bitcnt >>> 32).setWidth 32
  | .outcnt => r.outcnt
  | .dtcnt => 0#23 ++ r.dtcnt
  | .maxlen => 0#26 ++ r.maxlen
  | .errinfo => r.errinfo
  | .bbptr => r.bb.ptr
  | .bbstate => bbstateWord r.bb
  | .bbtotLo => r.bb.tot.setWidth 32
  | .bbtotHi => (r.bb.tot >>> 32).setWidth 32

/-- A host write to a register that only stores: RW fields take the written bits, reserved and read-only ones ignore them (R29 to R41). CTRL, STATUS and CMD do more than store: what a write to them does stands in `hostWrite`. -/
def regStore (r : Regs) (v : Word) : RegName → Regs
  | .id => r
  | .version => r
  | .ctrl => r
  | .status => r
  | .cmd => r
  | .cfg => { r with blkn := v.setWidth 5 }
  | .src => { r with src := v }
  | .dst => { r with dst := v }
  | .count => { r with count := v }
  | .width => { r with width := v }
  | .height => { r with height := v }
  | .plane => { r with plane := v }
  | .qaddr => { r with qaddr := v }
  | .bias => { r with bias := v }
  | .arg0 => { r with arg0 := v }
  | .bitcntLo => { r with bitcnt := (r.bitcnt >>> 32).setWidth 32 ++ v }
  | .bitcntHi => { r with bitcnt := v ++ r.bitcnt.setWidth 32 }
  | .outcnt => r
  | .dtcnt => { r with dtcnt := v.setWidth 9 }
  | .maxlen => r
  | .errinfo => r
  | .bbptr => r
  | .bbstate => r
  | .bbtotLo => r
  | .bbtotHi => r

/-- What a host offset names (R68). -/
inductive Region where
  | reg (r : RegName)
  | reserved
  /-- word 0 (CODE) or 1 (LEN) of ETAB entry b (R42) -/
  | etab (b word : Nat)
  /-- word 0 (CODE), 1 (LEN), 2 (VALUE) or 3 (reserved) of DTAB entry i (R43) -/
  | dtab (i word : Nat)
  /-- T_N[x][u] (R44) -/
  | ctab (x u : Nat)
  deriving DecidableEq, Repr

/-- The region of a word offset in the register block (R68). -/
def regionOf (off : Nat) : Region :=
  if off < 0x064 then
    match regNames.find? (fun r => r.offset == off) with
    | some r => .reg r
    | none => .reserved
  else if off < 0x800 then .reserved
  else if off < 0x1000 then .etab ((off - 0x800) / 8) ((off - 0x800) % 8 / 4)
  else if off < 0x2000 then .dtab ((off - 0x1000) / 16) ((off - 0x1000) % 16 / 4)
  else if off < 0x2400 then .ctab ((off - 0x2000) / 64) ((off - 0x2000) % 64 / 4)
  else .reserved

/-- A word of an ETAB entry as the host reads it (R42). -/
def etabRead (t : Vector EtabEntry 256) (b word : Nat) : Word :=
  let e := entryAt t b ⟨0, 0⟩
  match word with
  | 0 => e.code
  | _ => 0#26 ++ e.len

/-- A word of a DTAB entry as the host reads it (R43). -/
def dtabRead (t : Vector DtabEntry 256) (i word : Nat) : Word :=
  let e := entryAt t i ⟨0, 0, 0⟩
  match word with
  | 0 => e.code
  | 1 => 0#26 ++ e.len
  | 2 => 0#24 ++ e.value
  | _ => 0

/-- A DTAB entry with one of its words written by the host (R43). -/
def DtabEntry.store (e : DtabEntry) (word : Nat) (v : Word) : DtabEntry :=
  match word with
  | 0 => { e with code := v }
  | 1 => { e with len := v.setWidth 6 }
  | 2 => { e with value := v.setWidth 8 }
  | _ => e

/-- DTAB with one word of entry `i` written by the host (R43). -/
def dtabStore (t : Vector DtabEntry 256) (i word : Nat) (v : Word) : Vector DtabEntry 256 :=
  tableOf fun j => if j = i then (entryAt t j ⟨0, 0, 0⟩).store word v else entryAt t j ⟨0, 0, 0⟩

end Sys2Proof.Machine
end

