-- ==== Sys2Proof/Machine/Color.lean ====
section
/-! DEFINITION. The colour-space converter, CSC (41_color.md R130 to R136). -/

namespace Sys2Proof.Machine

/-- The coefficients of RSPEC's formulas as binary32 (R131): rn32 of the decimal literal each is named after. -/
def c16 : F32 := 0x41800000
def c128 : F32 := 0x43000000
def c256 : F32 := 0x43800000
def c65_738 : F32 := 0x428379DB
def c129_057 : F32 := 0x43010E98
def c24_064 : F32 := 0x41C08312
def c37_945 : F32 := 0x4217C7AE
def c74_494 : F32 := 0x4294FCEE
def c112_439 : F32 := 0x42E0E0C5
def c94_154 : F32 := 0x42BC4ED9
def c18_285 : F32 := 0x419247AE
def c298_082 : F32 := 0x43950A7F
def c408_583 : F32 := 0x43CC4AA0
def c222_921 : F32 := 0x435EEBC7
def c100_291 : F32 := 0x42C894FE
def c208_120 : F32 := 0x43501EB8
def c135_576 : F32 := 0x43079375
def c516_412 : F32 := 0x44011A5E
def c276_836 : F32 := 0x438A6B02

/-- The six components of a pixel, in the order of R130. -/
structure Pixel where
  r : F32
  g : F32
  b : F32
  y : F32
  cb : F32
  cr : F32
  deriving DecidableEq, Repr

/-- A pixel from R, G, B, its Y, Cb, Cr computed left to right in binary32 (R130, R132). -/
def pixelOfRgb (r g b : F32) : Pixel :=
  { r := r
    g := g
    b := b
    y := fadd c16 (fdiv (fadd (fadd (fmul c65_738 r) (fmul c129_057 g)) (fmul c24_064 b)) c256)
    cb := fadd c128
      (fdiv (fadd (fsub (fmul (fneg c37_945) r) (fmul c74_494 g)) (fmul c112_439 b)) c256)
    cr := fadd c128
      (fdiv (fsub (fsub (fmul c112_439 r) (fmul c94_154 g)) (fmul c18_285 b)) c256) }

/-- A pixel from Y, Cb, Cr, its R, G, B computed left to right in binary32 (R130, R133). -/
def pixelOfYcc (y cb cr : F32) : Pixel :=
  { r := fsub (fdiv (fadd (fmul c298_082 y) (fmul c408_583 cr)) c256) c222_921
    g := fadd
      (fdiv (fsub (fsub (fmul c298_082 y) (fmul c100_291 cb)) (fmul c208_120 cr)) c256) c135_576
    b := fsub (fdiv (fadd (fmul c298_082 y) (fmul c516_412 cb)) c256) c276_836
    y := y
    cb := cb
    cr := cr }

/-- The pixel that three supplied components and a legal format tag make (R92, R130): tag 0 is RGB. -/
def pixelOf (fmt : Nat) (c1 c2 c3 : F32) : Pixel :=
  if fmt = 0 then pixelOfRgb c1 c2 c3 else pixelOfYcc c1 c2 c3

/-- The components in the order in which they are written (R134). -/
def Pixel.components (x : Pixel) : List F32 := [x.r, x.g, x.b, x.y, x.cb, x.cr]

/-- The six writes of pixel `p`, component j at DST + j·PLANE + 4p (R134). -/
def storePixel (dst plane p : Nat) (x : Pixel) : List Host.Cell :=
  (List.range 6).flatMap fun j => stF (componentAddr dst plane j p) (x.components.getD j fZero)

/-- Pixel `p`: three reads, then six writes (R134). -/
def convertPixel (fmt src dst plane p : Nat) (m : Dmem) : List Host.Cell :=
  storePixel dst plane p
    (pixelOf fmt (m.ldF (componentAddr src plane 0 p)) (m.ldF (componentAddr src plane 1 p))
      (m.ldF (componentAddr src plane 2 p)))

/-- CSC's checks in their order (R134, R262). -/
def cscChecks (fmt : Nat) (a : Arch) : List Check :=
  let r := a.regs
  let len := 4 * r.count.toNat
  [⟨decide (fmt ≠ 0 ∧ fmt ≠ 1), .invalidFormat, fmt⟩,
   checkAlign r.src.toNat 1, checkAlign r.dst.toNat 2, checkAlign r.plane.toNat 4] ++
  (List.range 3).map (fun k => checkSpan a.dmem (componentAddr r.src.toNat r.plane.toNat k 0) len 1) ++
  (List.range 6).map (fun j => checkSpan a.dmem (componentAddr r.dst.toNat r.plane.toNat j 0) len 2)

/-- The writes of CSC: the pixels in ascending order, each finished before the next is read (R134). -/
def cscWrites (fmt : Nat) (a : Arch) : List Host.Cell :=
  inSequence (convertPixel fmt a.regs.src.toNat a.regs.dst.toNat a.regs.plane.toNat)
    (List.range a.regs.count.toNat) a.dmem

/-- Exec of CSC (R134). -/
def cscResult (fmt : Nat) (a : Arch) : Result :=
  checked (cscChecks fmt a) fun _ => { effects := { writes := cscWrites fmt a } }

/-- CSC (R134). -/
def execCsc (fmt : Nat) (s : State) : Host.Outcome State Fault Refusal :=
  .next (s.complete (cscResult fmt s.operands))

end Sys2Proof.Machine
end

