-- ==== Sys2Proof/Machine/Control.lean ====
section
/-! DEFINITION. NOP (40_command_model.md R117) and what a word that is no command does (30_encoding.md R95, R97). -/

namespace Sys2Proof.Machine

/-- A command that writes nothing and reports no error (R117). -/
def nopResult : Result := {}

/-- NOP (R117): the completion and nothing else. -/
def execNop (s : State) : Host.Outcome State Fault Refusal := .next (s.complete nopResult)

/-- Exec of a word that matches no row of the opcode map: ILLEGAL_CMD(0), nothing written (R95, R97, R119). -/
def illegalResult : Result := { error := some (.illegalCmd, 0) }

/-- The completion of a word that is no command (R95, R119). -/
def execIllegal (s : State) : Host.Outcome State Fault Refusal := .next (s.complete illegalResult)

end Sys2Proof.Machine
end

