-- ==== Sys2Proof/Machine/BitBuffer.lean ====
section
/-! DEFINITION. The bit buffer: BBRST, BBADD, BBFIN (45_bitbuffer.md R240 to R246). -/

namespace Sys2Proof.Machine

/-- BBReset(d) (R240). -/
def BitBuf.openAt (d : Word) : BitBuf := ⟨d, 0, 0, true, 0⟩

/-- One bit appended: it enters ACC below the pending bits, and a completed byte is written at once (R241). -/
def BitBuf.appendBit (b : BitBuf) (bit : Bool) : BitBuf × List Host.Cell :=
  let acc := b.acc ||| ((BitVec.ofBool bit).setWidth 8 <<< (7 - b.fill.toNat))
  if b.fill.toNat + 1 = 8 then
    ({ b with ptr := b.ptr + 1, acc := 0, fill := 0 }, [(b.ptr.toNat, acc)])
  else ({ b with acc := acc, fill := b.fill + 1 }, [])

/-- Bits appended in their order, with the bytes they complete (R241). -/
def BitBuf.appendBits (b : BitBuf) : List Bool → BitBuf × List Host.Cell
  | [] => (b, [])
  | x :: xs =>
    let p := b.appendBit x
    let q := BitBuf.appendBits p.1 xs
    (q.1, p.2 ++ q.2)

/-- BBAppend(pattern, L): the L low bits, most significant first; BBTOT counts them modulo 2^64 (R241). -/
def BitBuf.append (b : BitBuf) (pat len : Nat) : BitBuf × List Host.Cell :=
  let p := b.appendBits (patternBits pat len)
  ({ p.1 with tot := b.tot + BitVec.ofNat 64 len }, p.2)

/-- BBFlush, but for BITCNT: the partial byte is written, its low bits 0, and the stream is closed (R242). -/
def BitBuf.flush (b : BitBuf) : BitBuf × List Host.Cell :=
  if b.fill = 0 then ({ b with isOpen := false }, [])
  else ({ b with ptr := b.ptr + 1, acc := 0, fill := 0, isOpen := false }, [(b.ptr.toNat, b.acc)])

/-- Exec of BBRST (R243). -/
def bbrstResult (a : Arch) : Result := { effects := { bb := some (BitBuf.openAt a.regs.dst) } }

/-- BBRST (R243). -/
def execBbrst (s : State) : Host.Outcome State Fault Refusal :=
  .next (s.complete (bbrstResult s.operands))

/-- BBADD's checks in their order (R244, R262). -/
def bbaddChecks (len : Nat) (a : Arch) : List Check :=
  let b := a.regs.bb
  [⟨decide (Config.codeMax < len), .illegalCmd, 0⟩, ⟨!b.isOpen, .precondition, 4⟩,
   checkSpan a.dmem b.ptr.toNat ((b.fill.toNat + len) / 8) 2]

/-- Exec of BBADD (R244). -/
def bbaddResult (len : Nat) (a : Arch) : Result :=
  checked (bbaddChecks len a) fun _ =>
    let p := a.regs.bb.append a.regs.arg0.toNat len
    { effects := { writes := p.2, bb := some p.1 } }

/-- BBADD (R244). -/
def execBbadd (len : Nat) (s : State) : Host.Outcome State Fault Refusal :=
  .next (s.complete (bbaddResult len s.operands))

/-- BBFIN's checks in their order (R245, R262). -/
def bbfinChecks (a : Arch) : List Check :=
  let b := a.regs.bb
  [⟨!b.isOpen, .precondition, 4⟩,
   checkSpan a.dmem b.ptr.toNat (if b.fill = 0 then 0 else 1) 2]

/-- Exec of BBFIN (R242, R245). -/
def bbfinResult (a : Arch) : Result :=
  checked (bbfinChecks a) fun _ =>
    let b := a.regs.bb
    let p := b.flush
    { effects := { writes := p.2, bb := some p.1, bitcnt := some b.tot } }

/-- BBFIN (R245). -/
def execBbfin (s : State) : Host.Outcome State Fault Refusal :=
  .next (s.complete (bbfinResult s.operands))

end Sys2Proof.Machine
end

