-- ==== Sys2Proof/Machine/Huffman.lean ====
section
/-! DEFINITION. The Huffman tree encoder and the table-probe decoder, HENC and HDEC (44_huffman.md R200 to R222). -/

namespace Sys2Proof.Machine

/-- A Huffman tree: a leaf with its byte value, or an internal node with its left and right child (R203). -/
inductive HuffTree where
  | leaf (b : Nat)
  | node (left right : HuffTree)
  deriving DecidableEq, Repr

/-- A node of the node set: its weight, its key and the tree below it (R202). -/
structure HuffNode where
  weight : Nat
  key : Nat
  tree : HuffTree
  deriving DecidableEq, Repr

/-- A code of a byte: pattern and length (R200); length 0 stands for no code (R210). -/
structure Code where
  pat : Nat
  len : Nat
  deriving DecidableEq, Repr

/-- freq[b] (R201). -/
def freqOf (bs : List Byte) (b : Nat) : Nat := bs.count (BitVec.ofNat 8 b)

/-- The order of the nodes: by weight, and among equal weights by key (R202). -/
def HuffNode.before (a b : HuffNode) : Bool :=
  decide (a.weight < b.weight) || (decide (a.weight = b.weight) && decide (a.key < b.key))

/-- A node put in its place in a list kept in the order of R202. -/
def insertNode (x : HuffNode) : List HuffNode → List HuffNode
  | [] => [x]
  | y :: ys => if x.before y then x :: y :: ys else y :: insertNode x ys

/-- The initial node set, in order: one leaf per byte value that occurs (R202). -/
def leafNodes (bs : List Byte) : List HuffNode :=
  ((List.range 256).filter fun b => freqOf bs b ≠ 0).foldl
    (fun ns b => insertNode ⟨freqOf bs b, b, .leaf b⟩ ns) []

/-- The merges of the two least nodes, the k-th new node with key 256 + k, until one is left (R203). The list is in order, so the least two stand first; `fuel` is at least the number of nodes. -/
def mergeNodes : Nat → Nat → List HuffNode → Option HuffTree
  | _, _, [] => none
  | _, _, [x] => some x.tree
  | 0, _, _ :: _ :: _ => none
  | fuel + 1, k, x :: y :: rest =>
    mergeNodes fuel (k + 1)
      (insertNode ⟨x.weight + y.weight, 256 + k, .node x.tree y.tree⟩ rest)

/-- The codes of the leaves below a node reached by the path `c`: a left edge appends 1, a right edge 0 (R204). -/
def treeCodes : HuffTree → Code → List (Nat × Code)
  | .leaf b, c => [(b, c)]
  | .node l r, c => treeCodes l ⟨2 * c.pat + 1, c.len + 1⟩ ++ treeCodes r ⟨2 * c.pat, c.len + 1⟩

/-- The code of every byte value that occurs (R203 to R206): one distinct byte has the code (0, 1), no byte has none. -/
def huffmanCodes (bs : List Byte) : List (Nat × Code) :=
  let ns := leafNodes bs
  match mergeNodes ns.length 0 ns with
  | none => []
  | some (.leaf b) => [(b, ⟨0, 1⟩)]
  | some t => treeCodes t ⟨0, 0⟩

/-- The code of a byte value, (0, 0) if it has none (R210). -/
def codeOf (cs : List (Nat × Code)) (b : Nat) : Code := (cs.lookup b).getD ⟨0, 0⟩

/-- The byte values that have a code, ascending (R211). -/
def codedBytes (cs : List (Nat × Code)) : List Nat :=
  (List.range 256).filter fun b => (codeOf cs b).len ≠ 0

/-- The smallest byte value whose code is longer than CODE_MAX (R207). -/
def overlongByte (cs : List (Nat × Code)) : Option Nat :=
  (List.range 256).find? fun b => decide (Config.codeMax < (codeOf cs b).len)

/-- The exact bit count Σ freq[b]·length(b) (R212). -/
def totalBits (bs : List Byte) (cs : List (Nat × Code)) : Nat :=
  ((List.range 256).map fun b => freqOf bs b * (codeOf cs b).len).sum

/-- ETAB as HENC fills it (R211). -/
def etabOf (cs : List (Nat × Code)) : Vector EtabEntry 256 :=
  tableOf fun b => ⟨BitVec.ofNat 32 (codeOf cs b).pat, BitVec.ofNat 6 (codeOf cs b).len⟩

/-- The DTAB entry of a byte value that has a code (R211). -/
def dtabEntryOf (cs : List (Nat × Code)) (b : Nat) : DtabEntry :=
  ⟨BitVec.ofNat 32 (codeOf cs b).pat, BitVec.ofNat 6 (codeOf cs b).len, BitVec.ofNat 8 b⟩

/-- DTAB as HENC fills it: the coded bytes ascending, the rest 0 (R211). -/
def dtabOf (cs : List (Nat × Code)) : Vector DtabEntry 256 :=
  let es := (codedBytes cs).map (dtabEntryOf cs)
  tableOf fun i => es.getD i ⟨0, 0, 0⟩

/-- The longest code length, 0 if there is none (R211). -/
def maxLenOf (cs : List (Nat × Code)) : Nat :=
  (codedBytes cs).foldl (fun m b => max m (codeOf cs b).len) 0

/-- The codes of the input bytes appended in their order (R212). -/
def BitBuf.appendCodes (b : BitBuf) : List Code → BitBuf × List Host.Cell
  | [] => (b, [])
  | c :: cs =>
    let p := b.append c.pat c.len
    let q := BitBuf.appendCodes p.1 cs
    (q.1, p.2 ++ q.2)

/-- The payload: BBReset, BBAppend of each byte's code, BBFlush (R212). -/
def payload (dst : Word) (bs : List Byte) (cs : List (Nat × Code)) : BitBuf × List Host.Cell :=
  let p := (BitBuf.openAt dst).appendCodes (bs.map fun b => codeOf cs b.toNat)
  let q := p.1.flush
  (q.1, p.2 ++ q.2)

/-- The COUNT input bytes at SRC (R201). -/
def hencInput (a : Arch) : List Byte :=
  (List.range a.regs.count.toNat).map fun p => a.dmem.byte (a.regs.src.toNat + p)

/-- HENC's checks after the source span, in their order (R212, R262). -/
def hencChecks (a : Arch) (bs : List Byte) (cs : List (Nat × Code)) : List Check :=
  let r := a.regs
  let len := ceil8 (totalBits bs cs)
  [⟨(overlongByte cs).isSome, .codeOverflow, (overlongByte cs).getD 0⟩,
   checkSpan a.dmem r.dst.toNat len 2,
   ⟨overlap r.src.toNat r.count.toNat r.dst.toNat len, .precondition, 5⟩]

/-- What HENC writes when its checks pass (R211, R212). -/
def hencEffects (a : Arch) (bs : List Byte) (cs : List (Nat × Code)) : Effects :=
  let p := payload a.regs.dst bs cs
  { writes := p.2
    etab := some (etabOf cs)
    dtab := some (dtabOf cs)
    dtcnt := some (BitVec.ofNat 9 (codedBytes cs).length)
    maxlen := some (BitVec.ofNat 6 (maxLenOf cs))
    bitcnt := some (BitVec.ofNat 64 (totalBits bs cs))
    bb := some p.1 }

/-- Exec of HENC (R212): the input is read, and its tree built, only when the source span is in bounds. -/
def hencResult (a : Arch) : Result :=
  checked [checkSpan a.dmem a.regs.src.toNat a.regs.count.toNat 1] fun _ =>
    let bs := hencInput a
    let cs := huffmanCodes bs
    checked (hencChecks a bs cs) fun _ => { effects := hencEffects a bs cs }

/-- HENC (R212). -/
def execHenc (s : State) : Host.Outcome State Fault Refusal :=
  .next (s.complete (hencResult s.operands))

/-- The decode table: DTAB[0..DTCNT−1] (R216). -/
def decodeTable (a : Arch) : List DtabEntry := a.dtab.toArray.toList.take a.regs.dtcnt.toNat

/-- The index of the first entry that ValidateDTAB rejects, the entries before it given in `seen`: LEN 0 or above 32, CODE ≥ 2^LEN, or the key of an earlier entry (R217). -/
def firstBadEntry : List DtabEntry → List DtabEntry → Nat → Option Nat
  | _, [], _ => none
  | seen, e :: es, i =>
    if e.len.toNat = 0 ∨ Config.codeMax < e.len.toNat then some i
    else if 2 ^ e.len.toNat ≤ e.code.toNat then some i
    else if seen.any fun d => d.code == e.code && d.len == e.len then some i
    else firstBadEntry (e :: seen) es (i + 1)

/-- ValidateDTAB (R217): the value that MALFORMED carries, if the table is unusable. -/
def malformed (a : Arch) : Option Nat :=
  if 256 < a.regs.dtcnt.toNat then some a.regs.dtcnt.toNat else firstBadEntry [] (decodeTable a) 0

/-- The largest LEN of a decode table, 0 if it is empty (R218). -/
def tableMaxLen (t : List DtabEntry) : Nat := t.foldl (fun m e => max m e.len.toNat) 0

/-- The value of the entry whose key is (pat, len) (R200, R219). -/
def probe (t : List DtabEntry) (pat len : Nat) : Option Byte :=
  (t.find? fun e => decide (e.code.toNat = pat) && decide (e.len.toNat = len)).map fun e => e.value

/-- The decoder's walk over the bits from bit `i` on, with the accumulator (pat, len) and `n` bytes written so far, `cap` the capacity: the bytes it goes on to write and the error it ends in, if any (R219). -/
def decodeBits (t : List DtabEntry) (maxlen cap : Nat) :
    List Bool → Nat → Nat → Nat → Nat → List Byte × Option (ErrCode × Nat)
  | [], i, _, len, _ => ([], if len ≠ 0 then some (.decodeMismatch, i) else none)
  | bit :: bits, i, pat, len, n =>
    let pat' := 2 * pat + bit.toNat
    let len' := len + 1
    match probe t pat' len' with
    | some v =>
      if n = cap then ([], some (.bounds, 4))
      else
        let p := decodeBits t maxlen cap bits (i + 1) 0 0 (n + 1)
        (v :: p.1, p.2)
    | none =>
      if maxlen < len' then ([], some (.decodeMismatch, i))
      else decodeBits t maxlen cap bits (i + 1) pat' len' n

/-- HDEC's checks in their order (R219, R262). DESIGN CHOICE: ValidateDTAB is run for BITCNT = 0 too, as the pseudocode of R219 has it, although its corner case says that BITCNT = 0 succeeds "whatever the table"; unsafe, log entry 16. -/
def hdecChecks (a : Arch) : List Check :=
  let r := a.regs
  let len := ceil8 r.bitcnt.toNat
  [checkSpan a.dmem r.src.toNat len 1,
   checkSpan a.dmem r.dst.toNat r.count.toNat 2,
   ⟨(malformed a).isSome, .malformed, (malformed a).getD 0⟩,
   ⟨overlap r.src.toNat len r.dst.toNat r.count.toNat, .precondition, 5⟩]

/-- The decoding of BITCNT bits at SRC (R219). The spans of payload and output do not overlap, so every bit reads as it did at launch. -/
def hdecDecode (a : Arch) : List Byte × Option (ErrCode × Nat) :=
  let r := a.regs
  let t := decodeTable a
  decodeBits t (tableMaxLen t) r.count.toNat
    ((List.range r.bitcnt.toNat).map fun k => streamBit a.dmem r.src.toNat k) 0 0 0 0

/-- Exec of HDEC (R219): the bytes decoded before an error stay written, and so does MAXLEN (R264). -/
def hdecResult (a : Arch) : Result :=
  checked (hdecChecks a) fun _ =>
    let p := hdecDecode a
    { error := p.2
      effects :=
        { writes := bytesAt a.regs.dst.toNat p.1
          maxlen := some (BitVec.ofNat 6 (tableMaxLen (decodeTable a))) } }

/-- HDEC (R219). -/
def execHdec (s : State) : Host.Outcome State Fault Refusal :=
  .next (s.complete (hdecResult s.operands))

end Sys2Proof.Machine
end

