-- ==== Sys2Proof/Machine/Quant.lean ====
section
/-! DEFINITION. The block quantizer and the zigzag sequencer, QZZ and DQZZ (43_quant_zigzag.md R180 to R186). -/

namespace Sys2Proof.Machine

/-- The rows of anti-diagonal d of an n×n block, in the order of the scan: ascending when d is odd, descending when d is even (R180). -/
def diagonalRows (n d : Nat) : List Nat :=
  let lo := d + 1 - n
  let hi := min d (n - 1)
  let rs := List.range' lo (hi + 1 - lo)
  if d % 2 = 1 then rs else rs.reverse

/-- ZZ_N, the zigzag order of the positions (r, c) of an n×n block (R180). -/
def zigzag (n : Nat) : List (Nat × Nat) :=
  (List.range (2 * n - 1)).flatMap fun d => (diagonalRows n d).map fun r => (r, d - r)

/-- Quant(F, q) = cvt_sat8(fdiv(F, q)) mod 256 (R181). -/
def quantize (f q : F32) : Byte := BitVec.ofInt 8 (cvtSat8 (fdiv f q))

/-- Dequant(b, q) = fmul(i2f(sext8(b)), q) (R181). -/
def dequantize (b : Byte) (q : F32) : F32 := fmul (i2f (sext8 b)) q

/-- The divisor matrix at QADDR, row-major (R182). -/
def divisors (m : Dmem) (qaddr n : Nat) : Matrix32 :=
  matrixOf n fun r c => m.ldF (matrixAddr qaddr n r c)

/-- The bytes of a block's coefficients: byte m is element ZZ_N[m], quantized by its divisor (R180, R183, R185). -/
def quantizeBlock (n : Nat) (q f : Matrix32) : List Byte :=
  (zigzag n).map fun rc => quantize (elemAt f rc.1 rc.2) (elemAt q rc.1 rc.2)

/-- The coefficients of a block from its bytes: element ZZ_N[m] from byte m (R184, R185). -/
def dequantizeBlock (n : Nat) (q : Matrix32) (bs : List Byte) : Matrix32 :=
  matrixOf n fun r c => dequantize (bs.getD ((zigzag n).idxOf (r, c)) 0) (elemAt q r c)

/-- The `len` bytes at address `a`. -/
def Dmem.bytes (m : Dmem) (a len : Nat) : List Byte := (List.range len).map fun i => m.byte (a + i)

/-- QZZ's checks in their order (R183, R262). -/
def qzzChecks (a : Arch) : List Check :=
  let r := a.regs
  let n := r.blkn.toNat
  let wh := r.width.toNat * r.height.toNat
  checkBlocks r ++
  [checkAlign r.src.toNat 1, checkAlign r.qaddr.toNat 3,
   checkSpan a.dmem r.src.toNat (4 * wh) 1, checkSpan a.dmem r.dst.toNat wh 2,
   checkSpan a.dmem r.qaddr.toNat (4 * n * n) 3]

/-- The writes of QZZ: block k in raster order gives the bytes k·N² to k·N² + N² − 1, by the divisors read before the first block (R182, R183, R185). -/
def qzzWrites (a : Arch) : List Host.Cell :=
  let r := a.regs
  let n := r.blkn.toNat
  let w := r.width.toNat
  let q := divisors a.dmem r.qaddr.toNat n
  eachBlock w r.height.toNat n
    (fun k br bc m =>
      bytesAt (r.dst.toNat + k * (n * n)) (quantizeBlock n q (blockLoad m r.src.toNat w n br bc)))
    a.dmem

/-- Exec of QZZ (R183). -/
def qzzResult (a : Arch) : Result :=
  checked (qzzChecks a) fun _ => { effects := { writes := qzzWrites a } }

/-- QZZ (R183). -/
def execQzz (s : State) : Host.Outcome State Fault Refusal :=
  .next (s.complete (qzzResult s.operands))

/-- DQZZ's checks in their order (R184, R262). -/
def dqzzChecks (a : Arch) : List Check :=
  let r := a.regs
  let n := r.blkn.toNat
  let wh := r.width.toNat * r.height.toNat
  checkBlocks r ++
  [checkAlign r.dst.toNat 2, checkAlign r.qaddr.toNat 3,
   checkSpan a.dmem r.src.toNat wh 1, checkSpan a.dmem r.dst.toNat (4 * wh) 2,
   checkSpan a.dmem r.qaddr.toNat (4 * n * n) 3]

/-- The writes of DQZZ (R184, R185), by the divisors read before the first block (R182). -/
def dqzzWrites (a : Arch) : List Host.Cell :=
  let r := a.regs
  let n := r.blkn.toNat
  let w := r.width.toNat
  let q := divisors a.dmem r.qaddr.toNat n
  eachBlock w r.height.toNat n
    (fun k br bc m =>
      blockStore r.dst.toNat w n br bc
        (dequantizeBlock n q (m.bytes (r.src.toNat + k * (n * n)) (n * n)))) a.dmem

/-- Exec of DQZZ (R184). -/
def dqzzResult (a : Arch) : Result :=
  checked (dqzzChecks a) fun _ => { effects := { writes := dqzzWrites a } }

/-- DQZZ (R184). -/
def execDqzz (s : State) : Host.Outcome State Fault Refusal :=
  .next (s.complete (dqzzResult s.operands))

end Sys2Proof.Machine
end

