-- ==== Sys2Proof/Machine/Transform.lean ====
section
/-! DEFINITION. The cosine table and the block transform engine, FDCT and IDCT (42_dct.md R150 to R164). -/

namespace Sys2Proof.Machine

/-- rn32(cos(k·π / (2N))) for k = 0 to N: the first quadrant of the cosine table of block size N (R150). -/
def cosQuarter : Nat → List F32
  | 1 => [0x3F800000, 0x00000000]
  | 2 => [0x3F800000, 0x3F3504F3, 0x00000000]
  | 3 => [0x3F800000, 0x3F5DB3D7, 0x3F000000, 0x00000000]
  | 4 => [0x3F800000, 0x3F6C835E, 0x3F3504F3, 0x3EC3EF15, 0x00000000]
  | 5 => [0x3F800000, 0x3F737871, 0x3F4F1BBD, 0x3F167918, 0x3E9E377A, 0x00000000]
  | 6 => [0x3F800000, 0x3F7746EA, 0x3F5DB3D7, 0x3F3504F3, 0x3F000000, 0x3E8483EE, 0x00000000]
  | 7 => [0x3F800000, 0x3F7994E0, 0x3F66A5E5, 0x3F48261C, 0x3F1F9D07, 0x3EDE2602, 0x3E63DC87,
     0x00000000]
  | 8 => [0x3F800000, 0x3F7B14BE, 0x3F6C835E, 0x3F54DB31, 0x3F3504F3, 0x3F0E39DA, 0x3EC3EF15,
     0x3E47C5C2, 0x00000000]
  | 9 => [0x3F800000, 0x3F7C1C5C, 0x3F708FB2, 0x3F5DB3D7, 0x3F441B7D, 0x3F248DBB, 0x3F000000,
     0x3EAF1D44, 0x3E31D0D4, 0x00000000]
  | 10 => [0x3F800000, 0x3F7CD925, 0x3F737871, 0x3F641901, 0x3F4F1BBD, 0x3F3504F3, 0x3F167918,
     0x3EE87171, 0x3E9E377A, 0x3E20305B, 0x00000000]
  | 11 => [0x3F800000, 0x3F7D64F0, 0x3F75A155, 0x3F68DDA4, 0x3F575C64, 0x3F4178CE, 0x3F27A4F4,
     0x3F0A6770, 0x3ED4B147, 0x3E903F40, 0x3E11BAFB, 0x00000000]
  | 12 => [0x3F800000, 0x3F7DCF55, 0x3F7746EA, 0x3F6C835E, 0x3F5DB3D7, 0x3F4B1934, 0x3F3504F3,
     0x3F1BD7CA, 0x3F000000, 0x3EC3EF15, 0x3E8483EE, 0x3E05A8A8, 0x00000000]
  | 13 => [0x3F800000, 0x3F7E222B, 0x3F788FA5, 0x3F6F5D39, 0x3F62AD3F, 0x3F52AF12, 0x3F3F9E67,
     0x3F29C268, 0x3F116CB1, 0x3EEDF032, 0x3EB58EC6, 0x3E750F2A, 0x3DF6DBEF, 0x00000000]
  | 14 => [0x3F800000, 0x3F7E63EC, 0x3F7994E0, 0x3F71A257, 0x3F66A5E5, 0x3F58C2EB, 0x3F48261C,
     0x3F3504F3, 0x3F1F9D07, 0x3F083341, 0x3EDE2602, 0x3EA91A56, 0x3E63DC87, 0x3DE54DA2,
     0x00000000]
  | 15 => [0x3F800000, 0x3F7E98FD, 0x3F7A67E2, 0x3F737871, 0x3F69DE1D, 0x3F5DB3D7, 0x3F4F1BBD,
     0x3F3E3EBD, 0x3F2B4C25, 0x3F167918, 0x3F000000, 0x3ED03FC9, 0x3E9E377A, 0x3E54E6CD,
     0x3DD61305, 0x00000000]
  | 16 => [0x3F800000, 0x3F7EC46D, 0x3F7B14BE, 0x3F74FA0B, 0x3F6C835E, 0x3F61C598, 0x3F54DB31,
     0x3F45E403, 0x3F3504F3, 0x3F226799, 0x3F0E39DA, 0x3EF15AEA, 0x3EC3EF15, 0x3E94A031,
     0x3E47C5C2, 0x3DC8BD36, 0x00000000]
  | _ => []

/-- T_N[x][u] = rn32(cos((2x+1)·u·π / (2N))) (R150), from the first quadrant by the cosine's symmetries; an exact zero is +0.0. -/
def cosEntry (n x u : Nat) : F32 :=
  let k := (2 * x + 1) * u % (4 * n)
  let q := cosQuarter n
  if k ≤ n then q.getD k fZero
  else if k ≤ 2 * n then fneg (q.getD (2 * n - k) fZero)
  else if k < 3 * n then fneg (q.getD (k - 2 * n) fZero)
  else q.getD (4 * n - k) fZero

/-- A word of the CTAB window: the entry, where N is legal and x, u are below it, and 0 elsewhere (R44). -/
def ctabRead (blkn : BitVec 5) (x u : Nat) : Word :=
  let n := blkn.toNat
  if n ≤ Config.nMax ∧ x < n ∧ u < n then cosEntry n x u else 0

/-- The table T_N as a matrix, row x, column u (R150). -/
def cosTable (n : Nat) : Matrix32 := matrixOf n (cosEntry n)

/-- C0 = rn32(1/√2) (R151). -/
def cZero : F32 := 0x3F3504F3

/-- Cf(k): C0 for k = 0, 1.0 above (R151). -/
def cf (k : Nat) : F32 := if k = 0 then cZero else fOne

/-- K_N = rn32(2/N) (R152). -/
def scaleOf (n : Nat) : F32 := rn32 false 2 n

/-- The sum of g 0, …, g (n−1) from +0.0, in ascending order (R157, R158). -/
def fsum (n : Nat) (g : Nat → F32) : F32 := (List.range n).foldl (fun s k => fadd s (g k)) fZero

/-- The sum of g i j over all i, j < n from +0.0, i outermost, in one chain (R157, R161). -/
def fsum2 (n : Nat) (g : Nat → Nat → F32) : F32 :=
  (List.range n).foldl (fun s i => (List.range n).foldl (fun s j => fadd s (g i j)) s) fZero

/-- FWD_D: the forward kernel, Direct (R157). -/
def fwdDirect (n : Nat) (t f : Matrix32) : Matrix32 :=
  matrixOf n fun u v =>
    fmul (fmul (fmul (scaleOf n) (cf u)) (cf v))
      (fsum2 n fun i j => fmul (fmul (elemAt f i j) (elemAt t i u)) (elemAt t j v))

/-- The first pass of FWD_S: along each row, with C(v) (R158). -/
def fwdRows (n : Nat) (t f : Matrix32) : Matrix32 :=
  matrixOf n fun i v => fmul (cf v) (fsum n fun j => fmul (elemAt f i j) (elemAt t j v))

/-- The second pass of FWD_S: along each column, with K_N·C(u) (R158). -/
def fwdColumns (n : Nat) (t g : Matrix32) : Matrix32 :=
  matrixOf n fun u v =>
    fmul (fmul (scaleOf n) (cf u)) (fsum n fun i => fmul (elemAt g i v) (elemAt t i u))

/-- FWD_S: the forward kernel, Separable (R158). -/
def fwdSeparable (n : Nat) (t f : Matrix32) : Matrix32 := fwdColumns n t (fwdRows n t f)

/-- INV_D: the inverse kernel, Direct (R161). -/
def invDirect (n : Nat) (t f : Matrix32) : Matrix32 :=
  matrixOf n fun i j =>
    fmul (scaleOf n)
      (fsum2 n fun u v =>
        fmul (fmul (fmul (fmul (cf u) (cf v)) (elemAt f u v)) (elemAt t i u)) (elemAt t j v))

/-- The first pass of INV_S: over u, with C(u) (R162). -/
def invColumns (n : Nat) (t f : Matrix32) : Matrix32 :=
  matrixOf n fun i v => fsum n fun u => fmul (fmul (cf u) (elemAt f u v)) (elemAt t i u)

/-- The second pass of INV_S: over v, with C(v), then K_N (R162). -/
def invRows (n : Nat) (t h : Matrix32) : Matrix32 :=
  matrixOf n fun i j =>
    fmul (scaleOf n) (fsum n fun v => fmul (fmul (cf v) (elemAt h i v)) (elemAt t j v))

/-- INV_S: the inverse kernel, Separable (R162). -/
def invSeparable (n : Nat) (t f : Matrix32) : Matrix32 := invRows n t (invColumns n t f)

/-- The forward transform of a block: the level shift, then the kernel that S selects (R153, R160). -/
def forwardBlock (n : Nat) (sep : Bool) (bias : F32) (b : Matrix32) : Matrix32 :=
  let f := matrixOf n fun i j => fsub (elemAt b i j) bias
  if sep then fwdSeparable n (cosTable n) f else fwdDirect n (cosTable n) f

/-- The inverse transform of a block: the kernel that S selects, then the level shift back (R153, R163). -/
def inverseBlock (n : Nat) (sep : Bool) (bias : F32) (b : Matrix32) : Matrix32 :=
  let g := if sep then invSeparable n (cosTable n) b else invDirect n (cosTable n) b
  matrixOf n fun i j => fadd (elemAt g i j) bias

/-- The checks of FDCT and IDCT in their order (R160, R163, R262). -/
def transformChecks (a : Arch) : List Check :=
  let r := a.regs
  let len := 4 * r.width.toNat * r.height.toNat
  checkBlocks r ++
  [checkAlign r.src.toNat 1, checkAlign r.dst.toNat 2,
   checkSpan a.dmem r.src.toNat len 1, checkSpan a.dmem r.dst.toNat len 2]

/-- The writes of a transform of a plane by a block transform `f`: block by block in raster order, each read whole, then written whole (R154, R160, R163). -/
def transformWrites (f : Matrix32 → Matrix32) (a : Arch) : List Host.Cell :=
  let r := a.regs
  let n := r.blkn.toNat
  let w := r.width.toNat
  eachBlock w r.height.toNat n
    (fun _ br bc m =>
      blockStore r.dst.toNat w n br bc (f (blockLoad m r.src.toNat w n br bc))) a.dmem

/-- Exec of FDCT (R160). -/
def fdctResult (sep : Bool) (a : Arch) : Result :=
  checked (transformChecks a) fun _ =>
    { effects := { writes := transformWrites (forwardBlock a.regs.blkn.toNat sep a.regs.bias) a } }

/-- FDCT (R160). -/
def execFdct (sep : Bool) (s : State) : Host.Outcome State Fault Refusal :=
  .next (s.complete (fdctResult sep s.operands))

/-- Exec of IDCT (R163). -/
def idctResult (sep : Bool) (a : Arch) : Result :=
  checked (transformChecks a) fun _ =>
    { effects := { writes := transformWrites (inverseBlock a.regs.blkn.toNat sep a.regs.bias) a } }

/-- IDCT (R163). -/
def execIdct (sep : Bool) (s : State) : Host.Outcome State Fault Refusal :=
  .next (s.complete (idctResult sep s.operands))

end Sys2Proof.Machine
end

