-- ==== Sys2Proof/Machine/Exec.lean ====
section
/-! DEFINITION. Exec(w, pre): what a launched word does to the state at its launch (40_command_model.md R119). -/

namespace Sys2Proof.Machine

/-- Exec of a command (R119). -/
def resultOf : Instr → Arch → Result
  | .nop, _ => nopResult
  | .csc fmt, a => cscResult fmt a
  | .fdct sep, a => fdctResult sep a
  | .idct sep, a => idctResult sep a
  | .qzz, a => qzzResult a
  | .dqzz, a => dqzzResult a
  | .henc, a => hencResult a
  | .hdec, a => hdecResult a
  | .bbrst, a => bbrstResult a
  | .bbadd len, a => bbaddResult len a
  | .bbfin, a => bbfinResult a

/-- Exec(w, pre) (R119): a word that is no command is ILLEGAL_CMD. -/
def execWord (w : Word) (a : Arch) : Result :=
  match decode w with
  | .ok i => resultOf i a
  | .error _ => illegalResult

end Sys2Proof.Machine
end

