-- ==== Sys2Proof/Machine/Dispatch.lean ====
section
/-! DEFINITION. The meaning of every command, one arm per constructor. -/

namespace Sys2Proof.Machine

/-- What completing a command does: its Exec, applied to the state (40_command_model.md R112, R119). -/
def exec (i : Instr) (s : State) : Host.Outcome State Fault Refusal :=
  match i with
  | .nop => Sys2Proof.Machine.execNop s
  | .csc fmt => Sys2Proof.Machine.execCsc fmt s
  | .fdct sep => Sys2Proof.Machine.execFdct sep s
  | .idct sep => Sys2Proof.Machine.execIdct sep s
  | .qzz => Sys2Proof.Machine.execQzz s
  | .dqzz => Sys2Proof.Machine.execDqzz s
  | .henc => Sys2Proof.Machine.execHenc s
  | .hdec => Sys2Proof.Machine.execHdec s
  | .bbrst => Sys2Proof.Machine.execBbrst s
  | .bbadd len => Sys2Proof.Machine.execBbadd len s
  | .bbfin => Sys2Proof.Machine.execBbfin s

end Sys2Proof.Machine
end

