-- ==== Sys2Proof/Machine/HostPort.lean ====
section
/-! DEFINITION. The host port: reads, writes and soft reset (20_memory.md R62 to R73, 10_state.md R24 to R44, 70_reset_and_hazards.md R292, R293). -/

namespace Sys2Proof.Machine

/-- The host offset at which the DMEM aperture begins (R68). -/
def apertureBase : Nat := 0x10000

/-- A supported access to the register block: 32 bits wide at a multiple of 4 (R62). -/
def supportedRegister (off width : Nat) : Bool := decide (width = 32) && decide (off % 4 = 0)

/-- A supported access to DMEM address `a`: 8, 16 or 32 bits, aligned to its size, inside DMEM (R63, R64). -/
def supportedDmem (m : Dmem) (a width : Nat) : Bool :=
  (decide (width = 8) || decide (width = 16) || decide (width = 32)) &&
    decide (a % (width / 8) = 0) && decide (a + width / 8 ≤ m.size)

/-- The DMEM bytes the command in flight would have written hold draws, and nothing is in flight (R293). -/
def State.abandon (s : State) : State :=
  match s.inFlight with
  | none => s
  | some f =>
    { s with
      dmem := s.dmem.setBytes
        ((execWord f.cmdword f.pre).effects.writes.map fun c => (c.1, Config.abortByte s.aborts c.1))
      inFlight := none
      aborts := s.aborts + 1 }

/-- Soft reset (R292, R293). -/
def State.softReset (s : State) : State := s.abandon.resetTo s.abandon.dmem

/-- A host access dropped because a command is in flight (R73). -/
def State.dropAccess (s : State) : State := { s with regs := setWerr s.regs }

/-- A host write to CTRL: bit 1 resets, and then the other bits are discarded; otherwise bit 0 is IE (R26, R292). -/
def writeCtrl (v : Word) (s : State) : State :=
  if v.getLsbD 1 then s.softReset else { s with regs := { s.regs with ie := v.getLsbD 0 } }

/-- A host write of `v` to a word of the register block. While a command is in flight CTRL and STATUS take it, reserved offsets ignore it, and everything else drops it with WERR (R73). -/
def writeWord (v : Word) (s : State) : Region → State
  | .reg .ctrl => writeCtrl v s
  | .reg .status => { s with regs := writeStatus s.regs v }
  | .reg .cmd => if s.regs.busy then s.dropAccess else s.launch v
  | .reg r => if s.regs.busy then s.dropAccess else { s with regs := regStore s.regs v r }
  | .reserved => s
  | .etab _ _ => if s.regs.busy then s.dropAccess else s
  | .dtab i word =>
    if s.regs.busy then s.dropAccess else { s with dtab := dtabStore s.dtab i word v }
  | .ctab _ _ => if s.regs.busy then s.dropAccess else s

/-- What a host read of a word of the register block returns. While a command is in flight registers read as they are and the windows read 0 (R73). -/
def readWord (s : State) : Region → Word
  | .reg r => regRead s.regs r
  | .reserved => 0
  | .etab b word => if s.regs.busy then 0 else etabRead s.etab b word
  | .dtab i word => if s.regs.busy then 0 else dtabRead s.dtab i word
  | .ctab x u => if s.regs.busy then 0 else ctabRead s.regs.blkn x u

/-- The state after a host read of a word of the register block: unchanged, but that a read of a window while a command is in flight sets WERR (R67, R73). -/
def afterRead (s : State) : Region → State
  | .reg _ => s
  | .reserved => s
  | .etab _ _ => if s.regs.busy then s.dropAccess else s
  | .dtab _ _ => if s.regs.busy then s.dropAccess else s
  | .ctab _ _ => if s.regs.busy then s.dropAccess else s

/-- HostWrite(off, width, v) (R297). -/
def hostWrite (off width : Nat) (v : Word) (s : State) : Host.Outcome State Fault Refusal :=
  if off < apertureBase then
    if supportedRegister off width then .next (writeWord v s (regionOf off))
    else .fault .hostBusError
  else if supportedDmem s.dmem (off - apertureBase) width then
    .next
      (if s.regs.busy then s.dropAccess
       else
        { s with
          dmem := s.dmem.setBytes (memWrites (off - apertureBase) (width / 8) v.toNat) })
  else .fault .hostBusError

/-- HostRead(off, width) (R297): the value returned is kept in `hostData`. -/
def hostRead (off width : Nat) (s : State) : Host.Outcome State Fault Refusal :=
  if off < apertureBase then
    if supportedRegister off width then
      .next { afterRead s (regionOf off) with hostData := readWord s (regionOf off) }
    else .fault .hostBusError
  else if supportedDmem s.dmem (off - apertureBase) width then
    .next
      (if s.regs.busy then { s.dropAccess with hostData := 0 }
       else
        { s with
          hostData := BitVec.ofNat 32 (s.dmem.read (off - apertureBase) (width / 8)) })
  else .fault .hostBusError

/-- One access through the host port. -/
def hostAccess : HostAccess → State → Host.Outcome State Fault Refusal
  | .write off width v, s => hostWrite off width v s
  | .read off width, s => hostRead off width s

end Sys2Proof.Machine
end

