-- ==== Sys2Proof/Machine/HostProgram.lean ====
section
/-! DEFINITION. The host as an agent that executes a host program, one line a step (30_encoding.md R101), and the pseudo-instructions (R102). -/

namespace Sys2Proof.Machine

/-- The value assigned to a host variable, if it has been assigned. -/
def varAt : List (HostVar × Int) → HostVar → Option Int
  | [], _ => none
  | (y, v) :: rest, x => if y = x then some v else varAt rest x

/-- The variables with one assigned, names still rising. -/
def setVarIn : List (HostVar × Int) → HostVar → Int → List (HostVar × Int)
  | [], x, v => [(x, v)]
  | (y, u) :: rest, x, v =>
    if x < y then (x, v) :: (y, u) :: rest
    else if x = y then (x, v) :: rest
    else (y, u) :: setVarIn rest x v

/-- The value of an expression over the host variables (R101); a variable never assigned reads as a free value. -/
def evalExpr (vs : List (HostVar × Int)) : HostExpr → Int
  | .const v => v
  | .var x => (varAt vs x).getD (Config.unsetHostVar x)
  | .add a b => evalExpr vs a + evalExpr vs b
  | .sub a b => evalExpr vs a - evalExpr vs b
  | .mul a b => evalExpr vs a * evalExpr vs b
  | .bit e k => evalExpr vs e / 2 ^ k % 2

/-- Whether a condition holds (R101). -/
def evalCond (vs : List (HostVar × Int)) : HostCond → Bool
  | .eq a b => decide (evalExpr vs a = evalExpr vs b)
  | .ne a b => decide (evalExpr vs a ≠ evalExpr vs b)
  | .lt a b => decide (evalExpr vs a < evalExpr vs b)
  | .le a b => decide (evalExpr vs a ≤ evalExpr vs b)

/-- The host offset `base + stride·i` of the entry with index `i`; a negative index names none. -/
def indexed (base stride : Nat) (i : Int) : Option Nat :=
  if i < 0 then none else some (base + stride * i.toNat)

/-- The host offset that a `wr` or `rd` line names (R101, R42 to R44). DESIGN CHOICE, log entry 8, unsafe for a host program meant otherwise: R101 gives an entry index outside its window no meaning; here a negative index, of CTAB either one, names no place, and one past the end names whatever stands at the offset that R42, R43 or R44 computes from it, so that CTAB[0][16] is CTAB[1][0]. -/
def locOffset (vs : List (HostVar × Int)) : HostLoc → Option Nat
  | .reg r => some r.offset
  | .etabCode b => indexed 0x800 8 (evalExpr vs b)
  | .etabLen b => indexed 0x804 8 (evalExpr vs b)
  | .dtabCode i => indexed 0x1000 16 (evalExpr vs i)
  | .dtabLen i => indexed 0x1004 16 (evalExpr vs i)
  | .dtabValue i => indexed 0x1008 16 (evalExpr vs i)
  | .ctab x u => (indexed 0x2000 64 (evalExpr vs x)).bind fun row => indexed row 4 (evalExpr vs u)

/-- The state with a host variable assigned. -/
def State.setVar (s : State) (x : HostVar) (v : Int) : State :=
  { s with vars := setVarIn s.vars x v }

/-- The state with the host at its next line. -/
def State.nextLine (s : State) : State := { s with progPos := s.progPos + 1 }

/-- The outcome of an access, and where it succeeds a change of the host's own data after it. -/
def thenHost (o : Host.Outcome State Fault Refusal) (f : State → State) :
    Host.Outcome State Fault Refusal :=
  match o with
  | .next s => .next (f s)
  | .fault r => .fault r
  | .refused r => .refused r

/-- A host write at an offset, if there is one; none is no place of JPC's, and so a bus error (R64). -/
def writeAt (off : Option Nat) (width : Nat) (v : Int) (s : State) :
    Host.Outcome State Fault Refusal :=
  match off with
  | some o => hostWrite o width (BitVec.ofInt 32 v) s
  | none => .fault .hostBusError

/-- A host read at an offset into a host variable. -/
def readAt (off : Option Nat) (width : Nat) (t : HostVar) (s : State) :
    Host.Outcome State Fault Refusal :=
  match off with
  | some o => thenHost (hostRead o width s) fun s' => s'.setVar t s'.hostData.toNat
  | none => .fault .hostBusError

/-- The host goes on at the line that defines a label. -/
def gotoLabel (l : Nat) (s : State) : Host.Outcome State Fault Refusal :=
  match s.prog.findIdx? (fun x => x == .label l) with
  | some p => .next { s with progPos := p }
  | none => .refused (.hostLabelMissing l)

/-- The host executes one line (R101). -/
def hostLine (l : HostLine) (s : State) : Host.Outcome State Fault Refusal :=
  match l with
  | .wr loc v => thenHost (writeAt (locOffset s.vars loc) 32 (evalExpr s.vars v) s) State.nextLine
  | .rd loc t => thenHost (readAt (locOffset s.vars loc) 32 t s) State.nextLine
  | .store width a v =>
    thenHost (writeAt (indexed apertureBase 1 (evalExpr s.vars a)) width (evalExpr s.vars v) s)
      State.nextLine
  | .load width a t =>
    thenHost (readAt (indexed apertureBase 1 (evalExpr s.vars a)) width t s) State.nextLine
  | .set t e => .next (s.setVar t (evalExpr s.vars e)).nextLine
  | .label _ => .next s.nextLine
  | .goto l => gotoLabel l s
  | .ifGoto c l => if evalCond s.vars c then gotoLabel l s else .next s.nextLine

/-- The host executes the next line of its program; with no line left it does nothing (R299). -/
def hostProgramStep (s : State) : Host.Outcome State Fault Refusal :=
  match s.prog[s.progPos]? with
  | some l => hostLine l s
  | none => .next s

/-- The pseudo-instructions (R102). A label and a variable that an expansion needs are given with it; the real number of `sf` is `(-1)^neg · num / den`. DESIGN CHOICE, log entry 18, unsafe for a host program meant otherwise: R102 does not say what the `x` of `sf [a], x` may be; here it is a rational constant, known when the line is expanded, and never an expression over host variables. -/
inductive HostPseudo where
  | command (i : Instr)
  | wait (l : Nat) (t : HostVar)
  | run (i : Instr) (l : Nat) (t : HostVar)
  | ack
  | setn (n : HostExpr)
  | sf (a : HostExpr) (neg : Bool) (num den : Nat)
  | onerr (l : Nat) (t : HostVar)
  deriving DecidableEq, Repr

/-- `wr REG, v`. -/
def wrConst (r : RegName) (v : Int) : HostLine := .wr (.reg r) (.const v)

/-- `L: rd STATUS -> t ; if t[0] = 1 goto L` (R102). -/
def waitLines (l : Nat) (t : HostVar) : List HostLine :=
  [.label l, .rd (.reg .status) t, .ifGoto (.eq (.bit (.var t) 0) (.const 1)) l]

/-- The expansion of a pseudo-instruction (R102). -/
def HostPseudo.expand : HostPseudo → List HostLine
  | .command i => [wrConst .cmd (encode i).toNat]
  | .wait l t => waitLines l t
  | .run i l t => wrConst .cmd (encode i).toNat :: waitLines l t
  | .ack => [wrConst .status 0x0000000E]
  | .setn n => [.wr (.reg .cfg) n]
  | .sf a neg num den => [.store 32 a (.const (rn32 neg num den).toNat)]
  | .onerr l t => [.rd (.reg .status) t, .ifGoto (.eq (.bit (.var t) 2) (.const 1)) l]

end Sys2Proof.Machine
end

