-- ==== Sys2Proof/Machine/Engine.lean ====
section
/-! DEFINITION. The engine's step and the order of the agents' steps (40_command_model.md R112, 70_reset_and_hazards.md R297). -/

namespace Sys2Proof.Machine

/-- Complete (R112): the command in flight runs; with none in flight the engine has no step, and nothing changes. -/
def engineStep (s : State) : Host.Outcome State Fault Refusal :=
  match s.inFlight with
  | none => .next s
  | some f =>
    match decode f.cmdword with
    | .ok i => exec i s
    | .error _ => execIllegal s

/-- The step of the agent whose turn it is (R297). -/
def takeTurn (t : Turn) (s : State) : Host.Outcome State Fault Refusal :=
  match t with
  | .access a => hostAccess a s
  | .program => hostProgramStep s
  | .complete => engineStep s
  | .powerOn => .next s.powerOn

/-- One step (R297): the agent listed first moves. With nothing listed the engine completes a command in flight, and otherwise the host executes its next line. -/
def agentStep (s : State) : Host.Outcome State Fault Refusal :=
  match s.turns with
  | t :: rest => takeTurn t { s with turns := rest }
  | [] => if s.inFlight.isSome then engineStep s else hostProgramStep s

/-- The state right after the host has launched the word that the first `nbits` bits of `w` give, the engine to move next (R110). -/
def State.placeCommand (s : State) (nbits w : Nat) : State :=
  { s.launch (BitVec.ofNat 32 (w % 2 ^ nbits)) with turns := [] }

end Sys2Proof.Machine
end

