-- ==== Sys2Proof/Machine/Step.lean ====
section
/-! DEFINITION. One step of the machine, and where its next command is placed. -/

namespace Sys2Proof.Machine

/-- One step (70_reset_and_hazards.md R297). -/
def step : State → Host.Outcome State Fault Refusal := agentStep

/-- The state whose next step runs the command whose bits are `w`: JPC fetches nothing (R22, R74), so the word is launched as a host write to CMD launches it (R110), and the engine moves next. Log entry 11. -/
def State.withFetchWord (s : State) (nbits w : Nat) : State := s.placeCommand nbits w

end Sys2Proof.Machine
end

