-- ==== Sys2Proof/Safety.lean ====
section
/-! DEFINITION. The terms in which claims about the machine are made: the invariants of its state, the ends that a command can come to, the DMEM spans a command stores to, and the end of a run. -/

namespace Sys2Proof.Machine

/-- BBSTATE.ACC keeps its FILL pending bits at the top and 0 below them (R38). -/
def BitBuf.clean (b : BitBuf) : Prop := b.acc.toNat % 2 ^ (8 - b.fill.toNat) = 0

/-- An entry of ETAB is a code: LEN at most 32, CODE below 2^LEN, so that an unset entry has CODE 0 (R42, R200). -/
def EtabEntry.sound (e : EtabEntry) : Prop := e.len.toNat ≤ Config.codeMax ∧ e.code.toNat < 2 ^ e.len.toNat

/-- What always holds of the registers, tables and DMEM: DMEM is canonical, inside a legal DMEM_BYTES (R6, R9, R45); the bit buffer is clean (R38); ETAB holds codes (R42); MAXLEN is at most 32 (R35); ERRCODE is a code of R260. -/
structure Arch.Inv (a : Arch) : Prop where
  memory : a.dmem.wf
  size : Config.legalSize a.dmem.size
  bitBuffer : a.regs.bb.clean
  etab : ∀ e ∈ a.etab.toList, e.sound
  maxlen : a.regs.maxlen.toNat ≤ Config.codeMax
  errcode : a.regs.errcode.toNat ≤ 8

/-- While a command is in flight its snapshot agrees with the state in everything but CTRL.IE and STATUS.WERR, and the completion flags and error words are clear (R46, R110, R119). -/
structure InFlight.Agrees (f : InFlight) (s : State) : Prop where
  cmdword : f.cmdword = s.regs.cmd
  regs : f.pre.regs = { s.regs with ie := f.pre.regs.ie, werr := f.pre.regs.werr }
  etab : f.pre.etab = s.etab
  dtab : f.pre.dtab = s.dtab
  dmem : f.pre.dmem = s.dmem
  noDone : s.regs.done = false
  noErr : s.regs.err = false
  noCode : s.regs.errcode = 0
  noInfo : s.regs.errinfo = 0

/-- The invariant of the machine: the architectural state is sound, BUSY says whether a command is in flight (R27, R112), and a command in flight agrees with the state it was launched in. -/
structure State.Inv (s : State) : Prop where
  arch : s.toArch.Inv
  busy : s.regs.busy = s.inFlight.isSome
  snapshot : ∀ f, s.inFlight = some f → f.Agrees s

/-- The state after a completion that reports error `c` with ERRINFO `info` and wrote nothing else: OUTCNT is 0 (R113, R115, R116). -/
def State.failedWith (s : State) (c : ErrCode) (info : Nat) : State :=
  { s with
    regs :=
      { s.regs with
        busy := false, done := true, err := true, errcode := errNumber c
        errinfo := BitVec.ofNat 32 info, outcnt := 0 }
    inFlight := none }

/-- The state after a completion without error of a command that wrote only DMEM, `n` bytes of it, leaving DMEM `m` (R113, R116). -/
def State.doneWith (s : State) (m : Dmem) (n : Nat) : State :=
  { s with
    regs :=
      { s.regs with
        busy := false, done := true, errcode := 0x00, errinfo := 0, outcnt := BitVec.ofNat 32 n }
    dmem := m
    inFlight := none }

/-- Address `a` lies in one of the spans (start, length) (R13). -/
def inSpans (spans : List (Nat × Nat)) (a : Nat) : Prop := ∃ sp ∈ spans, sp.1 ≤ a ∧ a < sp.1 + sp.2

/-- The DMEM spans (start, length) that a command stores to when it completes without a failed check, from the operands at its launch (R99, R122). -/
def storedSpans : Instr → Arch → List (Nat × Nat)
  | .nop, _ => []
  | .csc _, a =>
    (List.range 6).map fun j =>
      (componentAddr a.regs.dst.toNat a.regs.plane.toNat j 0, 4 * a.regs.count.toNat)
  | .fdct _, a => [(a.regs.dst.toNat, 4 * a.regs.width.toNat * a.regs.height.toNat)]
  | .idct _, a => [(a.regs.dst.toNat, 4 * a.regs.width.toNat * a.regs.height.toNat)]
  | .qzz, a => [(a.regs.dst.toNat, a.regs.width.toNat * a.regs.height.toNat)]
  | .dqzz, a => [(a.regs.dst.toNat, 4 * a.regs.width.toNat * a.regs.height.toNat)]
  | .henc, a =>
    [(a.regs.dst.toNat, ceil8 (totalBits (hencInput a) (huffmanCodes (hencInput a))))]
  | .hdec, a => [(a.regs.dst.toNat, (hdecDecode a).1.length)]
  | .bbrst, _ => []
  | .bbadd len, a => [(a.regs.bb.ptr.toNat, (a.regs.bb.fill.toNat + len) / 8)]
  | .bbfin, a => [(a.regs.bb.ptr.toNat, if a.regs.bb.fill = 0 then 0 else 1)]

/-- Every DMEM byte outside the spans reads in `m'` as in `m`, and DMEM_BYTES and the draws are the same. -/
def Dmem.sameOutside (m m' : Dmem) (spans : List (Nat × Nat)) : Prop :=
  m'.size = m.size ∧ m'.powerOns = m.powerOns ∧ ∀ a, ¬ inSpans spans a → m'.byte a = m.byte a

/-- The bits of a sequence of codes as a stream carries them, each most significant bit first (R61, R241). -/
def codeBits (cs : List Code) : List Bool := cs.flatMap fun c => patternBits c.pat c.len

/-- The total length of a sequence of codes. -/
def codesLength (cs : List Code) : Nat := (cs.map fun c => c.len).sum

/-- Bits read most significant first as a number (R200). -/
def bitsValue (bits : List Bool) : Nat := bits.foldl (fun v b => 2 * v + b.toNat) 0

/-- The code of a DTAB entry (R43, R200). -/
def DtabEntry.asCode (e : DtabEntry) : Code := ⟨e.code.toNat, e.len.toNat⟩

/-- What ValidateDTAB asks of a decode table: every LEN from 1 to 32, every CODE below 2^LEN, no key twice (R217). -/
def tableUsable (t : List DtabEntry) : Prop :=
  (∀ e ∈ t, 1 ≤ e.len.toNat ∧ e.len.toNat ≤ 32 ∧ e.code.toNat < 2 ^ e.len.toNat) ∧
    t.Pairwise fun d e => ¬ (d.code = e.code ∧ d.len = e.len)

/-- The entries of the decode table that the decoder can emit: no shorter code of the table is a prefix of theirs (R217). -/
def reachableEntry (t : List DtabEntry) (e : DtabEntry) : Prop :=
  e ∈ t ∧ ∀ d ∈ t, d.len.toNat < e.len.toNat →
    e.code.toNat / 2 ^ (e.len.toNat - d.len.toNat) ≠ d.code.toNat

/-- No code of the table is the first `j` of the bits, for any j from 1 to `n` (R219). -/
def noMatchWithin (t : List DtabEntry) (bits : List Bool) (n : Nat) : Prop :=
  ∀ j, 1 ≤ j → j ≤ n → ∀ e ∈ t, ¬ (e.len.toNat = j ∧ e.code.toNat = bitsValue (bits.take j))

/-- The BITCNT bits that HDEC reads (R61, R216). -/
def payloadBits (a : Arch) : List Bool :=
  (List.range a.regs.bitcnt.toNat).map fun k => streamBit a.dmem a.regs.src.toNat k

/-- One BBADD after another, ARG0 written before each: the host's loop of R246. -/
def appendRun : State → List Code → Option State
  | s, [] => some s
  | s, c :: cs =>
    match exec (.bbadd c.len) { s with regs := { s.regs with arg0 := BitVec.ofNat 32 c.pat } } with
    | .next t => if t.regs.errcode = 0 then appendRun t cs else none
    | _ => none

/-- The word `r` is the exact value n/d, in units of 2^-149 and with d above 0, rounded once: an infinity of its sign exactly from halfway past the largest finite value on, otherwise a nearest finite value, and on a tie the one with an even significand (R11; log entry 12). -/
def isRounded (r : F32) (n : Int) (d : Nat) : Prop :=
  (isInf r = true ∧ fSign r = decide (n < 0) ∧ (2 ^ 25 - 1) * 2 ^ 252 * d ≤ n.natAbs) ∨
    (isFinite r = true ∧ n.natAbs < (2 ^ 25 - 1) * 2 ^ 252 * d ∧
      ∀ c : F32, isFinite c = true →
        (fToUnits r * d - n).natAbs ≤ (fToUnits c * d - n).natAbs ∧
          (fToUnits c ≠ fToUnits r →
            (fToUnits r * d - n).natAbs = (fToUnits c * d - n).natAbs → fMag r % 2 = 0))

/-- A block transformed forward and back by the two strategies given (R164). -/
def roundTripBlock (n : Nat) (sepF sepI : Bool) (bias : F32) (b : Matrix32) : Matrix32 :=
  inverseBlock n sepI bias (forwardBlock n sepF bias b)

/-- The greatest magnitude in an n×n block, in units of 2^-149. -/
def blockPeak (n : Nat) (b : Matrix32) : Nat :=
  (List.range n).foldl (fun m i => (List.range n).foldl (fun m j => max m (fUnits (elemAt b i j))) m) 0

/-- Block `g` reproduces block `b` to within RSPEC's example tolerance, 1e-3 relative to the greatest magnitude of `b` (R164). DESIGN CHOICE: R164 does not say what the tolerance is relative to; safe, log entry 17. -/
def reproduces (n : Nat) (g b : Matrix32) : Prop :=
  ∀ i < n, ∀ j < n, isFinite (elemAt g i j) = true ∧
    1000 * (fToUnits (elemAt g i j) - fToUnits (elemAt b i j)).natAbs ≤ blockPeak n b

/-- The node set before the first merge: one leaf for every byte value that occurs, weight its frequency, key its value (R202). -/
def leafSet (bs : List Byte) : List HuffNode :=
  ((List.range 256).filter fun b => freqOf bs b ≠ 0).map fun b => ⟨freqOf bs b, b, .leaf b⟩

/-- Node `a` is below node `b` in the order of R202: by weight, and among equal weights by key. -/
def HuffNode.below (a b : HuffNode) : Prop :=
  a.weight < b.weight ∨ (a.weight = b.weight ∧ a.key < b.key)

/-- `MergesTo k ns t`: from the node set `ns`, in any order, with `k` merges made before, the merges of R203 end in the tree `t`. Each merge takes the least node as left child and the least of the others as right child. -/
inductive MergesTo : Nat → List HuffNode → HuffTree → Prop where
  | root (k : Nat) (x : HuffNode) : MergesTo k [x] x.tree
  | merge (k : Nat) (ns rest : List HuffNode) (a b : HuffNode) (t : HuffTree)
      (nodes : ns.Perm (a :: b :: rest)) (least : ∀ c ∈ b :: rest, a.below c)
      (next : ∀ c ∈ rest, b.below c)
      (later : MergesTo (k + 1) (⟨a.weight + b.weight, 256 + k, .node a.tree b.tree⟩ :: rest) t) :
      MergesTo k ns t

/-- The bits on the way from the root to the leaf of byte value `b`, if it has one: 1 for a left edge, 0 for a right one (R204). -/
def HuffTree.path : HuffTree → Nat → Option (List Bool)
  | .leaf c, b => if c = b then some [] else none
  | .node l r, b =>
    match HuffTree.path l b with
    | some p => some (true :: p)
    | none => (HuffTree.path r b).map fun p => false :: p

/-- A host access of the width given at a host offset, if there is one, that JPC serves: a 32-bit one at a multiple of 4 in the register block, or an aligned one of 8, 16 or 32 bits inside DMEM (R62, R63, R64). -/
def supportedAt (size : Nat) (off : Option Nat) (width : Nat) : Prop :=
  ∃ o, off = some o ∧
    ((o < 0x10000 ∧ width = 32 ∧ o % 4 = 0) ∨
      (0x10000 ≤ o ∧ (width = 8 ∨ width = 16 ∨ width = 32) ∧ (o - 0x10000) % (width / 8) = 0 ∧
        o - 0x10000 + width / 8 ≤ size))

/-- The offset, if there is one, and the width of a host access (R297). -/
def HostAccess.place : HostAccess → Option Nat × Nat
  | .write off width _ => (some off, width)
  | .read off width => (some off, width)

/-- The offset, if there is one, and the width of the access that a line of a host program makes, if it makes one (R101). -/
def HostLine.place (vs : List (HostVar × Int)) : HostLine → Option (Option Nat × Nat)
  | .wr loc _ => some (locOffset vs loc, 32)
  | .rd loc _ => some (locOffset vs loc, 32)
  | .store width a _ => some (indexed 0x10000 1 (evalExpr vs a), width)
  | .load width a _ => some (indexed 0x10000 1 (evalExpr vs a), width)
  | .set _ _ => none
  | .label _ => none
  | .goto _ => none
  | .ifGoto _ _ => none

/-- The label that a line of a host program jumps to, if it jumps (R101). -/
def HostLine.target (vs : List (HostVar × Int)) : HostLine → Option Nat
  | .goto l => some l
  | .ifGoto c l => if evalCond vs c then some l else none
  | .wr _ _ => none
  | .rd _ _ => none
  | .store _ _ _ => none
  | .load _ _ _ => none
  | .set _ _ => none
  | .label _ => none

/-- The line that the host executes in the next step, where the next step is the host program's: its turn is listed, or nothing is listed and nothing is in flight (R101; log entries 6 and 8). -/
def State.lineToRun (s : State) : Option HostLine :=
  match s.turns with
  | .program :: _ => s.prog[s.progPos]?
  | [] => if s.inFlight.isNone then s.prog[s.progPos]? else none
  | _ => none

/-- The host has no access left to make and no command is in flight (R299). -/
def State.runEnded (s : State) : Bool :=
  s.turns.isEmpty && decide (s.prog.length ≤ s.progPos) && s.inFlight.isNone

end Sys2Proof.Machine
end

