-- ==== Sys2Proof/Certificates/Slice0/Obligations.lean ====
section
/-! DEFINITION. The statements about the machine that the provers are asked to prove, each with the rule of the spec it comes from. -/

open Sys2Proof Sys2Proof.Machine

/-! ### Encoding -/

/-- Every well-formed command's word decodes to it (30_encoding.md R90, R96, R100). -/
def Obligations.EncodeDecodeRoundTrip : Prop :=
  ∀ i : Instr, i.wf = true → decode (encode i) = .ok i

/-- A word is a command exactly when a row of the opcode map covers it, (w AND mask) = match, and then the row that covers it is the command's own and no other (30_encoding.md R96). -/
def Obligations.DecodeIsTheOpcodeMap : Prop :=
  (∀ w : Word, (∃ i, decode w = .ok i) ↔ ∃ r ∈ opRows, w &&& r.mask = r.mtch) ∧
    ∀ (w : Word) (i : Instr), decode w = .ok i →
      ∀ r ∈ opRows, (w &&& r.mask = r.mtch ↔ r.mnemonic = i.mnemonic)

/-- A word that decodes is the word of the command it decodes to, and that command is well-formed: no bit of a command word is ignored (30_encoding.md R90, R96). -/
def Obligations.DecodedWordReencodes : Prop :=
  ∀ (w : Word) (i : Instr), decode w = .ok i → i.wf = true ∧ encode i = w

/-- Words that the assembler's table gives decode to the commands it gives them for (30_encoding.md R100). -/
def Obligations.SpecWordsDecode : Prop :=
  decode 0x00000000 = .ok .nop ∧ decode 0x00000101 = .ok (.csc 1) ∧
    decode 0x00000002 = .ok (.fdct false) ∧ decode 0x00000103 = .ok (.idct true) ∧
    decode 0x00000004 = .ok .qzz ∧ decode 0x00000005 = .ok .dqzz ∧ decode 0x00000006 = .ok .henc ∧
    decode 0x00000007 = .ok .hdec ∧ decode 0x00000008 = .ok .bbrst ∧
    decode 0x00002009 = .ok (.bbadd 32) ∧ decode 0x0000000A = .ok .bbfin

/-- When the word in flight decodes, the engine's step is `exec` of the command, whether the engine moves because its turn is listed or because none is; and a command placed by `withFetchWord` runs in the very next step (40_command_model.md R112, R119). The list of turns and the placing are the model's own, log entries 6 and 11. -/
def Obligations.StepRunsDecodedCommand : Prop :=
  (∀ (s : State) (f : InFlight) (i : Instr), s.inFlight = some f → decode f.cmdword = .ok i →
    (s.turns = [] → step s = exec i s) ∧
      ∀ rest, s.turns = .complete :: rest → step s = exec i { s with turns := rest }) ∧
    ∀ (s : State) (w : Word) (i : Instr), decode w = .ok i →
      step (s.withFetchWord 32 w.toNat) = exec i (s.withFetchWord 32 w.toNat)

/-- A word in flight that no row of the opcode map covers completes with ILLEGAL_CMD(0) and has no effect but the completion; a reserved OP (0x0B to 0xFF) and a word with a reserved bit set, for its OP, are covered by no row; and 0 is the only word that is NOP (30_encoding.md R95, R97). -/
def Obligations.UndecodableWordIsIllegal : Prop :=
  (∀ (s : State) (f : InFlight), s.inFlight = some f →
    (∀ r ∈ opRows, f.cmdword &&& r.mask ≠ r.mtch) →
    engineStep s = .next (s.failedWith .illegalCmd 0)) ∧
    (∀ w : Word,
      let op := bitField w 0 8
      0x0B ≤ op ∨ bitField w 14 18 ≠ 0 ∨ (op = 0x01 ∧ bitField w 12 2 ≠ 0) ∨
          ((op = 0x02 ∨ op = 0x03) ∧ bitField w 9 5 ≠ 0) ∨
          (op ≠ 0x01 ∧ op ≠ 0x02 ∧ op ≠ 0x03 ∧ op ≠ 0x09 ∧ bitField w 8 6 ≠ 0) →
        ∀ r ∈ opRows, w &&& r.mask ≠ r.mtch) ∧
    ∀ w : Word, decode w = .ok .nop ↔ w = 0

/-! ### Binary32 arithmetic -/

/-- The rounding of an exact non-negative rational, n/d units of 2^-149, is the nearest finite binary32 magnitude, the even one on a tie, and infinity exactly from halfway past the largest finite value on (00_scope.md R11, rn32). That an overflow is infinity from halfway on is IEEE 754's, log entry 12. -/
def Obligations.RoundingIsNearestTiesToEven : Prop :=
  ∀ n d : Nat, 0 < d →
    (roundMag n d < infMag →
      ∀ k < infMag,
        ((fUnits (fOfSignMag false (roundMag n d)) * d : Int) - n).natAbs ≤
            ((fUnits (fOfSignMag false k) * d : Int) - n).natAbs ∧
          (k ≠ roundMag n d →
            ((fUnits (fOfSignMag false (roundMag n d)) * d : Int) - n).natAbs =
              ((fUnits (fOfSignMag false k) * d : Int) - n).natAbs →
            roundMag n d % 2 = 0)) ∧
      roundMag n d ≤ infMag ∧
      (roundMag n d = infMag ↔ (2 ^ 25 - 1) * 2 ^ 253 * d ≤ 2 * n)

/-- The sum, difference, product and quotient of finite values are the exact one rounded once: infinite exactly from halfway past the largest finite value on, a tie to the even one; with the signs of zero results, of products and of quotients, and the results for an infinite operand and for a zero divisor that are no NaN (00_scope.md R11, fadd, fsub, fmul, fdiv). The IEEE 754 semantics that R11 names are log entry 12. -/
def Obligations.ArithmeticIsCorrectlyRounded : Prop :=
  (∀ a b : F32, isFinite a = true → isFinite b = true →
    isRounded (fadd a b) (fToUnits a + fToUnits b) 1 ∧
    isRounded (fsub a b) (fToUnits a - fToUnits b) 1 ∧
    isRounded (fmul a b) (fToUnits a * fToUnits b) (2 ^ 149) ∧
    (isZero b = false →
      isRounded (fdiv a b) (fToUnits a * 2 ^ 149 * (fToUnits b).sign) (fToUnits b).natAbs) ∧
    (fToUnits a + fToUnits b = 0 →
      fadd a b = if fSign a = true ∧ fSign b = true then 0x80000000 else 0x00000000) ∧
    (fToUnits a - fToUnits b = 0 →
      fsub a b = if fSign a = true ∧ fSign b = false then 0x80000000 else 0x00000000) ∧
    fSign (fmul a b) = (fSign a != fSign b) ∧
    (isZero b = false → fSign (fdiv a b) = (fSign a != fSign b))) ∧
  (∀ a b : F32, isInf a = true → isFinite b = true →
    fadd a b = a ∧ fadd b a = a ∧ fsub a b = a ∧ fsub b a = a ^^^ 0x80000000 ∧
    fdiv a b = (if fSign a = fSign b then 0x7F800000 else 0xFF800000) ∧
    fdiv b a = (if fSign a = fSign b then 0x00000000 else 0x80000000)) ∧
  (∀ a b : F32, isInf a = true → isInf b = true →
    (fSign a = fSign b → fadd a b = a) ∧ (fSign a ≠ fSign b → fsub a b = a)) ∧
  (∀ a b : F32, isInf a = true → isNaN b = false → isZero b = false →
    fmul a b = (if fSign a = fSign b then 0x7F800000 else 0xFF800000) ∧ fmul b a = fmul a b) ∧
  ∀ a b : F32, isFinite a = true → isZero a = false → isZero b = true →
    fdiv a b = if fSign a = fSign b then 0x7F800000 else 0xFF800000

/-- Every NaN result is 0x7FC00000, and the operations that IEEE 754 makes invalid, or that have a NaN operand, give it (00_scope.md R11): zero times infinity, zero by zero, infinity by infinity, the sum of unlike and the difference of like infinities. Which operations are invalid is IEEE 754's, log entry 12. -/
def Obligations.NanResultsAreCanonical : Prop :=
  ∀ a b : F32,
    (isNaN (fadd a b) = true → fadd a b = 0x7FC00000) ∧
    (isNaN (fsub a b) = true → fsub a b = 0x7FC00000) ∧
    (isNaN (fmul a b) = true → fmul a b = 0x7FC00000) ∧
    (isNaN (fdiv a b) = true → fdiv a b = 0x7FC00000) ∧
    (isNaN a = true ∨ isNaN b = true →
      fadd a b = 0x7FC00000 ∧ fsub a b = 0x7FC00000 ∧ fmul a b = 0x7FC00000 ∧
        fdiv a b = 0x7FC00000) ∧
    (isZero a = true → isInf b = true → fmul a b = 0x7FC00000 ∧ fmul b a = 0x7FC00000) ∧
    (isZero a = true → isZero b = true → fdiv a b = 0x7FC00000) ∧
    (isInf a = true → isInf b = true →
      fdiv a b = 0x7FC00000 ∧ (fSign a ≠ fSign b → fadd a b = 0x7FC00000) ∧
        (fSign a = fSign b → fsub a b = 0x7FC00000))

/-- cvt_sat8: NaN gives 0, infinity the end of the range, a finite value the nearest integer, the even one on a tie, held to [−128, 127]; the byte stored is that modulo 256 (00_scope.md R12). -/
def Obligations.CvtSat8RoundsAndSaturates : Prop :=
  (∀ a : F32, isNaN a = true → cvtSat8 a = 0) ∧
    (∀ a : F32, isInf a = true → cvtSat8 a = if fSign a then -128 else 127) ∧
    (∀ a : F32, isFinite a = true →
      ∃ n : Int, 2 * (n * 2 ^ 149 - fToUnits a).natAbs ≤ 2 ^ 149 ∧
        (2 * (n * 2 ^ 149 - fToUnits a).natAbs = 2 ^ 149 → n % 2 = 0) ∧
        cvtSat8 a = min 127 (max (-128) n)) ∧
    ∀ f q : F32, ((quantize f q).toNat : Int) = cvtSat8 (fdiv f q) % 256

/-- The coefficients of the colour formulas are rn32 of RSPEC's decimal literals; the scale of the transforms is rn32(2/N) for every legal N, written out for N = 1 to 16 and exactly 2/N for a power of two; C0 is 0x3F3504F3, and Cf(k) is C0 for k = 0 and 1.0 above (41_color.md R131; 42_dct.md R151, R152). -/
def Obligations.ConstantsAreTheLiteralsRounded : Prop :=
  [(c16, 16000), (c128, 128000), (c256, 256000), (c65_738, 65738), (c129_057, 129057),
    (c24_064, 24064), (c37_945, 37945), (c74_494, 74494), (c112_439, 112439), (c94_154, 94154),
    (c18_285, 18285), (c298_082, 298082), (c408_583, 408583), (c222_921, 222921),
    (c100_291, 100291), (c208_120, 208120), (c135_576, 135576), (c516_412, 516412),
    (c276_836, 276836)].all (fun p => p.1 == rn32 false p.2 1000) = true ∧
    (List.range 16).map (fun k => scaleOf (k + 1)) =
      [0x40000000, 0x3F800000, 0x3F2AAAAB, 0x3F000000, 0x3ECCCCCD, 0x3EAAAAAB,
        0x3E924925, 0x3E800000, 0x3E638E39, 0x3E4CCCCD, 0x3E3A2E8C, 0x3E2AAAAB,
        0x3E1D89D9, 0x3E124925, 0x3E088889, 0x3E000000] ∧
    ∀ k : Nat, cf k = if k = 0 then 0x3F3504F3 else 0x3F800000

/-! ### The cosine table and the transforms -/

/-- For every legal block size each entry of the cosine table is the binary32 nearest to the real cosine cos((2x+1)·u·π/(2N)), and +0.0 where that cosine is 0 (42_dct.md R150). -/
def Obligations.CosineTableIsNearest : Prop :=
  ∀ n x u : Nat, 1 ≤ n → n ≤ 16 → x < n → u < n →
    isFinite (cosEntry n x u) = true ∧
      (∀ g : F32, isFinite g = true →
        |(fToUnits (cosEntry n x u) : ℝ) / 2 ^ 149 -
            Real.cos ((2 * (x : ℝ) + 1) * u * Real.pi / (2 * n))| ≤
          |(fToUnits g : ℝ) / 2 ^ 149 -
            Real.cos ((2 * (x : ℝ) + 1) * u * Real.pi / (2 * n))|) ∧
      (Real.cos ((2 * (x : ℝ) + 1) * u * Real.pi / (2 * n)) = 0 →
        cosEntry n x u = 0x00000000)

/-- Each element of the four kernels is the expression that the spec gives for it: products in its order, from the table T_N, C and K_N; a sum starts at +0.0 and adds its terms one by one in ascending order, a double sum in one chain with the first index outermost; FDCT subtracts BIAS from each sample before the kernel that S selects, IDCT adds it to each sample after it (42_dct.md R153, R157, R158, R160, R161, R162, R163). -/
def Obligations.KernelElementsAreTheFormulas : Prop :=
  (∀ g : Nat → F32, fsum 0 g = 0x00000000 ∧ ∀ n, fsum (n + 1) g = fadd (fsum n g) (g n)) ∧
  (∀ (n : Nat) (g : Nat → Nat → F32), fsum2 n g = fsum (n * n) fun k => g (k / n) (k % n)) ∧
  ∀ (n : Nat) (f : Matrix32) (bias : F32) (p q : Nat), p < n → q < n →
    let directF (x : Nat → Nat → F32) : F32 :=
      fmul (fmul (fmul (rn32 false 2 n) (cf p)) (cf q))
        (fsum2 n fun i j => fmul (fmul (x i j) (cosEntry n i p)) (cosEntry n j q))
    let separableF (x : Nat → Nat → F32) : F32 :=
      fmul (fmul (rn32 false 2 n) (cf p))
        (fsum n fun i =>
          fmul (fmul (cf q) (fsum n fun j => fmul (x i j) (cosEntry n j q))) (cosEntry n i p))
    let directI (x : Nat → Nat → F32) : F32 :=
      fmul (rn32 false 2 n)
        (fsum2 n fun u v =>
          fmul (fmul (fmul (fmul (cf u) (cf v)) (x u v)) (cosEntry n p u)) (cosEntry n q v))
    let separableI (x : Nat → Nat → F32) : F32 :=
      fmul (rn32 false 2 n)
        (fsum n fun v =>
          fmul (fmul (cf v) (fsum n fun u => fmul (fmul (cf u) (x u v)) (cosEntry n p u)))
            (cosEntry n q v))
    elemAt (fwdDirect n (cosTable n) f) p q = directF (elemAt f) ∧
    elemAt (fwdSeparable n (cosTable n) f) p q = separableF (elemAt f) ∧
    elemAt (invDirect n (cosTable n) f) p q = directI (elemAt f) ∧
    elemAt (invSeparable n (cosTable n) f) p q = separableI (elemAt f) ∧
    elemAt (forwardBlock n false bias f) p q = directF (fun i j => fsub (elemAt f i j) bias) ∧
    elemAt (forwardBlock n true bias f) p q = separableF (fun i j => fsub (elemAt f i j) bias) ∧
    elemAt (inverseBlock n false bias f) p q = fadd (directI (elemAt f)) bias ∧
    elemAt (inverseBlock n true bias f) p q = fadd (separableI (elemAt f)) bias

/-- FDCT on a legal plane completes without error, writes only DMEM, 4·WIDTH·HEIGHT bytes of it, and where source and destination planes are the same or do not overlap, every block of the destination is the forward transform of the block of the source (42_dct.md R154, R155, R160). -/
def Obligations.FdctCompletes : Prop :=
  ∀ (s : State) (sep : Bool),
    let a := s.operands
    let n := a.regs.blkn.toNat
    let w := a.regs.width.toNat
    let h := a.regs.height.toNat
    let src := a.regs.src.toNat
    let dst := a.regs.dst.toNat
    1 ≤ n → n ≤ 16 → w % n = 0 → h % n = 0 → src % 4 = 0 → dst % 4 = 0 →
    inBounds a.dmem src (4 * w * h) = true → inBounds a.dmem dst (4 * w * h) = true →
    ∃ t, exec (.fdct sep) s = .next t ∧ t = s.doneWith t.dmem (4 * w * h) ∧
      s.dmem.sameOutside t.dmem [(dst, 4 * w * h)] ∧
      (src = dst ∨ overlap src (4 * w * h) dst (4 * w * h) = false →
        ∀ br bc u v : Nat, br < h / n → bc < w / n → u < n → v < n →
          t.dmem.ldF (blockAddr dst w n br bc u v) =
            elemAt (forwardBlock n sep a.regs.bias (blockLoad a.dmem src w n br bc)) u v)

/-- IDCT on a legal plane completes without error, writes only DMEM, 4·WIDTH·HEIGHT bytes of it, and where source and destination planes are the same or do not overlap, every block of the destination is the inverse transform of the block of the source (42_dct.md R154, R155, R163); and from a plane that FDCT left, by either strategy, IDCT, by either strategy, makes each block its round trip (R164). -/
def Obligations.IdctCompletes : Prop :=
  (∀ (s : State) (sep : Bool),
      let a := s.operands
      let n := a.regs.blkn.toNat
      let w := a.regs.width.toNat
      let h := a.regs.height.toNat
      let src := a.regs.src.toNat
      let dst := a.regs.dst.toNat
      1 ≤ n → n ≤ 16 → w % n = 0 → h % n = 0 → src % 4 = 0 → dst % 4 = 0 →
      inBounds a.dmem src (4 * w * h) = true → inBounds a.dmem dst (4 * w * h) = true →
      ∃ t, exec (.idct sep) s = .next t ∧ t = s.doneWith t.dmem (4 * w * h) ∧
        s.dmem.sameOutside t.dmem [(dst, 4 * w * h)] ∧
        (src = dst ∨ overlap src (4 * w * h) dst (4 * w * h) = false →
          ∀ br bc i j : Nat, br < h / n → bc < w / n → i < n → j < n →
            t.dmem.ldF (blockAddr dst w n br bc i j) =
              elemAt (inverseBlock n sep a.regs.bias (blockLoad a.dmem src w n br bc)) i j)) ∧
  ∀ (s t u : State) (sepF sepI : Bool),
    let a := s.operands
    let b := u.operands
    let n := a.regs.blkn.toNat
    let w := a.regs.width.toNat
    let h := a.regs.height.toNat
    let src := a.regs.src.toNat
    let mid := a.regs.dst.toNat
    let dst := b.regs.dst.toNat
    let len := 4 * w * h
    exec (.fdct sepF) s = .next t → t.regs.errcode = 0 →
    b.regs.blkn = a.regs.blkn → b.regs.width = a.regs.width → b.regs.height = a.regs.height →
    b.regs.bias = a.regs.bias → b.regs.src = a.regs.dst → b.dmem = t.dmem → dst % 4 = 0 →
    inBounds b.dmem mid len = true → inBounds b.dmem dst len = true →
    (src = mid ∨ overlap src len mid len = false) → (mid = dst ∨ overlap mid len dst len = false) →
    ∃ v, exec (.idct sepI) u = .next v ∧ v.regs.errcode = 0 ∧
      ∀ br bc i j : Nat, br < h / n → bc < w / n → i < n → j < n →
        v.dmem.ldF (blockAddr dst w n br bc i j) =
          elemAt (roundTripBlock n sepF sepI a.regs.bias (blockLoad a.dmem src w n br bc)) i j

/-- FDCT and IDCT report the first check that fails and write nothing: PRECONDITION 1, 2, 3, ALIGN 1, 2, BOUNDS 1, 2, in that order (42_dct.md R156, R160, R163; 60_exceptions.md R262, R264). -/
def Obligations.TransformErrors : Prop :=
  ∀ (s : State) (sep : Bool) (i : Instr), i = .fdct sep ∨ i = .idct sep →
    let a := s.operands
    let n := a.regs.blkn.toNat
    let w := a.regs.width.toNat
    let h := a.regs.height.toNat
    let src := a.regs.src.toNat
    let dst := a.regs.dst.toNat
    if n = 0 ∨ 16 < n then exec i s = .next (s.failedWith .precondition 1)
    else if w % n ≠ 0 then exec i s = .next (s.failedWith .precondition 2)
    else if h % n ≠ 0 then exec i s = .next (s.failedWith .precondition 3)
    else if src % 4 ≠ 0 then exec i s = .next (s.failedWith .align 1)
    else if dst % 4 ≠ 0 then exec i s = .next (s.failedWith .align 2)
    else if inBounds a.dmem src (4 * w * h) = false then
      exec i s = .next (s.failedWith .bounds 1)
    else if inBounds a.dmem dst (4 * w * h) = false then
      exec i s = .next (s.failedWith .bounds 2)
    else ∃ t, exec i s = .next t ∧ t.regs.errcode = 0

/-! ### Colour conversion -/

/-- CSC with a legal format tag, aligned operands and spans in bounds completes without error, writes only DMEM, 24·COUNT bytes of it, and where the planes do not overlap (but for a conversion in place), each pixel's six components stand where the spec puts them; the supplied three are kept and the others are the formulas left to right, with rn32 of each literal (41_color.md R130, R131, R132, R133, R134). -/
def Obligations.CscCompletes : Prop :=
  (∀ c1 c2 c3 : F32,
    let lit (n : Nat) : F32 := rn32 false n 1000
    (pixelOf 0 c1 c2 c3).components =
      [c1, c2, c3,
        fadd (lit 16000)
          (fdiv (fadd (fadd (fmul (lit 65738) c1) (fmul (lit 129057) c2)) (fmul (lit 24064) c3))
            (lit 256000)),
        fadd (lit 128000)
          (fdiv
            (fadd (fsub (fmul (lit 37945 ^^^ 0x80000000) c1) (fmul (lit 74494) c2))
              (fmul (lit 112439) c3))
            (lit 256000)),
        fadd (lit 128000)
          (fdiv (fsub (fsub (fmul (lit 112439) c1) (fmul (lit 94154) c2)) (fmul (lit 18285) c3))
            (lit 256000))] ∧
    (pixelOf 1 c1 c2 c3).components =
      [fsub (fdiv (fadd (fmul (lit 298082) c1) (fmul (lit 408583) c3)) (lit 256000)) (lit 222921),
        fadd
          (fdiv
            (fsub (fsub (fmul (lit 298082) c1) (fmul (lit 100291) c2)) (fmul (lit 208120) c3))
            (lit 256000))
          (lit 135576),
        fsub (fdiv (fadd (fmul (lit 298082) c1) (fmul (lit 516412) c2)) (lit 256000)) (lit 276836),
        c1, c2, c3]) ∧
  ∀ (s : State) (fmt : Nat),
    let a := s.operands
    let count := a.regs.count.toNat
    let plane := a.regs.plane.toNat
    let src := a.regs.src.toNat
    let dst := a.regs.dst.toNat
    fmt = 0 ∨ fmt = 1 → src % 4 = 0 → dst % 4 = 0 → plane % 4 = 0 →
    (∀ k < 3, inBounds a.dmem (src + k * plane) (4 * count) = true) →
    (∀ j < 6, inBounds a.dmem (dst + j * plane) (4 * count) = true) →
    ∃ t, exec (.csc fmt) s = .next t ∧ t = s.doneWith t.dmem (24 * count) ∧
      s.dmem.sameOutside t.dmem ((List.range 6).map fun j => (dst + j * plane, 4 * count)) ∧
      (4 * count ≤ plane →
        src = dst ∨
          (∀ k < 3, ∀ j < 6,
            overlap (src + k * plane) (4 * count) (dst + j * plane) (4 * count) = false) →
        ∀ p < count, ∀ j < 6,
          t.dmem.ldF (dst + j * plane + 4 * p) =
            (pixelOf fmt (a.dmem.ldF (src + 4 * p)) (a.dmem.ldF (src + plane + 4 * p))
              (a.dmem.ldF (src + 2 * plane + 4 * p))).components.getD j 0)

/-- CSC reports the first check that fails and writes nothing: INVALID_FORMAT(fmt), ALIGN 1, 2, 4, BOUNDS 1, 2, in that order (41_color.md R134; 60_exceptions.md R262, R264). -/
def Obligations.CscErrors : Prop :=
  ∀ (s : State) (fmt : Nat),
    let a := s.operands
    let count := a.regs.count.toNat
    let plane := a.regs.plane.toNat
    let src := a.regs.src.toNat
    let dst := a.regs.dst.toNat
    if fmt ≠ 0 ∧ fmt ≠ 1 then exec (.csc fmt) s = .next (s.failedWith .invalidFormat fmt)
    else if src % 4 ≠ 0 then exec (.csc fmt) s = .next (s.failedWith .align 1)
    else if dst % 4 ≠ 0 then exec (.csc fmt) s = .next (s.failedWith .align 2)
    else if plane % 4 ≠ 0 then exec (.csc fmt) s = .next (s.failedWith .align 4)
    else if ∃ k ∈ List.range 3, inBounds a.dmem (src + k * plane) (4 * count) = false then
      exec (.csc fmt) s = .next (s.failedWith .bounds 1)
    else if ∃ j ∈ List.range 6, inBounds a.dmem (dst + j * plane) (4 * count) = false then
      exec (.csc fmt) s = .next (s.failedWith .bounds 2)
    else ∃ t, exec (.csc fmt) s = .next t ∧ t.regs.errcode = 0

/-! ### Quantizer and zigzag -/

/-- ZZ_N visits each position of the block exactly once, by anti-diagonals, with ascending rows on an odd one and descending rows on an even one; for N = 1, 2, 3, 4, 8 it is the spec's table (43_quant_zigzag.md R180). -/
def Obligations.ZigzagOrder : Prop :=
  (∀ n r c : Nat, (r, c) ∈ zigzag n ↔ r < n ∧ c < n) ∧
    (∀ n : Nat, (zigzag n).Pairwise fun p q =>
      p.1 + p.2 < q.1 + q.2 ∨
        (p.1 + p.2 = q.1 + q.2 ∧ if (p.1 + p.2) % 2 = 1 then p.1 < q.1 else q.1 < p.1)) ∧
    (∀ n : Nat, (zigzag n).length = n * n) ∧
    (zigzag 1).map (fun p => p.1 * 1 + p.2) = [0] ∧
    (zigzag 2).map (fun p => p.1 * 2 + p.2) = [0, 1, 2, 3] ∧
    (zigzag 3).map (fun p => p.1 * 3 + p.2) = [0, 1, 3, 6, 4, 2, 5, 7, 8] ∧
    (zigzag 4).map (fun p => p.1 * 4 + p.2) =
      [0, 1, 4, 8, 5, 2, 3, 6, 9, 12, 13, 10, 7, 11, 14, 15] ∧
    (zigzag 8).map (fun p => p.1 * 8 + p.2) =
      [0, 1, 8, 16, 9, 2, 3, 10, 17, 24, 32, 25, 18, 11, 4, 5, 12, 19, 26, 33, 40, 48, 41, 34, 27,
        20, 13, 6, 7, 14, 21, 28, 35, 42, 49, 56, 57, 50, 43, 36, 29, 22, 15, 23, 30, 37, 44, 51,
        58, 59, 52, 45, 38, 31, 39, 46, 53, 60, 61, 54, 47, 55, 62, 63]

/-- QZZ on a legal plane completes without error, writes only DMEM, WIDTH·HEIGHT bytes of it, and where source plane and stream do not overlap, byte k·N² + m of the stream is element ZZ_N[m] of block k divided by its divisor and converted, by the divisors as they were at launch (43_quant_zigzag.md R181, R182, R183, R185). -/
def Obligations.QzzCompletes : Prop :=
  ∀ s : State,
    let a := s.operands
    let n := a.regs.blkn.toNat
    let w := a.regs.width.toNat
    let h := a.regs.height.toNat
    let src := a.regs.src.toNat
    let dst := a.regs.dst.toNat
    let qaddr := a.regs.qaddr.toNat
    1 ≤ n → n ≤ 16 → w % n = 0 → h % n = 0 → src % 4 = 0 → qaddr % 4 = 0 →
    inBounds a.dmem src (4 * (w * h)) = true → inBounds a.dmem dst (w * h) = true →
    inBounds a.dmem qaddr (4 * n * n) = true →
    ∃ t, exec .qzz s = .next t ∧ t = s.doneWith t.dmem (w * h) ∧
      s.dmem.sameOutside t.dmem [(dst, w * h)] ∧
      (overlap src (4 * (w * h)) dst (w * h) = false →
        ∀ br bc m r c : Nat, br < h / n → bc < w / n → (zigzag n)[m]? = some (r, c) →
          t.dmem.byte (dst + (br * (w / n) + bc) * (n * n) + m) =
            BitVec.ofInt 8
              (cvtSat8 (fdiv (a.dmem.ldF (blockAddr src w n br bc r c))
                (a.dmem.ldF (qaddr + 4 * (r * n + c))))))

/-- DQZZ on a legal stream completes without error, writes only DMEM, 4·WIDTH·HEIGHT bytes of it, and where stream and destination plane do not overlap, element ZZ_N[m] of block k is byte k·N² + m, as a signed integer, times its divisor (43_quant_zigzag.md R181, R182, R184, R185). -/
def Obligations.DqzzCompletes : Prop :=
  ∀ s : State,
    let a := s.operands
    let n := a.regs.blkn.toNat
    let w := a.regs.width.toNat
    let h := a.regs.height.toNat
    let src := a.regs.src.toNat
    let dst := a.regs.dst.toNat
    let qaddr := a.regs.qaddr.toNat
    1 ≤ n → n ≤ 16 → w % n = 0 → h % n = 0 → dst % 4 = 0 → qaddr % 4 = 0 →
    inBounds a.dmem src (w * h) = true → inBounds a.dmem dst (4 * (w * h)) = true →
    inBounds a.dmem qaddr (4 * n * n) = true →
    ∃ t, exec .dqzz s = .next t ∧ t = s.doneWith t.dmem (4 * (w * h)) ∧
      s.dmem.sameOutside t.dmem [(dst, 4 * (w * h))] ∧
      (overlap src (w * h) dst (4 * (w * h)) = false →
        ∀ br bc m r c : Nat, br < h / n → bc < w / n → (zigzag n)[m]? = some (r, c) →
          t.dmem.ldF (blockAddr dst w n br bc r c) =
            fmul (i2f (a.dmem.byte (src + (br * (w / n) + bc) * (n * n) + m)).toInt)
              (a.dmem.ldF (qaddr + 4 * (r * n + c))))

/-- QZZ and DQZZ report the first check that fails and write nothing: PRECONDITION 1, 2, 3, ALIGN 1 or 2, then 3, BOUNDS 1, 2, 3, in that order (43_quant_zigzag.md R183, R184; 60_exceptions.md R262, R264). -/
def Obligations.QuantErrors : Prop :=
  ∀ (s : State) (i : Instr), i = .qzz ∨ i = .dqzz →
    let a := s.operands
    let n := a.regs.blkn.toNat
    let w := a.regs.width.toNat
    let h := a.regs.height.toNat
    let src := a.regs.src.toNat
    let dst := a.regs.dst.toNat
    let qaddr := a.regs.qaddr.toNat
    let srcLen := if i = .qzz then 4 * (w * h) else w * h
    let dstLen := if i = .qzz then w * h else 4 * (w * h)
    if n = 0 ∨ 16 < n then exec i s = .next (s.failedWith .precondition 1)
    else if w % n ≠ 0 then exec i s = .next (s.failedWith .precondition 2)
    else if h % n ≠ 0 then exec i s = .next (s.failedWith .precondition 3)
    else if i = .qzz ∧ src % 4 ≠ 0 then exec i s = .next (s.failedWith .align 1)
    else if i = .dqzz ∧ dst % 4 ≠ 0 then exec i s = .next (s.failedWith .align 2)
    else if qaddr % 4 ≠ 0 then exec i s = .next (s.failedWith .align 3)
    else if inBounds a.dmem src srcLen = false then exec i s = .next (s.failedWith .bounds 1)
    else if inBounds a.dmem dst dstLen = false then exec i s = .next (s.failedWith .bounds 2)
    else if inBounds a.dmem qaddr (4 * n * n) = false then
      exec i s = .next (s.failedWith .bounds 3)
    else ∃ t, exec i s = .next t ∧ t.regs.errcode = 0

/-- Quantizing a dequantized byte gives the byte back for every divisor that is a power of two in [2^-100, 2^100]: exponent fields 27 to 227, fraction 0 (43_quant_zigzag.md R186). -/
def Obligations.RequantizingAPowerOfTwoIsExact : Prop :=
  ∀ (b : Byte) (e : Nat), 27 ≤ e → e ≤ 227 →
    quantize (dequantize b (BitVec.ofNat 32 (e * 2 ^ 23))) (BitVec.ofNat 32 (e * 2 ^ 23)) = b

/-! ### Huffman coder -/

/-- The codes of an input are prefix-free: no byte's code is a prefix of another's (44_huffman.md R208). -/
def Obligations.HuffmanCodesArePrefixFree : Prop :=
  ∀ (bs : List Byte) (b c : Nat), b < 256 → c < 256 → b ≠ c →
    let x := codeOf (huffmanCodes bs) b
    let y := codeOf (huffmanCodes bs) c
    x.len ≠ 0 → y.len ≠ 0 → x.len ≤ y.len → y.pat / 2 ^ (y.len - x.len) ≠ x.pat

/-- Exactly the byte values that occur have a code, of pattern below 2^length; a single distinct byte has the code (0, 1); and from two distinct bytes on the codes are the paths in the tree that the merges of the two least nodes make, equal weights ordered by key, the lesser node the left child and a left edge a 1 (44_huffman.md R201 to R206). -/
def Obligations.CodesExactlyForOccurringBytes : Prop :=
  (∀ (bs : List Byte) (b : Nat), b < 256 →
    let x := codeOf (huffmanCodes bs) b
    (x.len ≠ 0 ↔ BitVec.ofNat 8 b ∈ bs) ∧ x.pat < 2 ^ x.len ∧
      (bs ≠ [] → (∀ c ∈ bs, c = BitVec.ofNat 8 b) → x = ⟨0, 1⟩)) ∧
  ∀ bs : List Byte, 2 ≤ (leafSet bs).length →
    ∃ t, MergesTo 0 (leafSet bs) t ∧ (∀ t', MergesTo 0 (leafSet bs) t' → t' = t) ∧
      ∀ b < 256, codeOf (huffmanCodes bs) b =
        match t.path b with
        | some p => ⟨bitsValue p, p.length⟩
        | none => ⟨0, 0⟩

/-- HENC, where its checks pass, completes without error: BITCNT, BBTOT and OUTCNT count the payload, DTCNT the distinct bytes, the tables hold the codes, ascending by byte value, the bit buffer is closed behind the payload, and the payload's bits are the codes of the input bytes in their order, padded with 0 (44_huffman.md R210, R211, R212). -/
def Obligations.HencCompletes : Prop :=
  ∀ s : State,
    let a := s.operands
    let bs := hencInput a
    let cs := huffmanCodes bs
    let total := totalBits bs cs
    let dst := a.regs.dst.toNat
    let coded := (List.range 256).filter fun b => freqOf bs b ≠ 0
    Config.legalSize a.dmem.size →
    inBounds a.dmem a.regs.src.toNat a.regs.count.toNat = true →
    (∀ b < 256, (codeOf cs b).len ≤ 32) →
    inBounds a.dmem dst (ceil8 total) = true →
    overlap a.regs.src.toNat a.regs.count.toNat dst (ceil8 total) = false →
    ∃ t, exec .henc s = .next t ∧
      t = { s with
        regs :=
          { s.regs with
            busy := false, done := true, errcode := 0, errinfo := 0
            outcnt := BitVec.ofNat 32 (ceil8 total)
            bitcnt := BitVec.ofNat 64 total
            dtcnt := BitVec.ofNat 9 coded.length
            maxlen := t.regs.maxlen
            bb := ⟨a.regs.dst + BitVec.ofNat 32 (ceil8 total), 0, 0, false, BitVec.ofNat 64 total⟩ }
        etab := t.etab, dtab := t.dtab, dmem := t.dmem, inFlight := none } ∧
      s.dmem.sameOutside t.dmem [(dst, ceil8 total)] ∧
      (∀ b < 256, (codeOf cs b).len ≤ t.regs.maxlen.toNat) ∧
      (t.regs.maxlen.toNat = 0 ∨ ∃ b < 256, (codeOf cs b).len = t.regs.maxlen.toNat) ∧
      (∀ b < 256, entryAt t.etab b ⟨0, 0⟩ =
        ⟨BitVec.ofNat 32 (codeOf cs b).pat, BitVec.ofNat 6 (codeOf cs b).len⟩) ∧
      (∀ i < 256, entryAt t.dtab i ⟨0, 0, 0⟩ =
        match coded[i]? with
        | some b =>
          ⟨BitVec.ofNat 32 (codeOf cs b).pat, BitVec.ofNat 6 (codeOf cs b).len, BitVec.ofNat 8 b⟩
        | none => ⟨0, 0, 0⟩) ∧
      (codeBits (bs.map fun b => codeOf cs b.toNat)).length = total ∧
      (∀ k < total, streamBit t.dmem dst k =
        (codeBits (bs.map fun b => codeOf cs b.toNat)).getD k false) ∧
      ∀ k, total ≤ k → k < 8 * ceil8 total → streamBit t.dmem dst k = false

/-- HENC reports the first check that fails and writes nothing: BOUNDS(1), CODE_OVERFLOW with the smallest byte whose code is too long, BOUNDS(2), PRECONDITION(5), in that order (44_huffman.md R207, R212; 60_exceptions.md R262, R264). -/
def Obligations.HencErrors : Prop :=
  ∀ s : State,
    let a := s.operands
    let bs := hencInput a
    let cs := huffmanCodes bs
    let len := ceil8 (totalBits bs cs)
    if inBounds a.dmem a.regs.src.toNat a.regs.count.toNat = false then
      exec .henc s = .next (s.failedWith .bounds 1)
    else if ∃ b ∈ List.range 256, 32 < (codeOf cs b).len then
      ∃ b < 256, 32 < (codeOf cs b).len ∧ (∀ c < b, (codeOf cs c).len ≤ 32) ∧
        exec .henc s = .next (s.failedWith .codeOverflow b)
    else if inBounds a.dmem a.regs.dst.toNat len = false then
      exec .henc s = .next (s.failedWith .bounds 2)
    else if overlap a.regs.src.toNat a.regs.count.toNat a.regs.dst.toNat len = true then
      exec .henc s = .next (s.failedWith .precondition 5)
    else ∃ t, exec .henc s = .next t ∧ t.regs.errcode = 0

/-- HDEC decodes what HENC encoded: for every non-empty input that HENC encodes without error, HDEC with the DTAB, DTCNT, BITCNT and payload that HENC left, at least COUNT bytes of room in bounds and clear of the payload, writes exactly the original bytes and succeeds (44_huffman.md R220). -/
def Obligations.HuffmanRoundTrip : Prop :=
  ∀ s t u : State,
    let a := s.operands
    let b := u.operands
    1 ≤ a.regs.count.toNat → Config.legalSize a.dmem.size →
    exec .henc s = .next t → t.regs.errcode = 0 →
    b.dtab = t.dtab → b.regs.dtcnt = t.regs.dtcnt → b.regs.bitcnt = t.regs.bitcnt →
    b.regs.src = a.regs.dst → b.dmem.size = a.dmem.size →
    (∀ k < t.regs.outcnt.toNat, b.dmem.byte (a.regs.dst.toNat + k) = t.dmem.byte (a.regs.dst.toNat + k)) →
    a.regs.count.toNat ≤ b.regs.count.toNat →
    inBounds b.dmem b.regs.dst.toNat b.regs.count.toNat = true →
    overlap b.regs.src.toNat t.regs.outcnt.toNat b.regs.dst.toNat b.regs.count.toNat = false →
    ∃ v, exec .hdec u = .next v ∧ v.regs.errcode = 0 ∧ v.regs.outcnt = a.regs.count ∧
      ∀ p < a.regs.count.toNat,
        v.dmem.byte (b.regs.dst.toNat + p) = a.dmem.byte (a.regs.src.toNat + p)

/-- HDEC with a usable table, spans in bounds and apart, and a payload that is a sequence of codes the decoder can reach, at most COUNT of them, completes without error and writes their bytes; MAXLEN is the longest code of the table (44_huffman.md R216, R217, R218, R219). -/
def Obligations.HdecCompletes : Prop :=
  ∀ (s : State) (es : List DtabEntry),
    let a := s.operands
    let tab := decodeTable a
    let src := a.regs.src.toNat
    let dst := a.regs.dst.toNat
    let len := ceil8 a.regs.bitcnt.toNat
    inBounds a.dmem src len = true → inBounds a.dmem dst a.regs.count.toNat = true →
    a.regs.dtcnt.toNat ≤ 256 → tableUsable tab →
    overlap src len dst a.regs.count.toNat = false →
    (∀ e ∈ es, reachableEntry tab e) → payloadBits a = codeBits (es.map DtabEntry.asCode) →
    es.length ≤ a.regs.count.toNat →
    ∃ t, exec .hdec s = .next t ∧
      t = { s with
        regs :=
          { s.regs with
            busy := false, done := true, errcode := 0, errinfo := 0
            outcnt := BitVec.ofNat 32 es.length, maxlen := t.regs.maxlen }
        dmem := t.dmem, inFlight := none } ∧
      s.dmem.sameOutside t.dmem [(dst, es.length)] ∧
      (∀ e ∈ tab, e.len.toNat ≤ t.regs.maxlen.toNat) ∧
      (t.regs.maxlen.toNat = 0 ∨ ∃ e ∈ tab, e.len.toNat = t.regs.maxlen.toNat) ∧
      ∀ i, (h : i < es.length) → t.dmem.byte (dst + i) = es[i].value

/-- HDEC's checks before decoding, the first that fails reported and nothing written: BOUNDS(1), BOUNDS(2), MALFORMED with DTCNT above 256 or with the first bad entry, PRECONDITION(5) (44_huffman.md R217, R219; 60_exceptions.md R262, R264). That a bad table is reported for BITCNT = 0 too is the model's choice, log entry 16. -/
def Obligations.HdecCheckErrors : Prop :=
  ∀ s : State,
    let a := s.operands
    let tab := decodeTable a
    let src := a.regs.src.toNat
    let dst := a.regs.dst.toNat
    let len := ceil8 a.regs.bitcnt.toNat
    if inBounds a.dmem src len = false then exec .hdec s = .next (s.failedWith .bounds 1)
    else if inBounds a.dmem dst a.regs.count.toNat = false then
      exec .hdec s = .next (s.failedWith .bounds 2)
    else if 256 < a.regs.dtcnt.toNat then
      exec .hdec s = .next (s.failedWith .malformed a.regs.dtcnt.toNat)
    else
      (¬ tableUsable tab →
        ∃ i < tab.length, tableUsable (tab.take i) ∧ ¬ tableUsable (tab.take (i + 1)) ∧
          exec .hdec s = .next (s.failedWith .malformed i)) ∧
      (tableUsable tab → overlap src len dst a.regs.count.toNat = true →
        exec .hdec s = .next (s.failedWith .precondition 5))

/-- HDEC's errors while decoding keep the bytes decoded before them, OUTCNT counts those bytes, and MAXLEN is set: DECODE_MISMATCH(BITCNT) where the bits end inside a code, DECODE_MISMATCH(i) at the bit i that makes the accumulator longer than MAXLEN without a match, BOUNDS(4) where a byte is decoded with COUNT bytes already written (44_huffman.md R219; 60_exceptions.md R261, R264). -/
def Obligations.HdecDecodeErrors : Prop :=
  ∀ (s : State) (es : List DtabEntry) (rest : List Bool),
    let a := s.operands
    let tab := decodeTable a
    let src := a.regs.src.toNat
    let dst := a.regs.dst.toNat
    let len := ceil8 a.regs.bitcnt.toNat
    let count := a.regs.count.toNat
    let maxlen := tab.foldl (fun m e => max m e.len.toNat) 0
    let used := (codeBits (es.map DtabEntry.asCode)).length
    inBounds a.dmem src len = true → inBounds a.dmem dst count = true →
    a.regs.dtcnt.toNat ≤ 256 → tableUsable tab → overlap src len dst count = false →
    (∀ e ∈ es, reachableEntry tab e) →
    payloadBits a = codeBits (es.map DtabEntry.asCode) ++ rest → es.length ≤ count →
    ∀ (c : ErrCode) (info : Nat),
      (rest ≠ [] ∧ rest.length ≤ maxlen ∧ noMatchWithin tab rest rest.length ∧
          c = .decodeMismatch ∧ info = a.regs.bitcnt.toNat) ∨
        (maxlen < rest.length ∧ noMatchWithin tab rest (maxlen + 1) ∧
          c = .decodeMismatch ∧ info = used + maxlen) ∨
        (es.length = count ∧
          (∃ e, reachableEntry tab e ∧ ∃ more, rest = patternBits e.code.toNat e.len.toNat ++ more) ∧
          c = .bounds ∧ info = 4) →
      ∃ t, exec .hdec s = .next t ∧
        t = { s with
          regs :=
            { s.regs with
              busy := false, done := true, err := true, errcode := errNumber c
              errinfo := BitVec.ofNat 32 info, outcnt := BitVec.ofNat 32 es.length
              maxlen := BitVec.ofNat 6 maxlen }
          dmem := t.dmem, inFlight := none } ∧
        s.dmem.sameOutside t.dmem [(dst, es.length)] ∧
        ∀ i, (h : i < es.length) → t.dmem.byte (dst + i) = es[i].value

/-! ### Bit buffer and NOP -/

/-- NOP changes nothing but what every completion changes, and OUTCNT becomes 0 (40_command_model.md R117). -/
def Obligations.NopCompletes : Prop := ∀ s : State, exec .nop s = .next (s.doneWith s.dmem 0)

/-- BBRST opens a stream at DST, whatever stands there: BBPTR = DST, ACC, FILL and BBTOT 0, OPEN 1, no byte written, nothing else changed (45_bitbuffer.md R240, R243). -/
def Obligations.BbrstOpensStream : Prop :=
  ∀ s : State,
    exec .bbrst s =
      .next { s with
        regs :=
          { s.regs with
            busy := false, done := true, errcode := 0, errinfo := 0, outcnt := 0
            bb := ⟨s.operands.regs.dst, 0, 0, true, 0⟩ }
        inFlight := none }

/-- BBADD on an open stream with LEN at most 32 and room for the bytes it completes: the FILL pending bits followed by the LEN low bits of ARG0 make one number, whose high bytes are written at BBPTR in order and whose remaining bits stay pending, left-justified; BBTOT grows by LEN (45_bitbuffer.md R241, R244). -/
def Obligations.BbaddAppends : Prop :=
  ∀ (s : State) (len : Nat),
    let a := s.operands
    let b := a.regs.bb
    let n := b.fill.toNat + len
    let v := b.acc.toNat / 2 ^ (8 - b.fill.toNat) * 2 ^ len + a.regs.arg0.toNat % 2 ^ len
    Config.legalSize a.dmem.size → b.clean → len ≤ 32 → b.isOpen = true →
    inBounds a.dmem b.ptr.toNat (n / 8) = true →
    ∃ t, exec (.bbadd len) s = .next t ∧
      t = { s with
        regs :=
          { s.regs with
            busy := false, done := true, errcode := 0, errinfo := 0
            outcnt := BitVec.ofNat 32 (n / 8)
            bb := ⟨b.ptr + BitVec.ofNat 32 (n / 8),
              BitVec.ofNat 8 (v % 2 ^ (n % 8) * 2 ^ (8 - n % 8)), BitVec.ofNat 3 (n % 8), true,
              b.tot + BitVec.ofNat 64 len⟩ }
        dmem := t.dmem, inFlight := none } ∧
      s.dmem.sameOutside t.dmem [(b.ptr.toNat, n / 8)] ∧
      ∀ k < n / 8, t.dmem.byte (b.ptr.toNat + k) = BitVec.ofNat 8 (v / 2 ^ (n - 8 * (k + 1)))

/-- BBFIN on an open stream with room for the partial byte: the partial byte, if there is one, is written at BBPTR as it stands, the stream is closed, BITCNT takes BBTOT and BBTOT stays (45_bitbuffer.md R242, R245). -/
def Obligations.BbfinFlushes : Prop :=
  ∀ s : State,
    let a := s.operands
    let b := a.regs.bb
    let n := if b.fill = 0 then 0 else 1
    b.isOpen = true → inBounds a.dmem b.ptr.toNat n = true →
    ∃ t, exec .bbfin s = .next t ∧
      t = { s with
        regs :=
          { s.regs with
            busy := false, done := true, errcode := 0, errinfo := 0, outcnt := BitVec.ofNat 32 n
            bitcnt := b.tot
            bb := ⟨b.ptr + BitVec.ofNat 32 n, if b.fill = 0 then b.acc else 0, 0, false, b.tot⟩ }
        dmem := t.dmem, inFlight := none } ∧
      s.dmem.sameOutside t.dmem [(b.ptr.toNat, n)] ∧
      (b.fill ≠ 0 → t.dmem.byte b.ptr.toNat = b.acc)

/-- BBADD and BBFIN report the first check that fails and write nothing: ILLEGAL_CMD(0) for LEN above 32, PRECONDITION(4) with no open stream, BOUNDS(2) where a byte to be written lies outside DMEM (45_bitbuffer.md R244, R245; 60_exceptions.md R262, R264). -/
def Obligations.BitBufferErrors : Prop :=
  ∀ (s : State) (len : Nat),
    let a := s.operands
    let b := a.regs.bb
    (if 32 < len then exec (.bbadd len) s = .next (s.failedWith .illegalCmd 0)
      else if b.isOpen = false then exec (.bbadd len) s = .next (s.failedWith .precondition 4)
      else if inBounds a.dmem b.ptr.toNat ((b.fill.toNat + len) / 8) = false then
        exec (.bbadd len) s = .next (s.failedWith .bounds 2)
      else ∃ t, exec (.bbadd len) s = .next t ∧ t.regs.errcode = 0) ∧
    (if b.isOpen = false then exec .bbfin s = .next (s.failedWith .precondition 4)
      else if b.fill ≠ 0 ∧ inBounds a.dmem b.ptr.toNat 1 = false then
        exec .bbfin s = .next (s.failedWith .bounds 2)
      else ∃ t, exec .bbfin s = .next t ∧ t.regs.errcode = 0)

/-- The bit-buffer contract: BBRST at d, BBADD of each code and BBFIN leave at d exactly the codes' bits, each most significant first and in order, the last byte padded with 0 as HENC pads it, and in BITCNT their number (45_bitbuffer.md R246). -/
def Obligations.BitBufferBuildsTheStream : Prop :=
  ∀ (s : State) (cs : List Code),
    let d := s.regs.dst.toNat
    s.inFlight = none → Config.legalSize s.dmem.size → (∀ c ∈ cs, c.len ≤ 32) →
    d + ceil8 (codesLength cs) ≤ s.dmem.size →
    ∃ s₁ s₂ t, exec .bbrst s = .next s₁ ∧ appendRun s₁ cs = some s₂ ∧ exec .bbfin s₂ = .next t ∧
      t.regs.errcode = 0 ∧ t.regs.bitcnt = BitVec.ofNat 64 (codesLength cs) ∧
      (codeBits cs).length = codesLength cs ∧
      (∀ k < codesLength cs, streamBit t.dmem d k = (codeBits cs).getD k false) ∧
      ∀ k, codesLength cs ≤ k → k < 8 * ceil8 (codesLength cs) → streamBit t.dmem d k = false

/-! ### Every command -/

/-- The memory frame of all eleven commands (NOP, CSC, FDCT, IDCT, QZZ, DQZZ, HENC, HDEC, BBRST, BBADD, BBFIN): every DMEM byte outside the spans the command stores to reads as before (30_encoding.md R99; 40_command_model.md R122). -/
def Obligations.CommandsStoreOnlyInTheirSpans : Prop :=
  ∀ (i : Instr) (s t : State), Config.legalSize s.operands.dmem.size → exec i s = .next t →
    s.dmem.sameOutside t.dmem (storedSpans i s.operands)

/-- The register frame of all eleven commands: none writes CTRL.IE, WERR, CMD, CFG or an operand register; only HENC writes ETAB, DTAB and DTCNT, only HENC and HDEC MAXLEN, only HENC and BBFIN BITCNT, only HENC, BBRST, BBADD and BBFIN the bit buffer; and the host's own data stays (30_encoding.md R99; 10_state.md R30; 60_exceptions.md R264). -/
def Obligations.CommandsWriteOnlyTheirRegisters : Prop :=
  ∀ (i : Instr) (s t : State), exec i s = .next t →
    (t.regs.ie, t.regs.werr, t.regs.cmd, t.regs.blkn) =
        (s.regs.ie, s.regs.werr, s.regs.cmd, s.regs.blkn) ∧
      (t.regs.src, t.regs.dst, t.regs.count, t.regs.width, t.regs.height, t.regs.plane,
          t.regs.qaddr, t.regs.bias, t.regs.arg0) =
        (s.regs.src, s.regs.dst, s.regs.count, s.regs.width, s.regs.height, s.regs.plane,
          s.regs.qaddr, s.regs.bias, s.regs.arg0) ∧
      (i ≠ .henc → t.etab = s.etab ∧ t.dtab = s.dtab ∧ t.regs.dtcnt = s.regs.dtcnt) ∧
      (i ≠ .henc → i ≠ .hdec → t.regs.maxlen = s.regs.maxlen) ∧
      (i ≠ .henc → i ≠ .bbfin → t.regs.bitcnt = s.regs.bitcnt) ∧
      (i ≠ .henc → i ≠ .bbrst → i ≠ .bbfin → (∀ len, i ≠ .bbadd len) → t.regs.bb = s.regs.bb) ∧
      (t.turns, t.hostData, t.prog, t.progPos, t.vars, t.aborts) =
        (s.turns, s.hostData, s.prog, s.progPos, s.vars, s.aborts)

/-- Every command completes: DONE is set, BUSY cleared and nothing in flight any more; without an error ERRCODE and ERRINFO are 0, with one ERR is set and they carry its code and information; OUTCNT is the number of DMEM bytes written, modulo 2^32 (40_command_model.md R112, R113, R116). -/
def Obligations.CompletionReportsStatus : Prop :=
  ∀ (i : Instr) (s : State),
    let r := resultOf i s.operands
    ∃ t, exec i s = .next t ∧ t.regs.done = true ∧ t.regs.busy = false ∧ t.inFlight = none ∧
      (r.error = none → t.regs.errcode = 0x00 ∧ t.regs.errinfo = 0 ∧ t.regs.err = s.regs.err) ∧
      (∀ c info, r.error = some (c, info) →
        t.regs.err = true ∧ t.regs.errcode = errNumber c ∧
          t.regs.errinfo = BitVec.ofNat 32 info) ∧
      t.regs.outcnt = BitVec.ofNat 32 r.effects.writes.length ∧
      t.dmem = s.dmem.setBytes r.effects.writes

/-- An error of any command but HDEC's DECODE_MISMATCH and BOUNDS(4) leaves everything but STATUS, ERRINFO and OUTCNT = 0 as it was (60_exceptions.md R264). -/
def Obligations.ErrorsWriteNothing : Prop :=
  ∀ (i : Instr) (s t : State), exec i s = .next t → t.regs.errcode ≠ 0 →
    (i = .hdec ∧ (t.regs.errcode = 0x03 ∨ (t.regs.errcode = 0x05 ∧ t.regs.errinfo = 4))) ∨
      ∃ (c : ErrCode) (info : Nat), t = s.failedWith c info

/-! ### The host port -/

/-- A host write of w to CMD while no command is in flight stores and launches it: BUSY is set, DONE, ERR, ERRCODE and ERRINFO are cleared, the state after that is snapshotted, and nothing else changes (40_command_model.md R110). -/
def Obligations.LaunchIsExact : Prop :=
  ∀ (s : State) (w : Word), s.regs.busy = false →
    let a : Arch :=
      { s.toArch with
        regs :=
          { s.regs with
            cmd := w, busy := true, done := false, err := false, errcode := 0x00, errinfo := 0 } }
    hostWrite 0x010 32 w s = .next { s with toArch := a, inFlight := some ⟨w, a⟩ }

/-- A host write to CMD while a command is in flight is dropped and sets WERR; CMD, the command in flight and everything else stay (40_command_model.md R111). -/
def Obligations.CmdWhileBusyIsDropped : Prop :=
  ∀ (s : State) (w : Word), s.regs.busy = true →
    hostWrite 0x010 32 w s = .next { s with regs := { s.regs with werr := true } }

/-- A host access is answered with the bus error exactly when it is unsupported: in the register block, not 32 bits wide or not at a multiple of 4; above it, not 8, 16 or 32 bits wide, not aligned to its size, or not inside DMEM (20_memory.md R62, R63, R64). That this comes before R73 is the model's reading, log entry 10. -/
def Obligations.UnsupportedAccessIsBusError : Prop :=
  ∀ (s : State) (off width : Nat) (v : Word), Config.legalSize s.dmem.size →
    let unsupported :=
      (off < 0x10000 ∧ ¬ (width = 32 ∧ off % 4 = 0)) ∨
        (0x10000 ≤ off ∧
          ¬ ((width = 8 ∨ width = 16 ∨ width = 32) ∧ (off - 0x10000) % (width / 8) = 0 ∧
            off - 0x10000 < s.dmem.size))
    (unsupported →
      hostWrite off width v s = .fault .hostBusError ∧ hostRead off width s = .fault .hostBusError) ∧
      (¬ unsupported → ∃ t u, hostWrite off width v s = .next t ∧ hostRead off width s = .next u)

/-- A supported host write of n bytes to DMEM while no command is in flight stores the value's bytes, least significant at the lowest address, and changes nothing else; reading the same bytes back gives the value (20_memory.md R60, R63). The value a read returns is in `hostData`, log entry 7. -/
def Obligations.DmemAccessIsLittleEndian : Prop :=
  ∀ (s : State) (n a : Nat) (v : Word), s.regs.busy = false → n = 1 ∨ n = 2 ∨ n = 4 →
    a % n = 0 → a + n ≤ s.dmem.size →
    ∃ t, hostWrite (0x10000 + a) (8 * n) v s = .next t ∧ t = { s with dmem := t.dmem } ∧
      s.dmem.sameOutside t.dmem [(a, n)] ∧
      (∀ k < n, t.dmem.byte (a + k) = BitVec.ofNat 8 (v.toNat / 2 ^ (8 * k))) ∧
      ∃ u, hostRead (0x10000 + a) (8 * n) t = .next u ∧ u = { t with hostData := u.hostData } ∧
        u.hostData.toNat = v.toNat % 2 ^ (8 * n)

/-- A host write to a register other than CTRL, STATUS and CMD while no command is in flight: the read/write bits take the written value, every other bit and register, the tables and DMEM stay (10_state.md R23, R29, R30, R31, R32, R34, R41). -/
def Obligations.RegisterWritesAndReads : Prop :=
  ∀ (s : State) (r r' : RegName) (v : Word), s.regs.busy = false → r ≠ .ctrl → r ≠ .status →
    r ≠ .cmd →
    let mask : Word :=
      if r = .cfg then 0x1F else if r = .dtcnt then 0x1FF
      else if r ∈ [.src, .dst, .count, .width, .height, .plane, .qaddr, .bias, .arg0, .bitcntLo,
        .bitcntHi] then 0xFFFFFFFF
      else 0
    ∃ t, hostWrite r.offset 32 v s = .next t ∧ t = { s with regs := t.regs } ∧
      regRead t.regs r = (v &&& mask) ||| (regRead s.regs r &&& ~~~mask) ∧
      (r' ≠ r → regRead t.regs r' = regRead s.regs r')

/-- CTRL, STATUS and BBSTATE as the host reads them, field by field, the reserved bits 0; a host write to CTRL with bit 1 clear, at any time, sets IE to its bit 0 and changes nothing else; and a host write to STATUS, at any time, clears DONE, ERR and WERR exactly where it has a 1 and changes nothing else (10_state.md R26, R27, R38). -/
def Obligations.StatusWordsAndClearing : Prop :=
  ∀ (s : State) (v : Word),
    (regRead s.regs .ctrl).toNat = s.regs.ie.toNat ∧
      (regRead s.regs .status).toNat =
        s.regs.busy.toNat + 2 * s.regs.done.toNat + 4 * s.regs.err.toNat + 8 * s.regs.werr.toNat +
          2 ^ 8 * s.regs.errcode.toNat ∧
      (regRead s.regs .bbstate).toNat =
        s.regs.bb.acc.toNat + 2 ^ 8 * s.regs.bb.fill.toNat + 2 ^ 16 * s.regs.bb.isOpen.toNat ∧
      (v.getLsbD 1 = false →
        hostWrite 0x008 32 v s = .next { s with regs := { s.regs with ie := v.getLsbD 0 } }) ∧
      hostWrite 0x00C 32 v s =
        .next { s with
          regs :=
            { s.regs with
              done := s.regs.done && !v.getLsbD 1
              err := s.regs.err && !v.getLsbD 2
              werr := s.regs.werr && !v.getLsbD 3 } }

/-- While a command is in flight: registers read as they are; a write to CTRL (without SRST) or STATUS takes effect; every other register write, and every supported write to the ETAB, DTAB and CTAB windows or DMEM, is dropped and sets WERR; every supported read of those windows and of DMEM returns 0 and sets WERR; reserved offsets read 0, ignore writes and do not set WERR; nothing else changes (20_memory.md R73). That a refused read sets WERR, against R297 and R67, is the model's reading, log entry 9; the value a read returns is in `hostData`, log entry 7. -/
def Obligations.BusyAccessesAreRefused : Prop :=
  ∀ (s : State) (off : Nat) (v : Word), s.regs.busy = true →
    let dropped : State := { s with regs := { s.regs with werr := true } }
    (∀ r : RegName, hostRead r.offset 32 s = .next { s with hostData := regRead s.regs r }) ∧
      (v.getLsbD 1 = false →
        hostWrite 0x008 32 v s = .next { s with regs := { s.regs with ie := v.getLsbD 0 } }) ∧
      hostWrite 0x00C 32 v s =
        .next { s with
          regs :=
            { s.regs with
              done := s.regs.done && !v.getLsbD 1
              err := s.regs.err && !v.getLsbD 2
              werr := s.regs.werr && !v.getLsbD 3 } } ∧
      (∀ r : RegName, r ≠ .ctrl → r ≠ .status → hostWrite r.offset 32 v s = .next dropped) ∧
      (0x800 ≤ off → off < 0x2400 → off % 4 = 0 →
        hostWrite off 32 v s = .next dropped ∧
          hostRead off 32 s = .next { dropped with hostData := 0 }) ∧
      (∀ n, n = 1 ∨ n = 2 ∨ n = 4 → off % n = 0 → off + n ≤ s.dmem.size →
        hostWrite (0x10000 + off) (8 * n) v s = .next dropped ∧
          hostRead (0x10000 + off) (8 * n) s = .next { dropped with hostData := 0 }) ∧
      (off % 4 = 0 → (0x064 ≤ off ∧ off ≤ 0x7FC) ∨ (0x2400 ≤ off ∧ off ≤ 0xFFFC) →
        hostWrite off 32 v s = .next s ∧ hostRead off 32 s = .next { s with hostData := 0 })

/-- A host read while no command is in flight changes nothing but the data it returns, and a read of a register returns the register at any time (10_state.md R41; 20_memory.md R67). A refused read of a window or of DMEM while busy sets WERR, log entry 9, and is not said here; the value a read returns is in `hostData`, log entry 7. -/
def Obligations.HostReadsChangeNothing : Prop :=
  ∀ (s : State) (off width : Nat),
    (s.regs.busy = false → ∀ t, hostRead off width s = .next t → t = { s with hostData := t.hostData }) ∧
      ∀ r : RegName, hostRead r.offset 32 s = .next { s with hostData := regRead s.regs r }

/-- Reserved offsets read 0 and ignore writes, at any time, without any status effect (10_state.md R40). -/
def Obligations.ReservedOffsetsAreInert : Prop :=
  ∀ (s : State) (off : Nat) (v : Word), off % 4 = 0 →
    (0x064 ≤ off ∧ off ≤ 0x7FC) ∨ (0x2400 ≤ off ∧ off ≤ 0xFFFC) →
    hostWrite off 32 v s = .next s ∧ hostRead off 32 s = .next { s with hostData := 0 }

/-- The CTAB window reads the cosine table of the block size that CFG holds, 0 outside it and for an illegal block size, and ignores writes (10_state.md R44). -/
def Obligations.CtabWindowFollowsBlockSize : Prop :=
  ∀ (s : State) (x u : Nat) (v : Word), s.regs.busy = false → x ≤ 15 → u ≤ 15 →
    let n := s.regs.blkn.toNat
    let off := 0x2000 + 4 * (16 * x + u)
    hostRead off 32 s =
        .next { s with
          hostData := if 1 ≤ n ∧ n ≤ 16 ∧ x < n ∧ u < n then cosEntry n x u else 0 } ∧
      hostWrite off 32 v s = .next s

/-- The table windows: ETAB entries read as CODE and LEN and ignore writes; a write to a word of a DTAB entry stores its field and nothing else, and every DTAB word reads as its field (10_state.md R42, R43). -/
def Obligations.TableWindows : Prop :=
  ∀ (s : State) (i : Nat) (v : Word), s.regs.busy = false → i < 256 →
    let e := entryAt s.etab i ⟨0, 0⟩
    let d := entryAt s.dtab i ⟨0, 0, 0⟩
    hostRead (0x800 + 8 * i) 32 s = .next { s with hostData := e.code } ∧
      hostRead (0x804 + 8 * i) 32 s = .next { s with hostData := e.len.setWidth 32 } ∧
      hostWrite (0x800 + 8 * i) 32 v s = .next s ∧ hostWrite (0x804 + 8 * i) 32 v s = .next s ∧
      hostRead (0x1000 + 16 * i) 32 s = .next { s with hostData := d.code } ∧
      hostRead (0x1004 + 16 * i) 32 s = .next { s with hostData := d.len.setWidth 32 } ∧
      hostRead (0x1008 + 16 * i) 32 s = .next { s with hostData := d.value.setWidth 32 } ∧
      hostRead (0x100C + 16 * i) 32 s = .next { s with hostData := 0 } ∧
      ∀ word < 4, ∃ t, hostWrite (0x1000 + 16 * i + 4 * word) 32 v s = .next t ∧
        t = { s with dtab := t.dtab } ∧
        (∀ j < 256, j ≠ i → entryAt t.dtab j ⟨0, 0, 0⟩ = entryAt s.dtab j ⟨0, 0, 0⟩) ∧
        entryAt t.dtab i ⟨0, 0, 0⟩ =
          ⟨if word = 0 then v else d.code, if word = 1 then v.setWidth 6 else d.len,
            if word = 2 then v.setWidth 8 else d.value⟩

/-! ### Reset, interrupt and the whole machine -/

/-- A host write to CTRL with bit 1 set resets registers, tables and the command in flight at any time, whatever its other bits, and SRST reads back 0; DMEM keeps every byte but those the abandoned command would have written (70_reset_and_hazards.md R292, R293). -/
def Obligations.SoftResetRestoresEverythingButDmem : Prop :=
  ∀ (s : State) (v : Word), v.getLsbD 1 = true →
    ∃ t, hostWrite 0x008 32 v s = .next t ∧
      t.regs = State.reset.regs ∧ t.etab = State.reset.etab ∧ t.dtab = State.reset.dtab ∧
      t.inFlight = none ∧ t.irq = false ∧ (regRead t.regs .ctrl).getLsbD 1 = false ∧
      t.dmem.size = s.dmem.size ∧ t.dmem.powerOns = s.dmem.powerOns ∧
      (s.inFlight = none → t.dmem = s.dmem) ∧
      ∀ f, s.inFlight = some f → ∀ x,
        (∀ c ∈ (execWord f.cmdword f.pre).effects.writes, c.1 ≠ x) →
          t.dmem.byte x = s.dmem.byte x

/-- After a power-on reset every register reads the value of the reset column, every table entry is 0, no command is in flight, IRQ is 0 and no DMEM byte is written; and that is what a power-on step does to any state (70_reset_and_hazards.md R291; 10_state.md R23). The list of turns and the counter of power-ons are the model's own, log entries 1 and 6. -/
def Obligations.PowerOnResetState : Prop :=
  (∀ r : RegName, regRead State.reset.regs r =
    if r = .id then 0x4A504331 else if r = .version then 1 else if r = .cfg then 8 else 0) ∧
    (∀ i < 256, entryAt State.reset.etab i ⟨1, 1⟩ = ⟨0, 0⟩) ∧
    (∀ i < 256, entryAt State.reset.dtab i ⟨1, 1, 1⟩ = ⟨0, 0, 0⟩) ∧
    State.reset.inFlight = none ∧ State.reset.irq = false ∧ State.reset.dmem.cells = [] ∧
    ∀ (s : State) (rest : List Turn), s.turns = .powerOn :: rest →
      step s =
        .next { s with
          regs := State.reset.regs, etab := State.reset.etab, dtab := State.reset.dtab
          dmem := ⟨s.dmem.size, s.dmem.powerOns + 1, []⟩, inFlight := none, turns := rest }

/-- The interrupt line is IE and (DONE or ERR); after every completion it is IE, a launch drops it, and clearing DONE and ERR drops it, while WERR never raises it (60_exceptions.md R263; 10_state.md R49). -/
def Obligations.InterruptLine : Prop :=
  (∀ s : State, s.irq = (s.regs.ie && (s.regs.done || s.regs.err))) ∧
    (∀ (i : Instr) (s t : State), exec i s = .next t → t.irq = s.regs.ie) ∧
    (∀ (s t : State) (w : Word), s.regs.busy = false → hostWrite 0x010 32 w s = .next t →
      t.irq = false) ∧
    ∀ (s t : State), hostWrite 0x00C 32 0x0000000E s = .next t → t.irq = false

/-- Nothing the host does while a command is in flight, short of a reset, changes the command's result: from the state after the access it completes with the same DMEM, tables and registers as from the state before, but for CTRL.IE and WERR, which are the host's (10_state.md R46; 20_memory.md R66, R73; 40_command_model.md R119). -/
def Obligations.HostCannotDisturbACommand : Prop :=
  ∀ (s s' : State) (x : HostAccess), s.Inv → s.regs.busy = true → hostAccess x s = .next s' →
    s'.inFlight ≠ none →
    ∃ t t', engineStep s = .next t ∧ engineStep s' = .next t' ∧
      t'.dmem = t.dmem ∧ t'.etab = t.etab ∧ t'.dtab = t.dtab ∧
      t'.regs = { t.regs with ie := s'.regs.ie, werr := s'.regs.werr }

/-- A step stops only where the host's own access is unsupported, with the bus error, or where its program jumps to a label that no line of it defines; an access that is listed stops exactly where it is unsupported; with the engine or the platform to move, or nobody, the machine goes on; and with nothing in flight the engine's turn changes nothing (20_memory.md R64; 40_command_model.md R112, R118; 70_reset_and_hazards.md R297, R298). The list of turns and the host's program are the model's own, log entries 6 and 8. -/
def Obligations.OnlyTheHostCanStopTheMachine : Prop :=
  ∀ s : State,
    ((∀ t, step s ≠ .next t) →
      (step s = .fault .hostBusError ∧
        ((∃ x rest, s.turns = .access x :: rest ∧ ¬ supportedAt s.dmem.size x.place.1 x.place.2) ∨
          ∃ l p, s.lineToRun = some l ∧ l.place s.vars = some p ∧
            ¬ supportedAt s.dmem.size p.1 p.2)) ∨
      ∃ l k, s.lineToRun = some l ∧ l.target s.vars = some k ∧ .label k ∉ s.prog ∧
        step s = .refused (.hostLabelMissing k)) ∧
    (∀ x rest, s.turns = .access x :: rest →
      (supportedAt s.dmem.size x.place.1 x.place.2 → ∃ t, step s = .next t) ∧
        (¬ supportedAt s.dmem.size x.place.1 x.place.2 → step s = .fault .hostBusError)) ∧
    ((∀ x rest, s.turns ≠ .access x :: rest) → (∀ rest, s.turns ≠ .program :: rest) →
      (s.turns = [] → s.inFlight ≠ none ∨ s.prog.length ≤ s.progPos) →
      (∃ t, step s = .next t) ∧
        ∀ rest, s.turns = .complete :: rest → s.inFlight = none →
          step s = .next { s with turns := rest })

/-- Every step keeps the invariant: DMEM stays canonical and inside DMEM_BYTES, BUSY says whether a command is in flight and its snapshot stays true, the bit buffer, ETAB, MAXLEN and ERRCODE stay sound (10_state.md R27, R35, R38, R42, R46; 60_exceptions.md R260; 00_scope.md R9). -/
def Obligations.StepKeepsTheInvariant : Prop :=
  ∀ s t : State, s.Inv → step s = .next t → t.Inv

/-- The reset state meets the invariant (70_reset_and_hazards.md R291). -/
def Obligations.ResetMeetsTheInvariant : Prop := State.reset.Inv

/-- A span is in bounds iff it is empty or ends inside DMEM; two spans overlap iff they share an address (00_scope.md R13). -/
def Obligations.SpansAndOverlap : Prop :=
  (∀ (m : Dmem) (a len : Nat), inBounds m a len = true ↔ len = 0 ∨ a + len ≤ m.size) ∧
    ∀ a la b lb : Nat, overlap a la b lb = true ↔ ∃ x, (a ≤ x ∧ x < a + la) ∧ (b ≤ x ∧ x < b + lb)
end

