-- ==== Sys2Proof/Laws/Memory.lean ====
section
/-! SUPPORT. The laws of DMEM: reading back a write, leaving every other byte alone, and keeping the canonical form. -/

namespace Sys2Proof.Machine

theorem cellAt_setCell_same (cs : List Host.Cell) (a : Nat) (b : Byte) :
    cellAt (setCell cs a b) a = some b := by
  induction cs with
  | nil => simp [setCell, cellAt]
  | cons c cs ih =>
    obtain ⟨k, v⟩ := c
    unfold setCell
    split
    · simp [cellAt]
    · split
      · simp [cellAt]
      · next h => simp [cellAt, Ne.symm h, ih]

theorem cellAt_setCell_other (cs : List Host.Cell) {a a' : Nat} (b : Byte) (h : a' ≠ a) :
    cellAt (setCell cs a b) a' = cellAt cs a' := by
  induction cs with
  | nil => simp [setCell, cellAt, h.symm]
  | cons c cs ih =>
    obtain ⟨k, v⟩ := c
    unfold setCell
    split
    · simp [cellAt, h.symm]
    · split
      · next e => subst e; simp [cellAt, h.symm]
      · simp [cellAt, ih]

@[simp] theorem Dmem.setByte_size (m : Dmem) (a : Nat) (b : Byte) : (m.setByte a b).size = m.size := rfl
@[simp] theorem Dmem.setByte_powerOns (m : Dmem) (a : Nat) (b : Byte) :
    (m.setByte a b).powerOns = m.powerOns := rfl

@[simp] theorem Dmem.byte_setByte_same (m : Dmem) (a : Nat) (b : Byte) :
    (m.setByte a b).byte a = b := by
  simp [Dmem.byte, Dmem.setByte, cellAt_setCell_same]

theorem Dmem.byte_setByte_other (m : Dmem) {a a' : Nat} (b : Byte) (h : a' ≠ a) :
    (m.setByte a b).byte a' = m.byte a' := by
  simp [Dmem.byte, Dmem.setByte, cellAt_setCell_other _ _ h]

@[simp] theorem Dmem.setBytes_nil (m : Dmem) : m.setBytes [] = m := rfl
@[simp] theorem Dmem.setBytes_cons (m : Dmem) (c : Host.Cell) (ws : List Host.Cell) :
    m.setBytes (c :: ws) = (m.setByte c.1 c.2).setBytes ws := rfl
theorem Dmem.setBytes_append (m : Dmem) (us ws : List Host.Cell) :
    m.setBytes (us ++ ws) = (m.setBytes us).setBytes ws := by
  simp [Dmem.setBytes, List.foldl_append]

@[simp] theorem Dmem.setBytes_size (m : Dmem) (ws : List Host.Cell) :
    (m.setBytes ws).size = m.size := by
  induction ws generalizing m with
  | nil => rfl
  | cons c ws ih => simp [ih]

@[simp] theorem Dmem.setBytes_powerOns (m : Dmem) (ws : List Host.Cell) :
    (m.setBytes ws).powerOns = m.powerOns := by
  induction ws generalizing m with
  | nil => rfl
  | cons c ws ih => simp [ih]

/-- A byte no write goes to is unchanged. -/
theorem Dmem.byte_setBytes_other (m : Dmem) (ws : List Host.Cell) (a : Nat)
    (h : ∀ c ∈ ws, c.1 ≠ a) : (m.setBytes ws).byte a = m.byte a := by
  induction ws generalizing m with
  | nil => rfl
  | cons c ws ih =>
    rw [setBytes_cons, ih _ fun d hd => h d (by simp [hd])]
    exact byte_setByte_other m c.2 (h c (by simp)).symm

/-- What a byte that some write goes to reads as depends on the writes alone. -/
theorem Dmem.byte_setBytes_congr (m m' : Dmem) (ws : List Host.Cell) (a : Nat)
    (h : ∃ c ∈ ws, c.1 = a) : (m.setBytes ws).byte a = (m'.setBytes ws).byte a := by
  induction ws generalizing m m' with
  | nil => simp at h
  | cons c ws ih =>
    by_cases hw : ∃ d ∈ ws, d.1 = a
    · simpa using ih _ _ hw
    · have hn : ∀ d ∈ ws, d.1 ≠ a := fun d hd he => hw ⟨d, hd, he⟩
      obtain ⟨d, hd, rfl⟩ := h
      rcases List.mem_cons.1 hd with rfl | hd
      · simp [byte_setBytes_other _ _ _ hn]
      · exact absurd rfl (hn d hd)

theorem setCell_mem (cs : List Host.Cell) (a : Nat) (b : Byte) (c : Host.Cell)
    (h : c ∈ setCell cs a b) : c = (a, b) ∨ c ∈ cs := by
  induction cs with
  | nil => simpa [setCell] using h
  | cons d cs ih =>
    obtain ⟨k, v⟩ := d
    unfold setCell at h
    split at h
    · simpa using h
    · split at h
      · rcases List.mem_cons.1 h with h | h
        · exact .inl h
        · exact .inr (List.mem_cons_of_mem _ h)
      · rcases List.mem_cons.1 h with h | h
        · exact .inr (by simp [h])
        · exact (ih h).imp id (List.mem_cons_of_mem _)

theorem setCell_sorted (cs : List Host.Cell) (a : Nat) (b : Byte)
    (h : cs.Pairwise fun c d => c.1 < d.1) : (setCell cs a b).Pairwise fun c d => c.1 < d.1 := by
  induction cs with
  | nil => simp [setCell]
  | cons d cs ih =>
    obtain ⟨k, v⟩ := d
    rw [List.pairwise_cons] at h
    obtain ⟨h1, h2⟩ := h
    unfold setCell
    split
    · next hlt =>
      refine List.pairwise_cons.2 ⟨fun c hc => ?_, List.pairwise_cons.2 ⟨h1, h2⟩⟩
      rcases List.mem_cons.1 hc with rfl | hc
      · exact hlt
      · exact Nat.lt_trans hlt (h1 c hc)
    · split
      · next he => subst he; exact List.pairwise_cons.2 ⟨h1, h2⟩
      · next hn he =>
        refine List.pairwise_cons.2 ⟨fun c hc => ?_, ih h2⟩
        rcases setCell_mem _ _ _ _ hc with rfl | hc
        · exact lt_of_le_of_ne (Nat.le_of_not_lt hn) (Ne.symm he)
        · exact h1 c hc

/-- A write inside DMEM keeps the canonical form. -/
theorem Dmem.setByte_wf (m : Dmem) (a : Nat) (b : Byte) (h : m.wf) (ha : a < m.size) :
    (m.setByte a b).wf := by
  refine ⟨setCell_sorted _ _ _ h.1, fun c hc => ?_⟩
  rcases setCell_mem _ _ _ _ hc with rfl | hc
  · exact ha
  · exact h.2 c hc

/-- Writes inside DMEM keep the canonical form. -/
theorem Dmem.setBytes_wf (m : Dmem) (ws : List Host.Cell) (h : m.wf)
    (hw : ∀ c ∈ ws, c.1 < m.size) : (m.setBytes ws).wf := by
  induction ws generalizing m with
  | nil => exact h
  | cons c ws ih =>
    exact ih _ (setByte_wf m c.1 c.2 h (hw c (by simp))) fun d hd => by simpa using hw d (by simp [hd])

/-- DMEM after a power-on reset is canonical. -/
theorem Dmem.powerOn_wf (size n : Nat) : (Dmem.powerOn size n).wf := by simp [Dmem.powerOn, Dmem.wf]

/-- The memory of the reset state is canonical. -/
theorem State.reset_dmem_wf : State.reset.dmem.wf := Dmem.powerOn_wf _ _

@[simp] theorem bytesAt_length (a : Nat) (bs : List Byte) : (bytesAt a bs).length = bs.length := by
  induction bs generalizing a with
  | nil => rfl
  | cons b bs ih => simp [bytesAt, ih]

/-- Consecutive writes go to consecutive addresses. -/
theorem bytesAt_mem (a : Nat) (bs : List Byte) (c : Host.Cell) (h : c ∈ bytesAt a bs) :
    a ≤ c.1 ∧ c.1 < a + bs.length := by
  induction bs generalizing a with
  | nil => simp [bytesAt] at h
  | cons b bs ih =>
    rcases List.mem_cons.1 h with rfl | h
    · simp
    · have := ih (a + 1) h
      simp only [List.length_cons]
      omega

/-- Consecutive writes leave the bytes outside their span alone. -/
theorem Dmem.byte_bytesAt_other (m : Dmem) (a : Nat) (bs : List Byte) (x : Nat)
    (h : x < a ∨ a + bs.length ≤ x) : (m.setBytes (bytesAt a bs)).byte x = m.byte x := by
  refine byte_setBytes_other _ _ _ fun c hc he => ?_
  have := bytesAt_mem _ _ _ hc
  omega

/-- Consecutive writes are read back one by one. -/
theorem Dmem.byte_bytesAt (m : Dmem) (a : Nat) (bs : List Byte) (i : Nat) (h : i < bs.length) :
    (m.setBytes (bytesAt a bs)).byte (a + i) = bs[i] := by
  induction bs generalizing a m i with
  | nil => simp at h
  | cons b bs ih =>
    cases i with
    | zero =>
      rw [bytesAt, setBytes_cons, byte_bytesAt_other _ _ _ _ (by omega)]
      simp
    | succ i =>
      have := ih (m.setByte a b) (a + 1) i (by simpa using h)
      simpa [bytesAt, Nat.add_assoc, Nat.add_comm 1 i] using this

@[simp] theorem littleEndian_length (n v : Nat) : (littleEndian n v).length = n := by
  induction n generalizing v with
  | zero => rfl
  | succ n ih => simp [littleEndian, ih]

theorem littleEndian_getElem (n v i : Nat) (h : i < (littleEndian n v).length) :
    (littleEndian n v)[i] = BitVec.ofNat 8 (v / 256 ^ i) := by
  induction n generalizing v i with
  | zero => simp at h
  | succ n ih =>
    cases i with
    | zero => simp [littleEndian]
    | succ i => simp [littleEndian, ih, Nat.div_div_eq_div_mul, pow_succ, Nat.mul_comm]

@[simp] theorem memWrites_length (a n v : Nat) : (memWrites a n v).length = n := by simp [memWrites]
@[simp] theorem stF_length (a : Nat) (f : F32) : (stF a f).length = 4 := by simp [stF]

/-- Each byte of a written value (R9, R60). -/
theorem Dmem.byte_memWrites (m : Dmem) (a n v i : Nat) (h : i < n) :
    (m.setBytes (memWrites a n v)).byte (a + i) = BitVec.ofNat 8 (v / 256 ^ i) := by
  rw [memWrites, byte_bytesAt _ _ _ _ (by simpa using h), littleEndian_getElem]

theorem Dmem.byte_memWrites_other (m : Dmem) (a n v x : Nat) (h : x < a ∨ a + n ≤ x) :
    (m.setBytes (memWrites a n v)).byte x = m.byte x :=
  byte_bytesAt_other _ _ _ _ (by simpa using h)

theorem Dmem.read_congr (m m' : Dmem) (a n : Nat) (h : ∀ i < n, m.byte (a + i) = m'.byte (a + i)) :
    m.read a n = m'.read a n := by
  induction n generalizing a with
  | zero => rfl
  | succ n ih =>
    have h0 := h 0 (by omega)
    simp only [Nat.add_zero] at h0
    simp only [Dmem.read, h0]
    rw [ih (a + 1) fun i hi => by simpa [Nat.add_assoc, Nat.add_comm 1 i] using h (i + 1) (by omega)]

/-- MemRead after MemWrite at the same address gives the value's low bytes (R9). -/
theorem Dmem.read_memWrites (m : Dmem) (a n v : Nat) :
    (m.setBytes (memWrites a n v)).read a n = v % 256 ^ n := by
  induction n generalizing a v m with
  | zero => simp [Dmem.read, Nat.mod_one]
  | succ n ih =>
    have hb := byte_memWrites m a (n + 1) v 0 (by omega)
    simp only [Nat.add_zero, pow_zero, Nat.div_one] at hb
    simp only [Dmem.read, hb]
    have : memWrites a (n + 1) v = (a, BitVec.ofNat 8 v) :: memWrites (a + 1) n (v / 256) := rfl
    rw [this, setBytes_cons, ih, pow_succ, Nat.mul_comm (256 ^ n) 256, Nat.mod_mul]
    simp

/-- LdF after StF at the same address (R9). -/
theorem Dmem.ldF_stF (m : Dmem) (a : Nat) (f : F32) : (m.setBytes (stF a f)).ldF a = f := by
  simp only [Dmem.ldF, stF, read_memWrites]
  apply BitVec.eq_of_toNat_eq
  simpa using f.isLt

/-- LdF is unchanged by a StF to a disjoint word. -/
theorem Dmem.ldF_stF_other (m : Dmem) {a x : Nat} (f : F32) (h : x + 4 ≤ a ∨ a + 4 ≤ x) :
    (m.setBytes (stF a f)).ldF x = m.ldF x := by
  simp only [Dmem.ldF, stF]
  rw [Dmem.read_congr _ m x 4 fun i hi => byte_memWrites_other _ _ _ _ _ (by omega)]

theorem stF_mem (a : Nat) (f : F32) (c : Host.Cell) (h : c ∈ stF a f) : a ≤ c.1 ∧ c.1 < a + 4 := by
  have := bytesAt_mem _ _ _ h
  simpa using this

end Sys2Proof.Machine
end

