-- ==== Sys2Proof/Laws/State.lean ====
section
/-! SUPPORT. What each update of the state does to each field, one lemma per field per update. -/

namespace Sys2Proof.Machine

@[simp] theorem State.complete_regs (s : State) (r : Result) :
    (s.complete r).regs = completeStatus (r.effects.applyRegs s.regs) r.error := rfl
@[simp] theorem State.complete_etab (s : State) (r : Result) :
    (s.complete r).etab = r.effects.etab.getD s.etab := rfl
@[simp] theorem State.complete_dtab (s : State) (r : Result) :
    (s.complete r).dtab = r.effects.dtab.getD s.dtab := rfl
@[simp] theorem State.complete_dmem (s : State) (r : Result) :
    (s.complete r).dmem = s.dmem.setBytes r.effects.writes := rfl
@[simp] theorem State.complete_inFlight (s : State) (r : Result) :
    (s.complete r).inFlight = none := rfl
@[simp] theorem State.complete_aborts (s : State) (r : Result) :
    (s.complete r).aborts = s.aborts := rfl
@[simp] theorem State.complete_turns (s : State) (r : Result) :
    (s.complete r).turns = s.turns := rfl
@[simp] theorem State.complete_hostData (s : State) (r : Result) :
    (s.complete r).hostData = s.hostData := rfl
@[simp] theorem State.complete_prog (s : State) (r : Result) :
    (s.complete r).prog = s.prog := rfl
@[simp] theorem State.complete_progPos (s : State) (r : Result) :
    (s.complete r).progPos = s.progPos := rfl
@[simp] theorem State.complete_vars (s : State) (r : Result) :
    (s.complete r).vars = s.vars := rfl

@[simp] theorem State.launch_regs (s : State) (w : Word) :
    (s.launch w).regs = launchRegs s.regs w := rfl
@[simp] theorem State.launch_etab (s : State) (w : Word) :
    (s.launch w).etab = s.etab := rfl
@[simp] theorem State.launch_dtab (s : State) (w : Word) :
    (s.launch w).dtab = s.dtab := rfl
@[simp] theorem State.launch_dmem (s : State) (w : Word) :
    (s.launch w).dmem = s.dmem := rfl
@[simp] theorem State.launch_inFlight (s : State) (w : Word) :
    (s.launch w).inFlight = some ⟨w, { s.toArch with regs := launchRegs s.regs w }⟩ := rfl
@[simp] theorem State.launch_aborts (s : State) (w : Word) :
    (s.launch w).aborts = s.aborts := rfl
@[simp] theorem State.launch_turns (s : State) (w : Word) :
    (s.launch w).turns = s.turns := rfl
@[simp] theorem State.launch_hostData (s : State) (w : Word) :
    (s.launch w).hostData = s.hostData := rfl
@[simp] theorem State.launch_prog (s : State) (w : Word) :
    (s.launch w).prog = s.prog := rfl
@[simp] theorem State.launch_progPos (s : State) (w : Word) :
    (s.launch w).progPos = s.progPos := rfl
@[simp] theorem State.launch_vars (s : State) (w : Word) :
    (s.launch w).vars = s.vars := rfl

@[simp] theorem State.resetTo_regs (s : State) (m : Dmem) :
    (s.resetTo m).regs = Regs.reset := rfl
@[simp] theorem State.resetTo_etab (s : State) (m : Dmem) :
    (s.resetTo m).etab = etabReset := rfl
@[simp] theorem State.resetTo_dtab (s : State) (m : Dmem) :
    (s.resetTo m).dtab = dtabReset := rfl
@[simp] theorem State.resetTo_dmem (s : State) (m : Dmem) :
    (s.resetTo m).dmem = m := rfl
@[simp] theorem State.resetTo_inFlight (s : State) (m : Dmem) :
    (s.resetTo m).inFlight = none := rfl
@[simp] theorem State.resetTo_aborts (s : State) (m : Dmem) :
    (s.resetTo m).aborts = s.aborts := rfl
@[simp] theorem State.resetTo_turns (s : State) (m : Dmem) :
    (s.resetTo m).turns = s.turns := rfl
@[simp] theorem State.resetTo_hostData (s : State) (m : Dmem) :
    (s.resetTo m).hostData = s.hostData := rfl
@[simp] theorem State.resetTo_prog (s : State) (m : Dmem) :
    (s.resetTo m).prog = s.prog := rfl
@[simp] theorem State.resetTo_progPos (s : State) (m : Dmem) :
    (s.resetTo m).progPos = s.progPos := rfl
@[simp] theorem State.resetTo_vars (s : State) (m : Dmem) :
    (s.resetTo m).vars = s.vars := rfl

@[simp] theorem State.dropAccess_regs (s : State) :
    (s.dropAccess).regs = setWerr s.regs := rfl
@[simp] theorem State.dropAccess_etab (s : State) :
    (s.dropAccess).etab = s.etab := rfl
@[simp] theorem State.dropAccess_dtab (s : State) :
    (s.dropAccess).dtab = s.dtab := rfl
@[simp] theorem State.dropAccess_dmem (s : State) :
    (s.dropAccess).dmem = s.dmem := rfl
@[simp] theorem State.dropAccess_inFlight (s : State) :
    (s.dropAccess).inFlight = s.inFlight := rfl
@[simp] theorem State.dropAccess_aborts (s : State) :
    (s.dropAccess).aborts = s.aborts := rfl
@[simp] theorem State.dropAccess_turns (s : State) :
    (s.dropAccess).turns = s.turns := rfl
@[simp] theorem State.dropAccess_hostData (s : State) :
    (s.dropAccess).hostData = s.hostData := rfl
@[simp] theorem State.dropAccess_prog (s : State) :
    (s.dropAccess).prog = s.prog := rfl
@[simp] theorem State.dropAccess_progPos (s : State) :
    (s.dropAccess).progPos = s.progPos := rfl
@[simp] theorem State.dropAccess_vars (s : State) :
    (s.dropAccess).vars = s.vars := rfl

@[simp] theorem State.setVar_regs (s : State) (x : HostVar) (v : Int) :
    (s.setVar x v).regs = s.regs := rfl
@[simp] theorem State.setVar_etab (s : State) (x : HostVar) (v : Int) :
    (s.setVar x v).etab = s.etab := rfl
@[simp] theorem State.setVar_dtab (s : State) (x : HostVar) (v : Int) :
    (s.setVar x v).dtab = s.dtab := rfl
@[simp] theorem State.setVar_dmem (s : State) (x : HostVar) (v : Int) :
    (s.setVar x v).dmem = s.dmem := rfl
@[simp] theorem State.setVar_inFlight (s : State) (x : HostVar) (v : Int) :
    (s.setVar x v).inFlight = s.inFlight := rfl
@[simp] theorem State.setVar_aborts (s : State) (x : HostVar) (v : Int) :
    (s.setVar x v).aborts = s.aborts := rfl
@[simp] theorem State.setVar_turns (s : State) (x : HostVar) (v : Int) :
    (s.setVar x v).turns = s.turns := rfl
@[simp] theorem State.setVar_hostData (s : State) (x : HostVar) (v : Int) :
    (s.setVar x v).hostData = s.hostData := rfl
@[simp] theorem State.setVar_prog (s : State) (x : HostVar) (v : Int) :
    (s.setVar x v).prog = s.prog := rfl
@[simp] theorem State.setVar_progPos (s : State) (x : HostVar) (v : Int) :
    (s.setVar x v).progPos = s.progPos := rfl
@[simp] theorem State.setVar_vars (s : State) (x : HostVar) (v : Int) :
    (s.setVar x v).vars = setVarIn s.vars x v := rfl

@[simp] theorem State.nextLine_regs (s : State) :
    (s.nextLine).regs = s.regs := rfl
@[simp] theorem State.nextLine_etab (s : State) :
    (s.nextLine).etab = s.etab := rfl
@[simp] theorem State.nextLine_dtab (s : State) :
    (s.nextLine).dtab = s.dtab := rfl
@[simp] theorem State.nextLine_dmem (s : State) :
    (s.nextLine).dmem = s.dmem := rfl
@[simp] theorem State.nextLine_inFlight (s : State) :
    (s.nextLine).inFlight = s.inFlight := rfl
@[simp] theorem State.nextLine_aborts (s : State) :
    (s.nextLine).aborts = s.aborts := rfl
@[simp] theorem State.nextLine_turns (s : State) :
    (s.nextLine).turns = s.turns := rfl
@[simp] theorem State.nextLine_hostData (s : State) :
    (s.nextLine).hostData = s.hostData := rfl
@[simp] theorem State.nextLine_prog (s : State) :
    (s.nextLine).prog = s.prog := rfl
@[simp] theorem State.nextLine_progPos (s : State) :
    (s.nextLine).progPos = s.progPos + 1 := rfl
@[simp] theorem State.nextLine_vars (s : State) :
    (s.nextLine).vars = s.vars := rfl

@[simp] theorem State.failedWith_regs (s : State) (c : ErrCode) (info : Nat) :
    (s.failedWith c info).regs = { s.regs with busy := false, done := true, err := true, errcode := errNumber c, errinfo := BitVec.ofNat 32 info, outcnt := 0 } := rfl
@[simp] theorem State.failedWith_etab (s : State) (c : ErrCode) (info : Nat) :
    (s.failedWith c info).etab = s.etab := rfl
@[simp] theorem State.failedWith_dtab (s : State) (c : ErrCode) (info : Nat) :
    (s.failedWith c info).dtab = s.dtab := rfl
@[simp] theorem State.failedWith_dmem (s : State) (c : ErrCode) (info : Nat) :
    (s.failedWith c info).dmem = s.dmem := rfl
@[simp] theorem State.failedWith_inFlight (s : State) (c : ErrCode) (info : Nat) :
    (s.failedWith c info).inFlight = none := rfl
@[simp] theorem State.failedWith_aborts (s : State) (c : ErrCode) (info : Nat) :
    (s.failedWith c info).aborts = s.aborts := rfl
@[simp] theorem State.failedWith_turns (s : State) (c : ErrCode) (info : Nat) :
    (s.failedWith c info).turns = s.turns := rfl
@[simp] theorem State.failedWith_hostData (s : State) (c : ErrCode) (info : Nat) :
    (s.failedWith c info).hostData = s.hostData := rfl
@[simp] theorem State.failedWith_prog (s : State) (c : ErrCode) (info : Nat) :
    (s.failedWith c info).prog = s.prog := rfl
@[simp] theorem State.failedWith_progPos (s : State) (c : ErrCode) (info : Nat) :
    (s.failedWith c info).progPos = s.progPos := rfl
@[simp] theorem State.failedWith_vars (s : State) (c : ErrCode) (info : Nat) :
    (s.failedWith c info).vars = s.vars := rfl

@[simp] theorem State.doneWith_regs (s : State) (m : Dmem) (n : Nat) :
    (s.doneWith m n).regs = { s.regs with busy := false, done := true, errcode := 0x00, errinfo := 0, outcnt := BitVec.ofNat 32 n } := rfl
@[simp] theorem State.doneWith_etab (s : State) (m : Dmem) (n : Nat) :
    (s.doneWith m n).etab = s.etab := rfl
@[simp] theorem State.doneWith_dtab (s : State) (m : Dmem) (n : Nat) :
    (s.doneWith m n).dtab = s.dtab := rfl
@[simp] theorem State.doneWith_dmem (s : State) (m : Dmem) (n : Nat) :
    (s.doneWith m n).dmem = m := rfl
@[simp] theorem State.doneWith_inFlight (s : State) (m : Dmem) (n : Nat) :
    (s.doneWith m n).inFlight = none := rfl
@[simp] theorem State.doneWith_aborts (s : State) (m : Dmem) (n : Nat) :
    (s.doneWith m n).aborts = s.aborts := rfl
@[simp] theorem State.doneWith_turns (s : State) (m : Dmem) (n : Nat) :
    (s.doneWith m n).turns = s.turns := rfl
@[simp] theorem State.doneWith_hostData (s : State) (m : Dmem) (n : Nat) :
    (s.doneWith m n).hostData = s.hostData := rfl
@[simp] theorem State.doneWith_prog (s : State) (m : Dmem) (n : Nat) :
    (s.doneWith m n).prog = s.prog := rfl
@[simp] theorem State.doneWith_progPos (s : State) (m : Dmem) (n : Nat) :
    (s.doneWith m n).progPos = s.progPos := rfl
@[simp] theorem State.doneWith_vars (s : State) (m : Dmem) (n : Nat) :
    (s.doneWith m n).vars = s.vars := rfl

@[simp] theorem State.powerOn_dmem (s : State) :
    s.powerOn.dmem = Dmem.powerOn s.dmem.size (s.dmem.powerOns + 1) := rfl
@[simp] theorem State.powerOn_regs (s : State) : s.powerOn.regs = Regs.reset := rfl
@[simp] theorem State.powerOn_etab (s : State) : s.powerOn.etab = etabReset := rfl
@[simp] theorem State.powerOn_dtab (s : State) : s.powerOn.dtab = dtabReset := rfl
@[simp] theorem State.powerOn_inFlight (s : State) : s.powerOn.inFlight = none := rfl
@[simp] theorem State.powerOn_aborts (s : State) : s.powerOn.aborts = s.aborts := rfl
@[simp] theorem State.powerOn_turns (s : State) : s.powerOn.turns = s.turns := rfl

theorem State.operands_none (s : State) (h : s.inFlight = none) : s.operands = s.toArch := by
  simp [State.operands, h]
theorem State.operands_some (s : State) (f : InFlight) (h : s.inFlight = some f) :
    s.operands = f.pre := by
  simp [State.operands, h]

/-- A launched command's operands are the state right after the launch (R110). -/
@[simp] theorem State.launch_operands (s : State) (w : Word) :
    (s.launch w).operands = { s.toArch with regs := launchRegs s.regs w } := rfl

@[simp] theorem State.placeCommand_turns (s : State) (nbits w : Nat) :
    (s.placeCommand nbits w).turns = [] := rfl
@[simp] theorem State.placeCommand_inFlight (s : State) (nbits w : Nat) :
    (s.placeCommand nbits w).inFlight = (s.launch (BitVec.ofNat 32 (w % 2 ^ nbits))).inFlight := rfl

/-- Nothing in flight: there is nothing to abandon (R293). -/
theorem State.abandon_none (s : State) (h : s.inFlight = none) : s.abandon = s := by
  simp [State.abandon, h]
@[simp] theorem State.softReset_regs (s : State) : s.softReset.regs = Regs.reset := rfl
@[simp] theorem State.softReset_etab (s : State) : s.softReset.etab = etabReset := rfl
@[simp] theorem State.softReset_dtab (s : State) : s.softReset.dtab = dtabReset := rfl
@[simp] theorem State.softReset_dmem (s : State) : s.softReset.dmem = s.abandon.dmem := rfl
@[simp] theorem State.softReset_inFlight (s : State) : s.softReset.inFlight = none := rfl

end Sys2Proof.Machine
end

