-- ==== Sys2Proof/Laws/Exec.lean ====
section
/-! SUPPORT. What completing a command, and each shared operation of the commands, can do: one lemma per operation. -/

namespace Sys2Proof.Machine

/-- Every command completes: its Exec is applied to the state (R112, R118, R119). -/
theorem exec_eq (i : Instr) (s : State) : exec i s = .next (s.complete (resultOf i s.operands)) := by
  cases i <;> rfl

/-- If `exec` answers a next state, it is the completion. -/
theorem exec_next (i : Instr) (s t : State) (h : exec i s = .next t) :
    t = s.complete (resultOf i s.operands) := by
  rw [exec_eq] at h
  injection h with h
  exact h.symm

/-- The engine's step, with a command in flight, is the completion of its word (R112, R119). -/
theorem engineStep_eq (s : State) (f : InFlight) (h : s.inFlight = some f) :
    engineStep s = .next (s.complete (execWord f.cmdword f.pre)) := by
  cases hd : decode f.cmdword with
  | ok i => simp only [engineStep, h, execWord, hd, exec_eq, State.operands_some _ _ h]
  | error e => simp only [engineStep, h, execWord, hd, execIllegal]

/-- With nothing in flight the engine does nothing (R112). -/
theorem engineStep_none (s : State) (h : s.inFlight = none) : engineStep s = .next s := by
  simp [engineStep, h]

/-- The error that a list of checks raises is that of a check of it that fails (R115). -/
theorem firstError_mem (cs : List Check) (e : ErrCode × Nat) (h : firstError cs = some e) :
    ∃ c ∈ cs, c.fails = true ∧ (c.code, c.info) = e := by
  induction cs with
  | nil => simp [firstError] at h
  | cons c cs ih =>
    unfold firstError at h
    split at h
    · next hf => exact ⟨c, by simp, hf, by simpa using h⟩
    · obtain ⟨d, hd, hr⟩ := ih h
      exact ⟨d, by simp [hd], hr⟩

/-- No error is raised exactly when every check passes (R115). -/
theorem firstError_none (cs : List Check) : firstError cs = none ↔ ∀ c ∈ cs, c.fails = false := by
  induction cs with
  | nil => simp [firstError]
  | cons c cs ih =>
    unfold firstError
    split
    · next hf => simp [hf]
    · next hf => simp [ih, Bool.eq_false_iff.2 hf]

theorem firstError_append (cs ds : List Check) :
    firstError (cs ++ ds) = (firstError cs).or (firstError ds) := by
  induction cs with
  | nil => rfl
  | cons c cs ih =>
    simp only [List.cons_append, firstError, ih]
    split <;> rfl

/-- A checked command either raises its first failing check's error and writes nothing, or runs (R115, R264). -/
theorem checked_cases (cs : List Check) (run : Unit → Result) :
    (∃ e, firstError cs = some e ∧ checked cs run = { error := some e }) ∨
      (firstError cs = none ∧ checked cs run = run ()) := by
  unfold checked
  cases h : firstError cs with
  | none => exact .inr ⟨rfl, rfl⟩
  | some e => exact .inl ⟨e, rfl, rfl⟩

theorem checked_error (cs : List Check) (run : Unit → Result) (e : ErrCode × Nat)
    (h : firstError cs = some e) : checked cs run = { error := some e } := by
  simp [checked, h]

theorem checked_ok (cs : List Check) (run : Unit → Result) (h : firstError cs = none) :
    checked cs run = run () := by
  simp [checked, h]

/-- A completion that reports an error and has no effects leaves exactly `failedWith` (R113, R264). -/
theorem complete_failed (s : State) (c : ErrCode) (info : Nat) :
    s.complete { error := some (c, info) } = s.failedWith c info := rfl

/-- A completion without error that wrote only DMEM leaves exactly `doneWith` (R113, R116). -/
theorem complete_done (s : State) (ws : List Host.Cell) :
    s.complete { effects := { writes := ws } } = s.doneWith (s.dmem.setBytes ws) ws.length := rfl

/-- A completion leaves DMEM_BYTES, the draws and the host as they are, and nothing in flight (R112). -/
theorem complete_keeps (s : State) (r : Result) :
    (s.complete r).inFlight = none ∧ (s.complete r).dmem.size = s.dmem.size ∧
      (s.complete r).dmem.powerOns = s.dmem.powerOns ∧ (s.complete r).aborts = s.aborts ∧
      (s.complete r).turns = s.turns ∧ (s.complete r).hostData = s.hostData ∧
      (s.complete r).prog = s.prog ∧ (s.complete r).progPos = s.progPos ∧
      (s.complete r).vars = s.vars := by
  simp

/-- The steps of a sequence write what each writes, in their order (R154). -/
theorem inSequence_append (step : Nat → Dmem → List Host.Cell) (ks ls : List Nat) (m : Dmem) :
    inSequence step (ks ++ ls) m =
      inSequence step ks m ++ inSequence step ls (m.setBytes (inSequence step ks m)) := by
  induction ks generalizing m with
  | nil => rfl
  | cons k ks ih => simp [inSequence, ih, Dmem.setBytes_append]

/-- Every write of a sequence is a write of one of its steps. -/
theorem inSequence_mem (step : Nat → Dmem → List Host.Cell) (ks : List Nat) (m : Dmem)
    (c : Host.Cell) (h : c ∈ inSequence step ks m) : ∃ k ∈ ks, ∃ m', c ∈ step k m' := by
  induction ks generalizing m with
  | nil => simp [inSequence] at h
  | cons k ks ih =>
    rcases List.mem_append.1 h with h | h
    · exact ⟨k, by simp, m, h⟩
    · obtain ⟨l, hl, hr⟩ := ih _ h
      exact ⟨l, by simp [hl], hr⟩

/-- A sequence of steps that each write `n` bytes writes n bytes a step (R116). -/
theorem inSequence_length (step : Nat → Dmem → List Host.Cell) (n : Nat)
    (h : ∀ k m, (step k m).length = n) (ks : List Nat) (m : Dmem) :
    (inSequence step ks m).length = ks.length * n := by
  induction ks generalizing m with
  | nil => simp [inSequence]
  | cons k ks ih => simp [inSequence, h, ih, Nat.succ_mul, Nat.add_comm]

theorem elemAt_matrixOf (n : Nat) (f : Nat → Nat → F32) {i j : Nat} (hi : i < n) (hj : j < n) :
    elemAt (matrixOf n f) i j = f i j := by
  simp [elemAt, matrixOf, hi, hj]

/-- BlockStore writes 4·n² bytes (R155). -/
theorem blockStore_length (p w n br bc : Nat) (x : Matrix32) :
    (blockStore p w n br bc x).length = 4 * (n * n) := by
  simp [blockStore, List.length_flatMap, Nat.mul_comm, Nat.mul_assoc]

theorem entryAt_tableOf {α : Type} (f : Nat → α) (d : α) {i : Nat} (h : i < 256) :
    entryAt (tableOf f) i d = f i := by
  simp [entryAt, tableOf, h]

end Sys2Proof.Machine
end

