-- ==== Sys2Proof/Laws/Huffman.lean ====
section
/-! SUPPORT. The node list of HENC: an insertion keeps the nodes, and keeps them in the order of R202. -/

namespace Sys2Proof.Machine

/-- The Boolean comparison of the builder is the order of R202. -/
theorem HuffNode.before_iff (a b : HuffNode) : a.before b = true ↔ a.below b := by
  simp [HuffNode.before, HuffNode.below]

theorem HuffNode.below_trans {a b c : HuffNode} (h : a.below b) (k : b.below c) : a.below c := by
  simp only [HuffNode.below] at *
  omega

/-- Of two nodes with different keys one is below the other (R202). -/
theorem HuffNode.below_total {a b : HuffNode} (h : a.key ≠ b.key) : a.below b ∨ b.below a := by
  simp only [HuffNode.below]
  omega

/-- Inserting a node adds it and moves nothing in or out. -/
theorem insertNode_perm (x : HuffNode) (ns : List HuffNode) : (insertNode x ns).Perm (x :: ns) := by
  induction ns with
  | nil => exact .refl _
  | cons y ys ih =>
    unfold insertNode
    split
    · exact .refl _
    · exact (ih.cons y).trans (.swap x y ys)

/-- Inserting a node with a key of its own keeps the list in order. -/
theorem insertNode_sorted (x : HuffNode) (ns : List HuffNode) (h : ns.Pairwise HuffNode.below)
    (hk : ∀ y ∈ ns, y.key ≠ x.key) : (insertNode x ns).Pairwise HuffNode.below := by
  induction ns with
  | nil => simp [insertNode]
  | cons y ys ih =>
    obtain ⟨h1, h2⟩ := List.pairwise_cons.1 h
    unfold insertNode
    split
    · next hb =>
      rw [HuffNode.before_iff] at hb
      refine List.pairwise_cons.2 ⟨fun z hz => ?_, h⟩
      rcases List.mem_cons.1 hz with rfl | hz
      · exact hb
      · exact HuffNode.below_trans hb (h1 z hz)
    · next hb =>
      have hyx : y.below x := by
        rcases HuffNode.below_total (hk y (by simp)) with h | h
        · exact h
        · exact absurd ((HuffNode.before_iff x y).2 h) hb
      refine List.pairwise_cons.2 ⟨fun z hz => ?_, ih h2 fun z hz => hk z (by simp [hz])⟩
      rcases List.mem_cons.1 ((insertNode_perm x ys).mem_iff.1 hz) with rfl | hz
      · exact hyx
      · exact h1 z hz

end Sys2Proof.Machine
end

