-- ==== Sys2Proof/Laws/PerInstr.lean ====
section
/-! SUPPORT. Per-instruction facts about the commands as they are written: the fields of a well-formed command's word (30_encoding.md R90, R96). -/

namespace Sys2Proof.Laws.WordFields

/-- The word of a well-formed command has its OP in bits 7:0, its modifier in bits 13:8 and 0 above (R90). -/
def Statement (i : Instr) : Prop :=
  i.wf = true →
    bitField (encode i) 0 8 = i.op ∧ bitField (encode i) 8 6 = i.modifier ∧ (encode i).toNat < 2 ^ 14

theorem nop : Statement .nop := fun _ => by decide
theorem csc (fmt : Nat) : Statement (.csc fmt) := fun h => by
  have h : fmt < 16 := by simpa [Instr.wf] using h
  interval_cases fmt <;> decide
theorem fdct (sep : Bool) : Statement (.fdct sep) := fun _ => by cases sep <;> decide
theorem idct (sep : Bool) : Statement (.idct sep) := fun _ => by cases sep <;> decide
theorem qzz : Statement .qzz := fun _ => by decide
theorem dqzz : Statement .dqzz := fun _ => by decide
theorem henc : Statement .henc := fun _ => by decide
theorem hdec : Statement .hdec := fun _ => by decide
theorem bbrst : Statement .bbrst := fun _ => by decide
theorem bbadd (len : Nat) : Statement (.bbadd len) := fun h => by
  have h : len < 64 := by simpa [Instr.wf] using h
  interval_cases len <;> decide
theorem bbfin : Statement .bbfin := fun _ => by decide

end Sys2Proof.Laws.WordFields
end

