-- ==== Sys2Proof/Laws/Port.lean ====
section
/-! SUPPORT. What a host access and a turn can do: one lemma per operation. -/

namespace Sys2Proof.Machine

/-- A register's own offset names the register (R23). -/
@[simp] theorem regionOf_offset (r : RegName) : regionOf r.offset = .reg r := by cases r <;> decide

/-- A register's offset is a supported one, below the DMEM aperture (R23, R62). -/
theorem RegName.offset_supported (r : RegName) :
    r.offset < apertureBase ∧ supportedRegister r.offset 32 = true := by
  cases r <;> decide

/-- An offset that JPC serves is one that the port's own two tests accept (R62, R63, R64). -/
theorem supportedAt_some (m : Dmem) (o width : Nat) :
    supportedAt m.size (some o) width ↔
      (o < apertureBase ∧ supportedRegister o width = true) ∨
        (apertureBase ≤ o ∧ supportedDmem m (o - apertureBase) width = true) := by
  simp only [supportedAt, Option.some.injEq, exists_eq_left', supportedRegister, supportedDmem,
    show apertureBase = 0x10000 from rfl, Bool.and_eq_true, Bool.or_eq_true, decide_eq_true_eq,
    or_assoc, and_assoc]

/-- No place, no access. -/
theorem supportedAt_none (size width : Nat) : ¬ supportedAt size none width := by
  simp [supportedAt]

/-- A host write is refused with the bus error, or writes a word of the register block, or bytes of DMEM, or is dropped (R62 to R64, R73). -/
theorem hostWrite_cases (off width : Nat) (v : Word) (s : State) :
    hostWrite off width v s = .fault .hostBusError ∨
      (off < apertureBase ∧ supportedRegister off width = true ∧
        hostWrite off width v s = .next (writeWord v s (regionOf off))) ∨
      (apertureBase ≤ off ∧ supportedDmem s.dmem (off - apertureBase) width = true ∧
        s.regs.busy = true ∧ hostWrite off width v s = .next s.dropAccess) ∨
      (apertureBase ≤ off ∧ supportedDmem s.dmem (off - apertureBase) width = true ∧
        s.regs.busy = false ∧
        hostWrite off width v s =
          .next { s with
            dmem := s.dmem.setBytes (memWrites (off - apertureBase) (width / 8) v.toNat) }) := by
  unfold hostWrite
  split
  · next h =>
    split
    · next hs => exact .inr (.inl ⟨h, hs, rfl⟩)
    · exact .inl rfl
  · next h =>
    split
    · next hs =>
      cases hb : s.regs.busy
      · exact .inr (.inr (.inr ⟨Nat.le_of_not_lt h, hs, rfl, rfl⟩))
      · exact .inr (.inr (.inl ⟨Nat.le_of_not_lt h, hs, rfl, rfl⟩))
    · exact .inl rfl

/-- A word written to the register block resets the machine, launches a command, is dropped, or changes registers or DTAB alone. -/
theorem writeWord_cases (v : Word) (s : State) (r : Region) :
    writeWord v s r = s.softReset ∨ (s.regs.busy = false ∧ writeWord v s r = s.launch v) ∨
      writeWord v s r = s.dropAccess ∨ writeWord v s r = s ∨
      (∃ ie, writeWord v s r = { s with regs := { s.regs with ie := ie } }) ∨
      writeWord v s r = { s with regs := writeStatus s.regs v } ∨
      (s.regs.busy = false ∧ ∃ n, writeWord v s r = { s with regs := regStore s.regs v n }) ∨
      (s.regs.busy = false ∧ ∃ i w, writeWord v s r = { s with dtab := dtabStore s.dtab i w v }) := by
  cases hb : s.regs.busy
  · cases r with
    | reg n =>
      cases n with
      | ctrl =>
        by_cases hv : v.getLsbD 1
        · exact .inl (if_pos hv)
        · exact .inr (.inr (.inr (.inr (.inl ⟨v.getLsbD 0, if_neg hv⟩))))
      | status => exact .inr (.inr (.inr (.inr (.inr (.inl rfl)))))
      | cmd => exact .inr (.inl ⟨rfl, by simp [writeWord, hb]⟩)
      | _ => exact .inr (.inr (.inr (.inr (.inr (.inr (.inl ⟨rfl, _, by simp [writeWord, hb]; rfl⟩))))))
    | reserved => exact .inr (.inr (.inr (.inl rfl)))
    | etab b w => exact .inr (.inr (.inr (.inl (by simp [writeWord, hb]))))
    | dtab i w =>
      exact .inr (.inr (.inr (.inr (.inr (.inr (.inr ⟨rfl, i, w, by simp [writeWord, hb]⟩))))))
    | ctab x u => exact .inr (.inr (.inr (.inl (by simp [writeWord, hb]))))
  · cases r with
    | reg n =>
      cases n with
      | ctrl =>
        by_cases hv : v.getLsbD 1
        · exact .inl (if_pos hv)
        · exact .inr (.inr (.inr (.inr (.inl ⟨v.getLsbD 0, if_neg hv⟩))))
      | status => exact .inr (.inr (.inr (.inr (.inr (.inl rfl)))))
      | _ => exact .inr (.inr (.inl (by simp [writeWord, hb])))
    | reserved => exact .inr (.inr (.inr (.inl rfl)))
    | etab b w => exact .inr (.inr (.inl (by simp [writeWord, hb])))
    | dtab i w => exact .inr (.inr (.inl (by simp [writeWord, hb])))
    | ctab x u => exact .inr (.inr (.inl (by simp [writeWord, hb])))

/-- A read of a word of the register block changes nothing, or is dropped with WERR (R67, R73). -/
theorem afterRead_cases (s : State) (r : Region) :
    afterRead s r = s ∨ (s.regs.busy = true ∧ afterRead s r = s.dropAccess) := by
  cases hb : s.regs.busy <;> cases r <;> simp [afterRead, hb]

/-- A host read changes nothing but the host's data, and WERR when it is dropped (R67, R73). -/
theorem hostRead_cases (off width : Nat) (s : State) :
    hostRead off width s = .fault .hostBusError ∨
      (∃ d, hostRead off width s = .next { s with hostData := d }) ∨
      (s.regs.busy = true ∧ ∃ d, hostRead off width s = .next { s.dropAccess with hostData := d }) := by
  unfold hostRead
  split
  · split
    · rcases afterRead_cases s (regionOf off) with h | ⟨hb, h⟩
      · exact .inr (.inl ⟨readWord s (regionOf off), by rw [h]⟩)
      · exact .inr (.inr ⟨hb, readWord s (regionOf off), by rw [h]⟩)
    · exact .inl rfl
  · split
    · cases hb : s.regs.busy
      · exact .inr (.inl ⟨_, rfl⟩)
      · exact .inr (.inr ⟨rfl, _, rfl⟩)
    · exact .inl rfl

/-- One step is the step of the agent whose turn it is (R297). -/
theorem step_turn (s : State) (t : Turn) (rest : List Turn) (h : s.turns = t :: rest) :
    step s = takeTurn t { s with turns := rest } := by
  simp [step, agentStep, h]

theorem step_engine (s : State) (h : s.turns = []) (hf : s.inFlight.isSome = true) :
    step s = engineStep s := by
  simp [step, agentStep, h, hf]

theorem step_host (s : State) (h : s.turns = []) (hf : s.inFlight.isSome = false) :
    step s = hostProgramStep s := by
  simp [step, agentStep, h, hf]

end Sys2Proof.Machine
end

