-- ==== Sys2Proof/Tests/Slice0.lean ====
section
/-! SUPPORT. Tests of the model against words, examples and vectors of the spec, and for each obligation with hypotheses a concrete case that meets them. -/

namespace Sys2Proof.Tests

open Sys2Proof Sys2Proof.Machine

set_option Elab.async false

/-! ### WellFormed refuses what has no encoding -/

theorem test_wf_refuses_wide_fmt : (Instr.csc 16).wf = false := by decide
theorem test_wf_refuses_wide_len : (Instr.bbadd 64).wf = false := by decide
theorem test_wf_admits_widest_fields :
    (Instr.csc 15).wf = true ∧ (Instr.bbadd 63).wf = true := by decide

/-! ### Words written out from the opcode map (30_encoding.md R96): F in bits 13:8, OP in bits 7:0 -/

theorem test_word_nop : decode 0b000000000000000000_000000_00000000 = .ok .nop := by decide
theorem test_word_csc : decode 0b000000000000000000_001111_00000001 = .ok (.csc 15) := by decide
theorem test_word_fdct : decode 0b000000000000000000_000001_00000010 = .ok (.fdct true) := by decide
theorem test_word_idct : decode 0b000000000000000000_000000_00000011 = .ok (.idct false) := by decide
theorem test_word_qzz : decode 0b000000000000000000_000000_00000100 = .ok .qzz := by decide
theorem test_word_dqzz : decode 0b000000000000000000_000000_00000101 = .ok .dqzz := by decide
theorem test_word_henc : decode 0b000000000000000000_000000_00000110 = .ok .henc := by decide
theorem test_word_hdec : decode 0b000000000000000000_000000_00000111 = .ok .hdec := by decide
theorem test_word_bbrst : decode 0b000000000000000000_000000_00001000 = .ok .bbrst := by decide
theorem test_word_bbadd : decode 0b000000000000000000_110001_00001001 = .ok (.bbadd 49) := by decide
theorem test_word_bbfin : decode 0b000000000000000000_000000_00001010 = .ok .bbfin := by decide

/-- One word with each kind of reserved bit set, and the two ends of the reserved OPs (30_encoding.md R90, R95, R97). -/
theorem test_words_rejected :
    decode 0x00004009 = .error .reservedBits ∧ decode 0x00001001 = .error .reservedBits ∧
      decode 0x00000202 = .error .reservedBits ∧ decode 0x80000003 = .error .reservedBits ∧
      decode 0x00000100 = .error .reservedBits ∧ decode 0x0000000B = .error (.reservedOp 0x0B) ∧
      decode 0x000000FF = .error (.reservedOp 0xFF) := by decide

/-! ### Small states -/

/-- The reset machine with the registers given and bytes written to DMEM. -/
def st (r : Regs) (ws : List Host.Cell := []) : State :=
  { State.reset with regs := r, dmem := State.reset.dmem.setBytes ws }

/-- Binary32 words stored from an address on. -/
def at32 (a : Nat) (fs : List F32) : List Host.Cell := bytesAt a (fs.flatMap fun f => littleEndian 4 f.toNat)

/-- The state after a command. -/
def after (i : Instr) (s : State) : State :=
  match exec i s with
  | .next t => t
  | _ => s

/-- STATUS, ERRINFO and OUTCNT after a command. -/
def report (i : Instr) (s : State) : Nat × Nat × Nat :=
  let t := after i s
  ((regRead t.regs .status).toNat, t.regs.errinfo.toNat, t.regs.outcnt.toNat)

/-- The binary32 words at an address after a command. -/
def out32 (i : Instr) (s : State) (a n : Nat) : List F32 :=
  (List.range n).map fun k => (after i s).dmem.ldF (a + 4 * k)

/-- The bytes at an address after a command. -/
def out8 (i : Instr) (s : State) (a n : Nat) : List Byte :=
  (List.range n).map fun k => (after i s).dmem.byte (a + k)

/-- The registers of a plane command: block size, width, height, source, destination. -/
def planeRegs (n w h src dst : Nat) : Regs :=
  { Regs.reset with
    blkn := BitVec.ofNat 5 n, width := BitVec.ofNat 32 w, height := BitVec.ofNat 32 h
    src := BitVec.ofNat 32 src, dst := BitVec.ofNat 32 dst }

/-! ### The spec's examples and vectors (95_test_vectors.md) -/

/-- R117's example. -/
theorem test_nop : report .nop State.reset = (0x00000002, 0, 0) := by decide +kernel

/-- K3. -/
theorem test_csc_red :
    let s := st { Regs.reset with count := 1, plane := 0x40, dst := 0x100 }
      (at32 0 [0x437F0000] ++ at32 0x40 [0] ++ at32 0x80 [0])
    (List.range 6).map (fun j => (after (.csc 0) s).dmem.ldF (0x100 + 0x40 * j)) =
      [0x437F0000, 0, 0, 0x42A2F661, 0x42B4680D, 0x436FFFF2] := by decide +kernel

/-- K12: a NaN Cb leaves R finite. -/
theorem test_csc_nan :
    let s := st { Regs.reset with count := 1, plane := 0x40, dst := 0x100 }
      (at32 0 [0x42C80000] ++ at32 0x40 [0x7FC00000] ++ at32 0x80 [0x43000000])
    (List.range 6).map (fun j => (after (.csc 1) s).dmem.ldF (0x100 + 0x40 * j)) =
      [0x42C39E1A, 0x7FC00000, 0x7FC00000, 0x42C80000, 0x7FC00000, 0x43000000] := by decide +kernel

/-- The block [[1, 2], [3, 4]] at 0, transformed to 0x400. -/
def block2 : State := st (planeRegs 2 2 2 0 0x400) (at32 0 [0x3F800000, 0x40000000, 0x40400000, 0x40800000])

/-- T3. -/
theorem test_fdct_direct :
    out32 (.fdct false) block2 0x400 4 = [0x409FFFFF, 0xBF800000, 0xBFFFFFFF, 0] := by decide +kernel

/-- T4. -/
theorem test_fdct_separable :
    out32 (.fdct true) block2 0x400 4 = [0x40A00000, 0xBF800000, 0xC0000000, 0x33000000] := by
  decide +kernel

/-- T5, of T3's output. -/
theorem test_idct_direct :
    out32 (.idct false)
      (st (planeRegs 2 2 2 0 0x400) (at32 0 [0x409FFFFF, 0xBF800000, 0xBFFFFFFF, 0])) 0x400 4 =
      [0x3F7FFFFA, 0x3FFFFFFD, 0x403FFFFE, 0x407FFFFE] := by decide +kernel

/-- T8, of T4's output. -/
theorem test_idct_separable :
    out32 (.idct true)
      (st (planeRegs 2 2 2 0 0x400) (at32 0 [0x40A00000, 0xBF800000, 0xC0000000, 0x33000000]))
      0x400 4 = [0x3F7FFFFE, 0x3FFFFFFF, 0x40400000, 0x40800000] := by decide +kernel

/-- The divisors [[2, 1], [1, 1]] at 0x80. -/
def quantRegs : Regs := { planeRegs 2 2 2 0 0x100 with qaddr := 0x80 }
def divisorCells : List Host.Cell := at32 0x80 [0x40000000, 0x3F800000, 0x3F800000, 0x3F800000]

/-- Q1. -/
theorem test_qzz :
    out8 .qzz (st quantRegs (at32 0 [0x41266666, 0xC0600000, 0x40200000, 0x43960000] ++ divisorCells))
      0x100 4 = [0x05, 0xFC, 0x02, 0x7F] := by decide +kernel

/-- Q2. -/
theorem test_dqzz :
    out32 .dqzz (st quantRegs (bytesAt 0 [0x05, 0xFC, 0x02, 0x7F] ++ divisorCells)) 0x100 4 =
      [0x41200000, 0xC0800000, 0x40000000, 0x42FE0000] := by decide +kernel

/-- H1: the input of RSPEC's scenario at 0x20, its payload to go to 0x40. -/
def scenario : State :=
  st { Regs.reset with src := 0x20, dst := 0x40, count := 6 }
    (bytesAt 0x20 [0x41, 0x41, 0x41, 0x42, 0x42, 0x43])

/-- H1. -/
theorem test_henc_payload :
    out8 .henc scenario 0x40 2 = [0xE0, 0x80] ∧
      (after .henc scenario).regs.bitcnt = 9 ∧ (after .henc scenario).regs.maxlen = 2 := by
  decide +kernel

/-- H1's tables. -/
theorem test_henc_tables :
    let t := after .henc scenario
    (List.range 4).map (fun i => entryAt t.dtab i ⟨9, 9, 9⟩) =
        [⟨1, 1, 0x41⟩, ⟨0, 2, 0x42⟩, ⟨1, 2, 0x43⟩, ⟨0, 0, 0⟩] ∧
      entryAt t.etab 0x43 ⟨9, 9⟩ = ⟨1, 2⟩ ∧ entryAt t.etab 0x44 ⟨9, 9⟩ = ⟨0, 0⟩ := by decide +kernel

/-- H1's table, with a payload at 0x20 and the output to go to 0x40. -/
def hdecState (bits count : Nat) (bs : List Byte) : State :=
  let t : List DtabEntry := [⟨1, 1, 0x41⟩, ⟨0, 2, 0x42⟩, ⟨1, 2, 0x43⟩]
  { st { Regs.reset with
      src := 0x20, dst := 0x40, dtcnt := 3, bitcnt := BitVec.ofNat 64 bits
      count := BitVec.ofNat 32 count } (bytesAt 0x20 bs) with
    dtab := tableOf fun i => t.getD i ⟨0, 0, 0⟩ }

/-- H16. -/
theorem test_hdec :
    out8 .hdec (hdecState 9 6 [0xE0, 0x80]) 0x40 6 = [0x41, 0x41, 0x41, 0x42, 0x42, 0x43] ∧
      report .hdec (hdecState 9 6 [0xE0, 0x80]) = (0x00000002, 0, 6) := by decide +kernel

/-- H17 and H18: an error while decoding keeps the bytes before it. -/
theorem test_hdec_errors :
    report .hdec (hdecState 8 6 [0xE0, 0x80]) = (0x00000306, 8, 5) ∧
      report .hdec (hdecState 9 5 [0xE0, 0x80]) = (0x00000506, 4, 5) := by decide +kernel

/-- R243's example. -/
theorem test_bbrst :
    let t := after .bbrst (st { Regs.reset with dst := 0x100 })
    regRead t.regs .bbptr = 0x100 ∧ regRead t.regs .bbstate = 0x00010000 ∧ t.regs.bb.tot = 0 := by
  decide +kernel

/-- R244's example: the stream after `bbadd #3` of 5. -/
def stream3 : BitBuf := ⟨0x100, 0xA0, 3, true, 3⟩

theorem test_bbadd_pending :
    (after (.bbadd 3) (st { Regs.reset with arg0 := 5, bb := ⟨0x100, 0, 0, true, 0⟩ })).regs.bb =
      stream3 := by decide +kernel

theorem test_bbadd_completes :
    let t := after (.bbadd 6) (st { Regs.reset with arg0 := 0x3F, bb := stream3 })
    t.regs.bb = ⟨0x101, 0x80, 1, true, 9⟩ ∧ t.dmem.byte 0x100 = 0xBF ∧ t.regs.outcnt = 1 := by
  decide +kernel

/-- R245's example. -/
theorem test_bbfin :
    let t := after .bbfin (st { Regs.reset with bb := ⟨0x105, 0x80, 1, true, 41⟩ })
    t.regs.bb = ⟨0x106, 0, 0, false, 41⟩ ∧ t.dmem.byte 0x105 = 0x80 ∧ t.regs.bitcnt = 41 ∧
      t.regs.outcnt = 1 := by decide +kernel

/-- A placed command is the very next step: `bbrst` from reset, then from a machine whose host had its turn. -/
theorem test_placed_command_runs :
    (match step (State.reset.withFetchWord 32 0x08) with
      | .next t => t.regs.bb.isOpen
      | _ => false) = true ∧
    (match step ({ State.reset with turns := [.program] }.withFetchWord 32 0x08) with
      | .next t => t.regs.bb.isOpen
      | _ => false) = true := by decide +kernel

/-! ### Cases that meet the hypotheses of the obligations

Each theorem shows concrete operands that meet every hypothesis of the obligation it is named after; where the obligation has several clauses, one case for each, at the ends of its range. -/

theorem test_meets_EncodeDecodeRoundTrip : (Instr.bbadd 63).wf = true := by decide

theorem test_meets_DecodeIsTheOpcodeMap :
    decode 0x00003F09 = .ok (.bbadd 63) ∧ ⟨"BBADD", 0x00000009, 0xFFFFC0FF⟩ ∈ opRows := by decide

theorem test_meets_DecodedWordReencodes : decode 0x00000F01 = .ok (.csc 15) := by decide

/-- The reset machine with a word in flight. -/
def launched (w : Word) : State := State.reset.launch w

theorem test_meets_StepRunsDecodedCommand :
    (launched 0x2009).inFlight = some ⟨0x2009, (launched 0x2009).toArch⟩ ∧
      decode 0x2009 = .ok (.bbadd 32) ∧ (launched 0x2009).turns = [] ∧
      ({ launched 0x2009 with turns := [.complete] } : State).turns = .complete :: [] := by
  exact ⟨rfl, by decide, rfl, rfl⟩

theorem test_meets_UndecodableWordIsIllegal :
    (launched 0x0B).inFlight = some ⟨0x0B, (launched 0x0B).toArch⟩ ∧
      (∀ r ∈ opRows, (0x0B : Word) &&& r.mask ≠ r.mtch) ∧ 0x0B ≤ bitField 0x0B 0 8 ∧
      0x0B ≤ bitField 0xFF 0 8 ∧ bitField 0x4009 14 18 ≠ 0 ∧ bitField 0x80000000 14 18 ≠ 0 ∧
      (bitField 0x1001 0 8 = 0x01 ∧ bitField 0x1001 12 2 ≠ 0) ∧
      (bitField 0x2003 0 8 = 0x03 ∧ bitField 0x2003 9 5 ≠ 0) ∧
      (bitField 0x0100 0 8 ≠ 0x01 ∧ bitField 0x0100 0 8 ≠ 0x02 ∧ bitField 0x0100 0 8 ≠ 0x03 ∧
        bitField 0x0100 0 8 ≠ 0x09 ∧ bitField 0x0100 8 6 ≠ 0) := by
  exact ⟨rfl, by decide, by decide, by decide, by decide, by decide, by decide, by decide, by decide⟩

/-- Rounding: 3/2 units lie halfway between magnitudes 1 and 2, and the smallest rational that overflows does. -/
theorem test_meets_RoundingIsNearestTiesToEven :
    (0 : Nat) < 2 ∧ roundMag 3 2 < infMag ∧ 1 < infMag ∧ 1 ≠ roundMag 3 2 ∧
      ((fUnits (fOfSignMag false (roundMag 3 2)) * (2 : Nat) : Int) - (3 : Nat)).natAbs =
        ((fUnits (fOfSignMag false 1) * (2 : Nat) : Int) - (3 : Nat)).natAbs ∧
      roundMag ((2 ^ 25 - 1) * 2 ^ 252) 1 = infMag ∧
      roundMag ((2 ^ 25 - 1) * 2 ^ 252 - 1) 1 < infMag := by decide +kernel

/-- Arithmetic: 1/3, rounded; opposite values, whose sum is an exact zero, and equal negative ones; the largest finite value, whose double is infinite; an infinite operand; a zero divisor. -/
theorem test_meets_ArithmeticIsCorrectlyRounded :
    isFinite 0x3F800000 = true ∧ isFinite 0x40400000 = true ∧ isZero 0x40400000 = false ∧
      isFinite (fdiv 0x3F800000 0x40400000) = true ∧
      fToUnits 0x3F800000 + fToUnits 0xBF800000 = 0 ∧ fToUnits 0x80000000 + fToUnits 0x80000000 = 0 ∧
      fToUnits 0xBF800000 - fToUnits 0xBF800000 = 0 ∧ isFinite 0x7F7FFFFF = true ∧
      isInf (fadd 0x7F7FFFFF 0x7F7FFFFF) = true ∧ isInf 0x7F800000 = true ∧ isInf 0xFF800000 = true ∧
      isNaN 0xBF800000 = false ∧ isZero 0xBF800000 = false ∧ isZero 0x80000000 = true ∧
      fSign 0x7F800000 ≠ fSign 0xFF800000 := by decide +kernel

theorem test_meets_NanResultsAreCanonical :
    isNaN (fadd 0x7F800000 0xFF800000) = true ∧ isNaN (fsub 0xFF800000 0xFF800000) = true ∧
      isNaN (fmul 0x80000000 0x7F800000) = true ∧ isNaN (fdiv 0x00000000 0x80000000) = true ∧
      isNaN 0xFFFFFFFF = true ∧ isNaN 0x7F800001 = true ∧ isZero 0x80000000 = true ∧
      isInf 0x7F800000 = true ∧ isInf 0xFF800000 = true ∧
      fSign 0x7F800000 ≠ fSign 0xFF800000 := by decide +kernel

/-- Converting: NaN, both infinities, the tie 2.5 (95_test_vectors.md, R183's corner cases), and the largest finite value. -/
theorem test_meets_CvtSat8RoundsAndSaturates :
    isNaN 0x7FC00000 = true ∧ cvtSat8 0x7FC00000 = 0 ∧ isInf 0xFF800000 = true ∧
      cvtSat8 0xFF800000 = -128 ∧ isInf 0x7F800000 = true ∧ cvtSat8 0x7F800000 = 127 ∧
      isFinite 0x40200000 = true ∧ cvtSat8 0x40200000 = 2 ∧ isFinite 0x7F7FFFFF = true ∧
      cvtSat8 0x7F7FFFFF = 127 := by decide +kernel

/-- The cosine table: the ends of its range, and an angle whose cosine is 0. -/
theorem test_meets_CosineTableIsNearest :
    (1 ≤ 1 ∧ 1 ≤ 16 ∧ 0 < 1) ∧ (1 ≤ 16 ∧ 16 ≤ 16 ∧ 15 < 16) ∧ isFinite 0x3F800000 = true ∧
      Real.cos ((2 * ((1 : Nat) : ℝ) + 1) * (1 : Nat) * Real.pi / (2 * (3 : Nat))) = 0 := by
  refine ⟨by decide, by decide, by decide, ?_⟩
  rw [show ((2 * ((1 : Nat) : ℝ) + 1) * (1 : Nat) * Real.pi / (2 * (3 : Nat))) = Real.pi / 2 by
    push_cast; ring]
  exact Real.cos_pi_div_two

theorem test_meets_KernelElementsAreTheFormulas : 0 < 1 ∧ 15 < 16 := by decide

/-- A 16×16 plane that ends where DMEM ends, transformed in place: the hypotheses of FdctCompletes and IdctCompletes, and the last element of its one block. -/
theorem test_meets_FdctCompletes :
    let a := (st (planeRegs 16 16 16 (262144 - 1024) (262144 - 1024))).operands
    let n := a.regs.blkn.toNat
    let w := a.regs.width.toNat
    let h := a.regs.height.toNat
    let src := a.regs.src.toNat
    let dst := a.regs.dst.toNat
    1 ≤ n ∧ n ≤ 16 ∧ w % n = 0 ∧ h % n = 0 ∧ src % 4 = 0 ∧ dst % 4 = 0 ∧
      inBounds a.dmem src (4 * w * h) = true ∧ inBounds a.dmem dst (4 * w * h) = true ∧
      src = dst ∧ 0 < h / n ∧ 0 < w / n ∧ 15 < n := by decide +kernel

/-- A plane of two 1×1 blocks with a destination just before the source, which does not overlap it. -/
theorem test_meets_IdctCompletes :
    let a := (st (planeRegs 1 2 1 8 0)).operands
    let n := a.regs.blkn.toNat
    let w := a.regs.width.toNat
    let h := a.regs.height.toNat
    let src := a.regs.src.toNat
    let dst := a.regs.dst.toNat
    1 ≤ n ∧ n ≤ 16 ∧ w % n = 0 ∧ h % n = 0 ∧ src % 4 = 0 ∧ dst % 4 = 0 ∧
      inBounds a.dmem src (4 * w * h) = true ∧ inBounds a.dmem dst (4 * w * h) = true ∧
      overlap src (4 * w * h) dst (4 * w * h) = false ∧ 0 < h / n ∧ 1 < w / n ∧ 0 < n := by
  decide +kernel

/-- The state after FDCT of the block [[1, 2], [3, 4]], SRC set to its coefficients, DST to where the block stood. -/
def backFrom (t : State) : State :=
  { t with regs := { t.regs with src := 0x400, dst := 0x800 } }

/-- FDCT by Separable, then IDCT of what it left to a third place. -/
theorem test_meets_IdctCompletes_after_fdct :
    let t := after (.fdct true) block2
    let a := block2.operands
    let b := (backFrom t).operands
    let mid := a.regs.dst.toNat
    let dst := b.regs.dst.toNat
    let len := 4 * a.regs.width.toNat * a.regs.height.toNat
    exec (.fdct true) block2 = .next t ∧ t.regs.errcode = 0 ∧ b.regs.blkn = a.regs.blkn ∧
      b.regs.width = a.regs.width ∧ b.regs.height = a.regs.height ∧ b.regs.bias = a.regs.bias ∧
      b.regs.src = a.regs.dst ∧ b.dmem = t.dmem ∧ dst % 4 = 0 ∧ inBounds b.dmem mid len = true ∧
      inBounds b.dmem dst len = true ∧ overlap a.regs.src.toNat len mid len = false ∧
      overlap mid len dst len = false :=
  ⟨rfl, by decide +kernel, by decide +kernel, by decide +kernel, by decide +kernel,
    by decide +kernel, by decide +kernel, rfl, by decide +kernel, by decide +kernel,
    by decide +kernel, by decide +kernel, by decide +kernel⟩

/-- A block of one N with elements f i j, as in T3 and T11. -/
def rampBlock (n : Nat) : Matrix32 := matrixOf n fun i j => i2f (n * i + j + 1)

/-- R164: FDCT and then IDCT reproduce the ramp blocks of N = 2 (T5 to T8) and N = 4 to within 1e-3, whichever strategy computes either. -/
theorem test_round_trip :
    ∀ sepF sepI : Bool,
      reproduces 2 (roundTripBlock 2 sepF sepI 0 (rampBlock 2)) (rampBlock 2) ∧
        reproduces 4 (roundTripBlock 4 sepF sepI 0 (rampBlock 4)) (rampBlock 4) := by
  unfold reproduces
  decide +kernel

/-- A scale other than 2/N fails R164: twice the round trip of a block does not reproduce it (R152). -/
theorem test_round_trip_wrong_scale :
    ¬ reproduces 2
        (matrixOf 2 fun i j => fmul 0x40000000 (elemAt (roundTripBlock 2 false false 0 (rampBlock 2)) i j))
        (rampBlock 2) := by
  unfold reproduces
  decide +kernel

/-- STATUS.ERRCODE and ERRINFO after a command. -/
def errorOf (i : Instr) (s : State) : Nat × Nat :=
  ((after i s).regs.errcode.toNat, (after i s).regs.errinfo.toNat)

/-- Every end of the chain of TransformErrors, by the setups of 95_test_vectors.md: BLKN 0 and 17, a width and a height that are no multiple, SRC and DST off alignment, spans one word too high, and success with no block. -/
theorem test_meets_TransformErrors :
    [planeRegs 0 8 8 0 0, planeRegs 17 8 8 0 0, planeRegs 8 12 8 0 0, planeRegs 8 8 4 0 0,
      planeRegs 8 8 8 2 0, planeRegs 8 8 8 0 6, planeRegs 8 8 8 (262144 - 252) 0,
      planeRegs 8 8 8 0 (262144 - 252), planeRegs 8 0 8 262148 0].map
        (fun r => errorOf (.idct true) (st r)) =
      [(4, 1), (4, 1), (4, 2), (4, 3), (6, 1), (6, 2), (5, 1), (5, 2), (0, 0)] := by decide +kernel

/-- The registers of a conversion. -/
def cscRegs (count plane src dst : Nat) : Regs :=
  { Regs.reset with
    count := BitVec.ofNat 32 count, plane := BitVec.ofNat 32 plane, src := BitVec.ofNat 32 src
    dst := BitVec.ofNat 32 dst }

/-- One pixel in place, its six planes ending where DMEM ends; and one whose input lies just before its output. -/
theorem test_meets_CscCompletes :
    (let a := (st (cscRegs 1 4 (262144 - 24) (262144 - 24))).operands
    let count := a.regs.count.toNat
    let plane := a.regs.plane.toNat
    let src := a.regs.src.toNat
    let dst := a.regs.dst.toNat
    (1 = 0 ∨ 1 = 1) ∧ src % 4 = 0 ∧ dst % 4 = 0 ∧ plane % 4 = 0 ∧
      (∀ k < 3, inBounds a.dmem (src + k * plane) (4 * count) = true) ∧
      (∀ j < 6, inBounds a.dmem (dst + j * plane) (4 * count) = true) ∧ 4 * count ≤ plane ∧
      src = dst ∧ 0 < count) ∧
    (let a := (st (cscRegs 1 4 0 12)).operands
    let count := a.regs.count.toNat
    let plane := a.regs.plane.toNat
    let src := a.regs.src.toNat
    let dst := a.regs.dst.toNat
    (0 = 0 ∨ 0 = 1) ∧ src % 4 = 0 ∧ dst % 4 = 0 ∧ plane % 4 = 0 ∧
      (∀ k < 3, inBounds a.dmem (src + k * plane) (4 * count) = true) ∧
      (∀ j < 6, inBounds a.dmem (dst + j * plane) (4 * count) = true) ∧ 4 * count ≤ plane ∧
      ∀ k < 3, ∀ j < 6,
        overlap (src + k * plane) (4 * count) (dst + j * plane) (4 * count) = false) := by
  decide +kernel

/-- Every end of the chain of CscErrors (K14 to K20). -/
theorem test_meets_CscErrors :
    [(2, cscRegs 0 0 0 0), (15, cscRegs 0 0 0 0), (0, cscRegs 0 0 2 0), (0, cscRegs 0 0 0 2),
      (0, cscRegs 0 0x42 0 0), (1, cscRegs 1 4 (262144 - 8) 0), (1, cscRegs 1 0x40 0 (262144 - 4)),
      (0, cscRegs 0 0 0xFFFFFFFC 0xFFFFFFFC)].map (fun p => errorOf (.csc p.1) (st p.2)) =
      [(1, 2), (1, 15), (6, 1), (6, 2), (6, 4), (5, 1), (5, 2), (0, 0)] := by decide +kernel

/-- The registers of a quantizer command. -/
def quantState (n w h src dst qaddr : Nat) : State :=
  st { planeRegs n w h src dst with qaddr := BitVec.ofNat 32 qaddr }

/-- A 16×16 plane at 0, its bytes right behind it, the divisors at the end of DMEM. -/
theorem test_meets_QzzCompletes :
    let a := (quantState 16 16 16 0 1024 (262144 - 1024)).operands
    let n := a.regs.blkn.toNat
    let w := a.regs.width.toNat
    let h := a.regs.height.toNat
    let src := a.regs.src.toNat
    let dst := a.regs.dst.toNat
    let qaddr := a.regs.qaddr.toNat
    1 ≤ n ∧ n ≤ 16 ∧ w % n = 0 ∧ h % n = 0 ∧ src % 4 = 0 ∧ qaddr % 4 = 0 ∧
      inBounds a.dmem src (4 * (w * h)) = true ∧ inBounds a.dmem dst (w * h) = true ∧
      inBounds a.dmem qaddr (4 * n * n) = true ∧ overlap src (4 * (w * h)) dst (w * h) = false ∧
      0 < h / n ∧ 0 < w / n ∧ (zigzag n)[255]? = some (15, 15) := by decide +kernel

/-- Two bytes at 1, their plane at 4. -/
theorem test_meets_DqzzCompletes :
    let a := (quantState 1 1 2 1 4 12).operands
    let n := a.regs.blkn.toNat
    let w := a.regs.width.toNat
    let h := a.regs.height.toNat
    let src := a.regs.src.toNat
    let dst := a.regs.dst.toNat
    let qaddr := a.regs.qaddr.toNat
    1 ≤ n ∧ n ≤ 16 ∧ w % n = 0 ∧ h % n = 0 ∧ dst % 4 = 0 ∧ qaddr % 4 = 0 ∧
      inBounds a.dmem src (w * h) = true ∧ inBounds a.dmem dst (4 * (w * h)) = true ∧
      inBounds a.dmem qaddr (4 * n * n) = true ∧ overlap src (w * h) dst (4 * (w * h)) = false ∧
      1 < h / n ∧ 0 < w / n ∧ (zigzag n)[0]? = some (0, 0) := by decide +kernel

/-- Every end of the chain of QuantErrors, for QZZ and for DQZZ (Q6, Q7, Q10, Q11 and R183, R184). -/
theorem test_meets_QuantErrors :
    [quantState 17 8 8 0 0 0, quantState 8 12 8 0 0 0, quantState 8 8 4 0 0 0,
      quantState 8 8 8 2 0 0, quantState 8 8 8 0 0 2, quantState 8 8 8 (262144 - 252) 0 0,
      quantState 8 8 8 0 (262144 - 63) 0, quantState 8 8 8 0 0 (262144 - 252),
      quantState 8 0 8 0 1 0].map (errorOf .qzz) =
        [(4, 1), (4, 2), (4, 3), (6, 1), (6, 3), (5, 1), (5, 2), (5, 3), (0, 0)] ∧
    [quantState 0 8 8 0 0 0, quantState 8 12 8 0 0 0, quantState 8 8 4 0 0 0,
      quantState 8 8 8 0 2 0, quantState 8 8 8 0 0 2, quantState 8 8 8 (262144 - 63) 0 0,
      quantState 8 8 8 0 (262144 - 252) 0, quantState 8 8 8 0 0 (262144 - 252),
      quantState 8 8 0 1 0 0].map (errorOf .dqzz) =
        [(4, 1), (4, 2), (4, 3), (6, 2), (6, 3), (5, 1), (5, 2), (5, 3), (0, 0)] := by
  decide +kernel

theorem test_meets_RequantizingAPowerOfTwoIsExact :
    27 ≤ 27 ∧ 27 ≤ 227 ∧ 227 ≤ 227 ∧
      quantize (dequantize 0x80 (BitVec.ofNat 32 (27 * 2 ^ 23))) (BitVec.ofNat 32 (27 * 2 ^ 23)) =
        0x80 := by decide +kernel

/-- Codes of H1's input: 0x41 has (1, 1) and 0x42 has (00, 2). -/
theorem test_meets_HuffmanCodesArePrefixFree :
    let x := codeOf (huffmanCodes [0x41, 0x41, 0x41, 0x42, 0x42, 0x43]) 0x41
    let y := codeOf (huffmanCodes [0x41, 0x41, 0x41, 0x42, 0x42, 0x43]) 0x42
    0x41 < 256 ∧ 0x42 < 256 ∧ 0x41 ≠ 0x42 ∧ x.len ≠ 0 ∧ y.len ≠ 0 ∧ x.len ≤ y.len := by
  decide +kernel

/-- One distinct byte; and R222's input "ABRACADABRA", five distinct bytes, whose codes need every tie-break. -/
theorem test_meets_CodesExactlyForOccurringBytes :
    let bs : List Byte := [0x41, 0x42, 0x52, 0x41, 0x43, 0x41, 0x44, 0x41, 0x42, 0x52, 0x41]
    255 < 256 ∧ ([0xFF, 0xFF] : List Byte) ≠ [] ∧
      (∀ c ∈ ([0xFF, 0xFF] : List Byte), c = BitVec.ofNat 8 255) ∧ 2 ≤ (leafSet bs).length ∧
      [0x41, 0x42, 0x43, 0x44, 0x52].map (codeOf (huffmanCodes bs)) =
        [⟨1, 1⟩, ⟨1, 3⟩, ⟨3, 3⟩, ⟨2, 3⟩, ⟨0, 3⟩] := by decide +kernel

/-- The merges of two nodes, given in the wrong order: the lesser one is the left child, and its path is the bit 1. -/
theorem test_merges_two :
    let x : HuffNode := ⟨1, 0x43, .leaf 0x43⟩
    let y : HuffNode := ⟨2, 0x42, .leaf 0x42⟩
    MergesTo 0 [y, x] (.node (.leaf 0x43) (.leaf 0x42)) ∧
      HuffTree.path (.node (.leaf 0x43) (.leaf 0x42)) 0x43 = some [true] :=
  ⟨.merge _ _ [] ⟨1, 0x43, .leaf 0x43⟩ ⟨2, 0x42, .leaf 0x42⟩ _ (.swap _ _ _)
      (by simp [HuffNode.below]) (by simp) (.root _ _), rfl⟩

theorem test_meets_HencCompletes :
    let a := scenario.operands
    let cs := huffmanCodes (hencInput a)
    let total := totalBits (hencInput a) cs
    Config.legalSize a.dmem.size ∧ inBounds a.dmem a.regs.src.toNat a.regs.count.toNat = true ∧
      (∀ b < 256, (codeOf cs b).len ≤ 32) ∧ inBounds a.dmem a.regs.dst.toNat (ceil8 total) = true ∧
      overlap a.regs.src.toNat a.regs.count.toNat a.regs.dst.toNat (ceil8 total) = false ∧
      8 < total ∧ 9 < 8 * ceil8 total := by decide +kernel

/-- The ends of the chain of HencErrors but CODE_OVERFLOW (H12, H14, H15, H1). -/
theorem test_meets_HencErrors :
    let s := scenario
    errorOf .henc (st { Regs.reset with src := 262140, count := 5 }) = (5, 1) ∧
      errorOf .henc { s with regs := { s.regs with dst := 262143 } } = (5, 2) ∧
      errorOf .henc { s with regs := { s.regs with dst := 0x25 } } = (4, 5) ∧
      errorOf .henc s = (0, 0) := by decide +kernel

/-- Byte value i, for i from 0 to 33, occurs as often as the i-th Fibonacci number. -/
def fibCounts : List Nat :=
  (List.range 34).foldl (fun l _ => match l with | a :: b :: r => (a + b) :: a :: b :: r | r => r) [1, 1]
    |>.reverse

def fibInput : List Byte := (List.range 34).flatMap fun i => List.replicate (fibCounts.getD i 0) (BitVec.ofNat 8 i)

theorem fibInput_length : fibInput.length = 14930351 := by
  simp only [fibInput, List.length_flatMap, List.length_replicate]
  decide +kernel

theorem fibInput_freq :
    freqOf fibInput = fun b => if b % 256 < 34 then fibCounts.getD (b % 256) 0 else 0 := by
  funext b
  have key : ∀ i < 34, (BitVec.ofNat 8 i = BitVec.ofNat 8 b ↔ i = b % 256) := by
    intro i hi
    rw [← BitVec.toNat_inj]
    simp only [BitVec.toNat_ofNat]
    omega
  have : freqOf fibInput b =
      ((List.range 34).map fun i => if i = b % 256 then fibCounts.getD i 0 else 0).sum := by
    simp only [freqOf, fibInput, List.count_flatMap]
    congr 1
    refine List.map_congr_left fun i hi => ?_
    have := key i (List.mem_range.1 hi)
    simp only [Function.comp, List.count_replicate, beq_iff_eq, this]
  rw [this]
  generalize b % 256 = c
  by_cases hc : c < 34
  · rw [if_pos hc]
    clear this key
    revert c
    decide +kernel
  · rw [if_neg hc, List.sum_eq_zero]
    intro x hx
    obtain ⟨i, hi, rfl⟩ := List.mem_map.1 hx
    have hi := List.mem_range.1 hi
    exact if_neg (by omega)

/-- A machine whose DMEM holds a list of bytes at 0, all of them HENC's input. -/
def inputState (bs : List Byte) : State :=
  { State.reset with
    regs := { Regs.reset with count := BitVec.ofNat 32 bs.length }
    dmem := (Dmem.powerOn (2 ^ 24) 0).setBytes (bytesAt 0 bs) }

theorem inputState_hencInput (bs : List Byte) (h : bs.length < 2 ^ 32) :
    hencInput (inputState bs).operands = bs := by
  have hr : (inputState bs).operands.regs.count.toNat = bs.length := by
    show (BitVec.ofNat 32 bs.length).toNat = _
    rw [BitVec.toNat_ofNat, Nat.mod_eq_of_lt h]
  refine List.ext_getElem (by simp [hencInput, hr]) fun i h1 h2 => ?_
  simp only [hencInput, List.getElem_map, List.getElem_range]
  exact Dmem.byte_bytesAt _ 0 bs i h2

theorem inputState_overflow (bs : List Byte) (hl : bs.length = 14930351)
    (hf : freqOf bs = fun b => if b % 256 < 34 then fibCounts.getD (b % 256) 0 else 0) :
    let a := (inputState bs).operands
    inBounds a.dmem a.regs.src.toNat a.regs.count.toNat = true ∧
      ∃ b ∈ List.range 256, 32 < (codeOf (huffmanCodes (hencInput a)) b).len := by
  intro a
  have hc : a.regs.count.toNat = 14930351 := by
    show (BitVec.ofNat 32 bs.length).toNat = _
    rw [hl]; rfl
  have hm : a.dmem.size = 2 ^ 24 := Dmem.setBytes_size _ _
  constructor
  · rw [inBounds, hc, hm, show a.regs.src.toNat = 0 from rfl]; decide
  · refine ⟨0, by decide, ?_⟩
    rw [inputState_hencInput bs (by rw [hl]; decide)]
    simp only [huffmanCodes, leafNodes, hf]
    decide +kernel

/-- CODE_OVERFLOW can happen: 34 byte values with Fibonacci frequencies give the first a code of 33 bits (44_huffman.md R207). -/
theorem test_meets_HencErrors_overflow :
    ∃ a : Arch, inBounds a.dmem a.regs.src.toNat a.regs.count.toNat = true ∧
      ∃ b ∈ List.range 256, 32 < (codeOf (huffmanCodes (hencInput a)) b).len :=
  ⟨_, inputState_overflow fibInput fibInput_length fibInput_freq⟩

/-- HDEC's state after HENC: the payload to be read, the output to go elsewhere. -/
def decodeBack (t : State) (src dst count : Word) : State :=
  { t with regs := { t.regs with src := src, dst := dst, count := count } }

theorem decodeBack_operands (t : State) (src dst count : Word) (h : t.inFlight = none) :
    (decodeBack t src dst count).operands =
      { t.toArch with regs := { t.regs with src := src, dst := dst, count := count } } := by
  simp only [State.operands, decodeBack, h]

theorem test_meets_HuffmanRoundTrip :
    let s := scenario
    let t := after .henc s
    let u := decodeBack t s.operands.regs.dst 0x42 6
    let a := s.operands
    let b := u.operands
    (1 ≤ a.regs.count.toNat ∧ Config.legalSize a.dmem.size) ∧ exec .henc s = .next t ∧
      t.regs.errcode = 0 ∧
      (b.dtab = t.dtab ∧ b.regs.dtcnt = t.regs.dtcnt ∧ b.regs.bitcnt = t.regs.bitcnt ∧
        b.regs.src = a.regs.dst ∧ b.dmem.size = a.dmem.size ∧ b.dmem = t.dmem) ∧
      a.regs.count.toNat ≤ b.regs.count.toNat ∧
      inBounds b.dmem b.regs.dst.toNat b.regs.count.toNat = true ∧
      overlap b.regs.src.toNat t.regs.outcnt.toNat b.regs.dst.toNat b.regs.count.toNat = false := by
  have he : exec .henc scenario = .next (after .henc scenario) := exec_eq .henc scenario
  have ht := exec_next _ _ _ he
  have hk := complete_keeps scenario (resultOf .henc scenario.operands)
  rw [← ht] at hk
  have hb := decodeBack_operands (after .henc scenario) scenario.operands.regs.dst 0x42 6 hk.1
  refine ⟨by decide +kernel, he, by decide +kernel, ?_, by decide +kernel, by decide +kernel,
    by decide +kernel⟩
  simp only [hb]
  exact ⟨trivial, trivial, trivial, trivial, hk.2.1, trivial⟩

/-- The entries of H1's table. -/
def e41 : DtabEntry := ⟨1, 1, 0x41⟩
def e42 : DtabEntry := ⟨0, 2, 0x42⟩
def e43 : DtabEntry := ⟨1, 2, 0x43⟩

theorem scenarioTable (bits count : Nat) (bs : List Byte) :
    decodeTable (hdecState bits count bs).operands = [e41, e42, e43] := by
  show decodeTable (hdecState 0 0 []).operands = _
  decide +kernel

theorem scenarioTable_usable : tableUsable [e41, e42, e43] := by unfold tableUsable; decide

/-- Every entry of H1's table can be emitted. -/
theorem scenarioTable_reachable : ∀ e ∈ [e41, e42, e43], reachableEntry [e41, e42, e43] e := by
  unfold reachableEntry; decide

/-- H16. -/
theorem test_meets_HdecCompletes :
    let a := (hdecState 9 6 [0xE0, 0x80]).operands
    let tab := decodeTable a
    let src := a.regs.src.toNat
    let dst := a.regs.dst.toNat
    let len := ceil8 a.regs.bitcnt.toNat
    let es := [e41, e41, e41, e42, e42, e43]
    (inBounds a.dmem src len = true ∧ inBounds a.dmem dst a.regs.count.toNat = true ∧
      a.regs.dtcnt.toNat ≤ 256) ∧ tableUsable tab ∧
      overlap src len dst a.regs.count.toNat = false ∧ (∀ e ∈ es, reachableEntry tab e) ∧
      payloadBits a = codeBits (es.map DtabEntry.asCode) ∧ es.length ≤ a.regs.count.toNat := by
  refine ⟨by decide +kernel, ?_, by decide +kernel, ?_, by decide +kernel, by decide +kernel⟩
  · rw [scenarioTable]; exact scenarioTable_usable
  · rw [scenarioTable]
    have h := scenarioTable_reachable
    intro e he
    refine h e ?_
    revert e
    decide

/-- The ends of the chain of HdecCheckErrors: BOUNDS(1), BOUNDS(2), DTCNT 257, a second entry that repeats the first (with BITCNT 9, and with BITCNT 0, log entry 16), and an output that starts on the payload's last byte. -/
theorem test_meets_HdecCheckErrors :
    let s := hdecState 9 6 [0xE0, 0x80]
    errorOf .hdec { s with regs := { s.regs with src := 262143 } } = (5, 1) ∧
      errorOf .hdec { s with regs := { s.regs with dst := 262139 } } = (5, 2) ∧
      errorOf .hdec { s with regs := { s.regs with dtcnt := 257 } } = (2, 257) ∧
      ¬ tableUsable [e41, e41] ∧ tableUsable [e41] ∧
      errorOf .hdec { s with dtab := tableOf fun _ => e41 } = (2, 1) ∧
      errorOf .hdec { hdecState 0 6 [] with dtab := tableOf fun _ => e41 } = (2, 1) ∧
      errorOf .hdec { s with regs := { s.regs with dst := 0x21 } } = (4, 5) := by
  refine ⟨by decide +kernel, by decide +kernel, by decide +kernel, ?_, ?_, by decide +kernel,
    by decide +kernel, by decide +kernel⟩
  · unfold tableUsable; decide
  · unfold tableUsable; decide

/-- H17, H18, and bits that no code of H1's table without 0x43 matches: one case for each way that decoding ends in an error. -/
theorem test_meets_HdecDecodeErrors :
    (let a := (hdecState 8 6 [0xE0, 0x80]).operands
     let es := [e41, e41, e41, e42, e42]
     let rest := [false]
     decodeTable a = [e41, e42, e43] ∧
       payloadBits a = codeBits (es.map DtabEntry.asCode) ++ rest ∧
       es.length ≤ a.regs.count.toNat ∧ rest ≠ [] ∧ rest.length ≤ 2 ∧
       noMatchWithin [e41, e42, e43] rest rest.length) ∧
    (let a := { (hdecState 3 6 [0x40]) with
        regs := { (hdecState 3 6 [0x40]).regs with dtcnt := 2 } : State }.operands
     let rest := [false, true, false]
     decodeTable a = [e41, e42] ∧ payloadBits a = codeBits [] ++ rest ∧ 2 < rest.length ∧
       noMatchWithin [e41, e42] rest (2 + 1)) ∧
    (let a := (hdecState 9 5 [0xE0, 0x80]).operands
     let es := [e41, e41, e41, e42, e42]
     let rest := patternBits e43.code.toNat e43.len.toNat ++ []
     payloadBits a = codeBits (es.map DtabEntry.asCode) ++ rest ∧
       es.length = a.regs.count.toNat ∧ reachableEntry [e41, e42, e43] e43) := by
  refine ⟨⟨scenarioTable _ _ _, by decide +kernel, by decide +kernel, by decide, by decide, ?_⟩,
    ⟨by decide +kernel, by decide +kernel, by decide, ?_⟩,
    by decide +kernel, by decide +kernel, scenarioTable_reachable _ (by decide)⟩
  · intro j h1 h2 e he
    simp only [List.length_singleton] at h2
    obtain rfl : j = 1 := by omega
    revert e; decide
  · intro j h1 h2 e he
    obtain rfl | rfl | rfl : j = 1 ∨ j = 2 ∨ j = 3 := by omega
    all_goals revert e; decide

/-- LEN 32 on a stream with 7 bits pending that ends where DMEM ends. -/
theorem test_meets_BbaddAppends :
    let a := (st { Regs.reset with bb := ⟨262140, 0xFE, 7, true, 7⟩ }).operands
    let b := a.regs.bb
    Config.legalSize a.dmem.size ∧ b.acc.toNat % 2 ^ (8 - b.fill.toNat) = 0 ∧ 32 ≤ 32 ∧
      b.isOpen = true ∧ inBounds a.dmem b.ptr.toNat ((b.fill.toNat + 32) / 8) = true := by
  decide +kernel

/-- With a partial byte at the end of DMEM, and with none. -/
theorem test_meets_BbfinFlushes :
    (let a := (st { Regs.reset with bb := ⟨262143, 0x80, 1, true, 1⟩ }).operands
     a.regs.bb.isOpen = true ∧ inBounds a.dmem a.regs.bb.ptr.toNat 1 = true ∧ a.regs.bb.fill ≠ 0) ∧
    (let a := (st { Regs.reset with bb := ⟨262144, 0, 0, true, 8⟩ }).operands
     a.regs.bb.isOpen = true ∧ inBounds a.dmem a.regs.bb.ptr.toNat 0 = true ∧ a.regs.bb.fill = 0) := by
  decide +kernel

/-- The ends of the chains of BitBufferErrors, LEN 33 and 63 among them. -/
theorem test_meets_BitBufferErrors :
    let full : State := st { Regs.reset with bb := ⟨262144, 0xFE, 7, true, 7⟩ }
    errorOf (.bbadd 33) full = (7, 0) ∧ errorOf (.bbadd 63) State.reset = (7, 0) ∧
      errorOf (.bbadd 32) State.reset = (4, 4) ∧ errorOf (.bbadd 1) full = (5, 2) ∧
      errorOf (.bbadd 0) full = (0, 0) ∧ errorOf .bbfin State.reset = (4, 4) ∧
      errorOf .bbfin full = (5, 2) ∧ errorOf .bbfin scenario = (4, 4) ∧
      errorOf .bbfin (st { Regs.reset with bb := ⟨262144, 0, 0, true, 8⟩ }) = (0, 0) := by
  decide +kernel

/-- Three codes of 0, 32 and 1 bits at the last five bytes of DMEM. -/
theorem test_meets_BitBufferBuildsTheStream :
    let s := st { Regs.reset with dst := 262139 }
    let cs : List Code := [⟨7, 0⟩, ⟨0xFFFFFFFF, 32⟩, ⟨1, 1⟩]
    s.inFlight = none ∧ Config.legalSize s.dmem.size ∧ (∀ c ∈ cs, c.len ≤ 32) ∧
      s.regs.dst.toNat + ceil8 (codesLength cs) ≤ s.dmem.size ∧ 32 < codesLength cs ∧
      codesLength cs ≤ 33 ∧ 39 < 8 * ceil8 (codesLength cs) := by
  decide +kernel

/-- A byte that BBADD stores to lies in its span, the next one does not: the hypotheses of the frames. -/
theorem test_meets_CommandsStoreOnlyInTheirSpans :
    let s := st { Regs.reset with arg0 := 0x3F, bb := stream3 }
    Config.legalSize s.operands.dmem.size ∧
      exec (.bbadd 6) s = .next (s.complete (bbaddResult 6 s.operands)) ∧
      storedSpans (.bbadd 6) s.operands = [(0x100, 1)] := by
  exact ⟨by decide +kernel, rfl, by decide +kernel⟩

theorem test_meets_CommandsWriteOnlyTheirRegisters :
    exec .bbfin scenario = .next (scenario.complete (bbfinResult scenario.operands)) ∧
      Instr.bbfin ≠ .henc ∧ Instr.bbfin ≠ .hdec ∧ Instr.nop ≠ .bbfin ∧ Instr.nop ≠ .bbrst ∧
      ∀ len, Instr.nop ≠ .bbadd len :=
  ⟨rfl, by decide, by decide, by decide, by decide, fun _ => by simp⟩

/-- Both ends of CompletionReportsStatus. -/
theorem test_meets_CompletionReportsStatus :
    (resultOf .nop State.reset.operands).error = none ∧
      (resultOf (.csc 2) State.reset.operands).error = some (.invalidFormat, 2) := by decide +kernel

theorem test_meets_ErrorsWriteNothing :
    exec (.csc 2) State.reset = .next (after (.csc 2) State.reset) ∧
      (after (.csc 2) State.reset).regs.errcode ≠ 0 ∧
      (after .hdec (hdecState 8 6 [0xE0, 0x80])).regs.errcode = 0x03 ∧
      (after .hdec (hdecState 9 5 [0xE0, 0x80])).regs.errcode = 0x05 := by
  exact ⟨rfl, by decide +kernel, by decide +kernel, by decide +kernel⟩

theorem test_meets_LaunchIsExact : State.reset.regs.busy = false := rfl

theorem test_meets_CmdWhileBusyIsDropped : (launched 0).regs.busy = true := rfl

/-- Unsupported: a byte access to a register, a misaligned one, a misaligned DMEM word, the first byte past DMEM, a 64-bit access; supported: the last word of the register block and the last byte of DMEM. -/
theorem test_meets_UnsupportedAccessIsBusError :
    Config.legalSize State.reset.dmem.size ∧
      ((0xFFFC : Nat) < 0x10000 ∧ ¬ (8 = 32 ∧ 0xFFFC % 4 = 0)) ∧
      ((0x0002 : Nat) < 0x10000 ∧ ¬ (32 = 32 ∧ 0x0002 % 4 = 0)) ∧
      (0x10000 ≤ 0x10002 ∧ ¬ (0x10002 - 0x10000) % (32 / 8) = 0) ∧
      (0x10000 ≤ 0x50000 ∧ ¬ 0x50000 - 0x10000 < State.reset.dmem.size) ∧
      (0x10000 ≤ 0x10000 ∧ ¬ (64 = 8 ∨ 64 = 16 ∨ 64 = 32)) ∧
      ((0xFFFC : Nat) < 0x10000 ∧ 32 = 32 ∧ 0xFFFC % 4 = 0) ∧
      (0x10000 ≤ 0x4FFFF ∧ (0x4FFFF - 0x10000) % (8 / 8) = 0 ∧
        0x4FFFF - 0x10000 < State.reset.dmem.size) := by decide +kernel

theorem test_meets_DmemAccessIsLittleEndian :
    State.reset.regs.busy = false ∧ (262143 % 1 = 0 ∧ 262143 + 1 ≤ State.reset.dmem.size) ∧
      (262142 % 2 = 0 ∧ 262142 + 2 ≤ State.reset.dmem.size) ∧
      (262140 % 4 = 0 ∧ 262140 + 4 ≤ State.reset.dmem.size) := by decide +kernel

theorem test_meets_RegisterWritesAndReads :
    State.reset.regs.busy = false ∧ RegName.bitcntHi ≠ .ctrl ∧ RegName.bitcntHi ≠ .status ∧
      RegName.bitcntHi ≠ .cmd ∧ RegName.bitcntLo ≠ .bitcntHi ∧ RegName.id ≠ .cmd := by decide

theorem test_meets_BusyAccessesAreRefused :
    (launched 0).regs.busy = true ∧ (0x00000001 : Word).getLsbD 1 = false ∧
      RegName.id ≠ .ctrl ∧ RegName.id ≠ .status ∧ (0x800 ≤ 0x800 ∧ 0x23FC < 0x2400 ∧ 0x23FC % 4 = 0) ∧
      (262142 % 2 = 0 ∧ 262142 + 2 ≤ (launched 0).dmem.size) ∧
      ((0x064 ≤ 0x064 ∧ 0x7FC ≤ 0x7FC) ∧ (0x2400 ≤ 0x2400 ∧ 0xFFFC ≤ 0xFFFC)) := by decide +kernel

theorem test_meets_HostReadsChangeNothing :
    State.reset.regs.busy = false ∧
      hostRead 0x000 32 State.reset = .next { State.reset with hostData := 0x4A504331 } := by
  exact ⟨rfl, rfl⟩

theorem test_meets_ReservedOffsetsAreInert :
    (0x064 % 4 = 0 ∧ 0x064 ≤ 0x064 ∧ 0x064 ≤ 0x7FC) ∧ (0x7FC % 4 = 0 ∧ 0x7FC ≤ 0x7FC) ∧
      (0x2400 % 4 = 0 ∧ 0x2400 ≤ 0xFFFC) ∧ 0xFFFC % 4 = 0 := by decide

theorem test_meets_CtabWindowFollowsBlockSize : State.reset.regs.busy = false ∧ 0 ≤ 15 ∧ 15 ≤ 15 := by
  decide

theorem test_meets_TableWindows :
    State.reset.regs.busy = false ∧ 0 < 256 ∧ 255 < 256 ∧ 0 ≠ 255 ∧ 3 < 4 := by decide

/-- A soft reset that abandons QZZ of one block: the bytes of its stream are among its writes, others are not. -/
theorem test_meets_SoftResetRestoresEverythingButDmem :
    (0x00000003 : Word).getLsbD 1 = true ∧ State.reset.inFlight = none ∧
      (launched 0x02).inFlight = some ⟨0x02, (launched 0x02).toArch⟩ ∧
      ∀ c ∈ (execWord 0x02 (launched 0x02).toArch).effects.writes, c.1 ≠ 0 := by
  exact ⟨by decide, rfl, rfl, by decide +kernel⟩

theorem test_meets_PowerOnResetState :
    255 < 256 ∧ ({ State.reset with turns := [.powerOn] } : State).turns = .powerOn :: [] := by
  exact ⟨by decide, rfl⟩

theorem test_meets_InterruptLine :
    exec .nop State.reset = .next (after .nop State.reset) ∧ State.reset.regs.busy = false ∧
      hostWrite 0x010 32 0 State.reset = .next (launched 0) ∧
      hostWrite 0x00C 32 0x0000000E State.reset = .next State.reset := by
  exact ⟨rfl, rfl, rfl, rfl⟩

/-- The invariant holds with a command in flight, so that it is not a fact about quiet machines only. -/
theorem launched_inv (w : Word) : (launched w).Inv := by
  refine ⟨⟨Dmem.powerOn_wf _ _, (by decide : Config.legalSize 262144),
    (by decide : (0#8).toNat % 2 ^ (8 - (0#3).toNat) = 0), ?_, (by decide : (0#6).toNat ≤ 32),
    (by decide : (0#8).toNat ≤ 8)⟩, rfl, ?_⟩
  · intro e (he : e ∈ etabReset.toList)
    rw [etabReset, Vector.toList_replicate] at he
    obtain rfl := List.eq_of_mem_replicate he
    exact ⟨by decide, by decide⟩
  · intro f (hf : some _ = some f)
    obtain rfl := Option.some.inj hf
    exact ⟨rfl, rfl, rfl, rfl, rfl, rfl, rfl, rfl, rfl⟩

theorem test_meets_HostCannotDisturbACommand :
    (launched 0).Inv ∧ (launched 0).regs.busy = true ∧
      (∃ s', hostAccess (.write 0x010 32 0x06) (launched 0) = .next s' ∧ s'.inFlight ≠ none) := by
  exact ⟨launched_inv 0, rfl, _, rfl, Option.some_ne_none _⟩

theorem test_meets_StatusWordsAndClearing : (0xFFFFFFFD : Word).getLsbD 1 = false := by decide

theorem test_meets_OnlyTheHostCanStopTheMachine :
    (∀ x rest, State.reset.turns ≠ .access x :: rest) ∧ (∀ rest, State.reset.turns ≠ .program :: rest) ∧
      (State.reset.turns = [] → State.reset.prog.length ≤ State.reset.progPos) ∧
      ({ State.reset with turns := [.complete] } : State).turns = .complete :: [] ∧
      State.reset.inFlight = none := by
  exact ⟨fun _ _ => by simp [State.reset], fun _ => by simp [State.reset], fun _ => by decide, rfl, rfl⟩

/-- R44's offsets for the ends of CTAB, and a negative index of either kind, which names no place (log entry 8). -/
theorem test_ctab_negative_index :
    locOffset [] (.ctab (.const 0) (.const 0)) = some 0x2000 ∧
      locOffset [] (.ctab (.const 15) (.const 15)) = some 0x23FC ∧
      locOffset [] (.ctab (.const 1) (.const (-1))) = none ∧
      locOffset [] (.ctab (.const (-1)) (.const 16)) = none := by decide

/-- The three ways to stop: a misaligned access, a line that names a place that is not there, and a jump to no label. -/
theorem test_meets_OnlyTheHostCanStopTheMachine_stops :
    step { State.reset with turns := [.access (.read 2 32)] } = .fault .hostBusError ∧
      step { State.reset with prog := [.store 8 (.const 262144) (.const 0)] } =
        .fault .hostBusError ∧
      step { State.reset with turns := [.program], prog := [.goto 5] } =
        .refused (.hostLabelMissing 5) ∧
      supportedAt State.reset.dmem.size (some 0x4FFFF) 8 ∧
      ¬ supportedAt State.reset.dmem.size (some 0x50000) 8 := by
  refine ⟨rfl, rfl, rfl, ?_, ?_⟩
  · exact ⟨_, rfl, .inr (by decide)⟩
  · rw [supportedAt_some]
    decide

theorem test_meets_StepKeepsTheInvariant :
    (launched 0).Inv ∧ step (launched 0) = .next (after .nop (launched 0)) := by
  exact ⟨launched_inv 0, rfl⟩

end Sys2Proof.Tests
end

section
/-! PROOFS. Spans: being in bounds and overlapping, as conditions on addresses (00_scope.md R13). -/

namespace Sys2Proof.Machine

theorem inBounds_iff (m : Dmem) (a len : Nat) :
    inBounds m a len = true ↔ len = 0 ∨ a + len ≤ m.size := by
  simp [inBounds]

theorem overlap_iff_common_address (a la b lb : Nat) :
    overlap a la b lb = true ↔ ∃ x, (a ≤ x ∧ x < a + la) ∧ (b ≤ x ∧ x < b + lb) := by
  simp only [overlap, Bool.and_eq_true, decide_eq_true_eq]
  constructor
  · intro h
    exact ⟨max a b, by omega, by omega⟩
  · rintro ⟨x, ha, hb⟩
    omega

/-- Settles O60: two spans that overlap share the greater of their two starts. -/
theorem spansAndOverlap : Obligations.SpansAndOverlap :=
  ⟨inBounds_iff, overlap_iff_common_address⟩

end Sys2Proof.Machine
end

section
/-! PROOFS. Rounding an exact rational to the nearest binary32 magnitude (00_scope.md R11): rounding to an integer, the value of magnitude bits, and the two together. -/

namespace Sys2Proof.Machine

/-! ### The nearest integer -/

/-- How far `u` is from `n / d`, in parts of 1/d. -/
def unitError (u n d : Nat) : Nat := ((u * d : Int) - n).natAbs

@[simp] theorem unitError_zero (n d : Nat) : unitError 0 n d = n := by simp [unitError]

theorem unitError_mul (u n d c : Nat) : unitError u n (d * c) = unitError (u * c) n d := by
  simp only [unitError, Nat.cast_mul]
  ring_nf

/-- Two integers are at least 1 apart, so their distances from `n / d` add up to at least that. -/
theorem le_unitError_add_unitError {u v : Nat} (n d : Nat) (h : u ≠ v) :
    d ≤ unitError u n d + unitError v n d := by
  have apart : (u + 1) * d ≤ v * d ∨ (v + 1) * d ≤ u * d :=
    (Nat.lt_or_gt_of_ne h).imp (Nat.mul_le_mul_right d) (Nat.mul_le_mul_right d)
  simp only [unitError, Nat.add_mul, ← Int.natCast_mul] at *
  omega

/-- Below `n / d`, the greater integer is the nearer one. -/
theorem unitError_lt_of_lt {u v n d : Nat} (hd : 0 < d) (huv : u < v) (hv : v * d ≤ n) :
    unitError v n d < unitError u n d := by
  have : u * d < v * d := Nat.mul_lt_mul_of_pos_right huv hd
  simp only [unitError, ← Int.natCast_mul]
  omega

/-- Rounding to an integer misses by a half at most, and by a half only at an even one. -/
theorem roundEven_half (n : Nat) {d : Nat} (hd : 0 < d) :
    2 * unitError (roundEven n d) n d ≤ d ∧
      (2 * unitError (roundEven n d) n d = d → roundEven n d % 2 = 0) := by
  have hn := Nat.div_add_mod n d
  have hr := Nat.mod_lt n hd
  unfold unitError roundEven
  generalize n / d = t at *
  generalize n % d = r at *
  subst hn
  dsimp only
  split
  · have : ((↑(t + 1) * ↑d : Int) - ↑(d * t + r)) = d - r := by push_cast; ring
    rw [this]
    omega
  · have : ((↑t * ↑d : Int) - ↑(d * t + r)) = -r := by push_cast; ring
    rw [this]
    omega

theorem roundEven_nearest (n : Nat) {d : Nat} (hd : 0 < d) (u : Nat) :
    unitError (roundEven n d) n d ≤ unitError u n d ∧
      (u ≠ roundEven n d → unitError (roundEven n d) n d = unitError u n d →
        roundEven n d % 2 = 0) := by
  obtain ⟨hle, htie⟩ := roundEven_half n hd
  by_cases hu : u = roundEven n d
  · exact ⟨(congrArg (unitError · n d) hu).ge, fun hne => absurd hu hne⟩
  · have := le_unitError_add_unitError n d hu
    exact ⟨by omega, fun _ heq => htie (by omega)⟩

theorem roundEven_le_of_lt {u n d : Nat} (h : n < u * d) : roundEven n d ≤ u := by
  have := Nat.div_lt_of_lt_mul (Nat.mul_comm u d ▸ h)
  unfold roundEven
  dsimp only
  split <;> omega

theorem le_roundEven_of_le {u n d : Nat} (hd : 0 < d) (h : u * d ≤ n) : u ≤ roundEven n d := by
  have := (Nat.le_div_iff_mul_le hd).mpr h
  unfold roundEven
  dsimp only
  split <;> omega

/-! ### The value of magnitude bits -/

/-- What magnitude bits are worth, in units of 2^-149. -/
def magUnits (m : Nat) : Nat :=
  if m / 2 ^ 23 = 0 then m % 2 ^ 23 else (2 ^ 23 + m % 2 ^ 23) * 2 ^ (m / 2 ^ 23 - 1)

theorem fUnits_eq_magUnits (a : F32) : fUnits a = magUnits (fMag a) := rfl

/-- A significand and a binade add up to the bits, the carry out of the significand included. -/
theorem magUnits_binade {t k : Nat} (ht : t ≤ 2 ^ 24) (hk : k = 0 ∨ 2 ^ 23 ≤ t) :
    magUnits (t + k * 2 ^ 23) = t * 2 ^ k := by
  unfold magUnits
  by_cases subnormal : t < 2 ^ 23
  · obtain rfl : k = 0 := by omega
    rw [if_pos (by omega), Nat.pow_zero]
    omega
  by_cases carry : t = 2 ^ 24
  · rw [if_neg (by omega), show (t + k * 2 ^ 23) % 2 ^ 23 = 0 by omega,
      show (t + k * 2 ^ 23) / 2 ^ 23 - 1 = k + 1 by omega, carry]
    ring
  · rw [if_neg (by omega), show 2 ^ 23 + (t + k * 2 ^ 23) % 2 ^ 23 = t by omega,
      show (t + k * 2 ^ 23) / 2 ^ 23 - 1 = k by omega]

theorem exists_binade (m : Nat) :
    ∃ t k, m = t + k * 2 ^ 23 ∧ t < 2 ^ 24 ∧ (k = 0 ∨ 2 ^ 23 ≤ t) :=
  ⟨m - (m / 2 ^ 23 - 1) * 2 ^ 23, m / 2 ^ 23 - 1, by omega⟩

theorem magUnits_strictMono : StrictMono magUnits := strictMono_nat_of_lt_succ fun m => by
  obtain ⟨t, k, rfl, ht, hk⟩ := exists_binade m
  rw [magUnits_binade ht.le hk, Nat.add_right_comm, magUnits_binade ht (by omega)]
  exact Nat.mul_lt_mul_of_pos_right t.lt_succ_self (Nat.two_pow_pos k)

@[simp] theorem magUnits_eq_zero {m : Nat} : magUnits m = 0 ↔ m = 0 :=
  magUnits_strictMono.injective.eq_iff' rfl

/-- Every magnitude lies on the grid of a binade, or below the binade. -/
theorem magUnits_grid (m k : Nat) :
    2 ^ k ∣ magUnits m ∨ (k ≠ 0 ∧ magUnits m < 2 ^ 23 * 2 ^ k) := by
  obtain ⟨t, j, rfl, ht, hj⟩ := exists_binade m
  rw [magUnits_binade ht.le hj]
  obtain hkj | hjk := Nat.lt_or_ge j k
  · refine .inr ⟨by omega, ?_⟩
    calc t * 2 ^ j < 2 ^ 24 * 2 ^ j := Nat.mul_lt_mul_of_pos_right ht (Nat.two_pow_pos j)
      _ = 2 ^ 23 * 2 ^ (j + 1) := by ring
      _ ≤ 2 ^ 23 * 2 ^ k := Nat.mul_le_mul_left _ (Nat.pow_le_pow_right two_pos hkj)
  · exact .inl (Dvd.dvd.mul_left (Nat.pow_dvd_pow 2 hjk) t)

/-! ### The nearest magnitude -/

theorem dropBits_spec (q : Nat) :
    q < 2 ^ 24 * 2 ^ dropBits q ∧ (dropBits q = 0 ∨ 2 ^ 23 * 2 ^ dropBits q ≤ q) := by
  unfold dropBits
  split
  · next h => exact ⟨by omega, .inl rfl⟩
  · next h =>
    have hq : q ≠ 0 := by omega
    have hlog : 24 ≤ Nat.log2 q := (Nat.le_log2 hq).mpr (by omega)
    rw [← Nat.pow_add, ← Nat.pow_add, show 24 + (Nat.log2 q - 23) = Nat.log2 q + 1 by omega,
      show 23 + (Nat.log2 q - 23) = Nat.log2 q by omega]
    exact ⟨Nat.lt_log2_self, .inr (Nat.log2_self_le hq)⟩

/-- The bits that the rounding gives before it stops at infinity. -/
def roundBits (n d : Nat) : Nat :=
  roundEven n (d * 2 ^ dropBits (n / d)) + dropBits (n / d) * 2 ^ 23

theorem roundMag_eq_min (n d : Nat) : roundMag n d = min infMag (roundBits n d) := rfl

theorem roundMag_le (n d : Nat) : roundMag n d ≤ infMag := Nat.min_le_left _ _

section
variable (n : Nat) {d : Nat} (hd : 0 < d)
include hd

/-- The binade that is rounded in holds the value: `n / d` is below its end, and not below its start. -/
theorem binade_of_quotient :
    n < 2 ^ 24 * (d * 2 ^ dropBits (n / d)) ∧
      (dropBits (n / d) = 0 ∨ 2 ^ 23 * (d * 2 ^ dropBits (n / d)) ≤ n) := by
  obtain ⟨hlt, hge⟩ := dropBits_spec (n / d)
  rw [Nat.div_lt_iff_lt_mul hd] at hlt
  rw [Nat.le_div_iff_mul_le hd] at hge
  rw [Nat.mul_comm d, ← Nat.mul_assoc, ← Nat.mul_assoc]
  exact ⟨hlt, hge⟩

theorem significand_bounds :
    roundEven n (d * 2 ^ dropBits (n / d)) ≤ 2 ^ 24 ∧
      (dropBits (n / d) = 0 ∨ 2 ^ 23 ≤ roundEven n (d * 2 ^ dropBits (n / d))) := by
  obtain ⟨hlt, hge⟩ := binade_of_quotient n hd
  exact ⟨roundEven_le_of_lt hlt,
    hge.imp_right (le_roundEven_of_le (Nat.mul_pos hd (Nat.two_pow_pos _)))⟩

theorem magUnits_roundBits :
    magUnits (roundBits n d) = roundEven n (d * 2 ^ dropBits (n / d)) * 2 ^ dropBits (n / d) :=
  have ⟨hle, hge⟩ := significand_bounds n hd
  magUnits_binade hle hge

/-- A magnitude on the grid of the binade is no nearer, as the integers of the grid are not; one below the binade is farther than its start. -/
theorem roundBits_nearest (m : Nat) :
    unitError (magUnits (roundBits n d)) n d ≤ unitError (magUnits m) n d ∧
      (m ≠ roundBits n d →
        unitError (magUnits (roundBits n d)) n d = unitError (magUnits m) n d →
        roundBits n d % 2 = 0) := by
  have hbits := magUnits_roundBits n hd
  have hparity : roundBits n d % 2 = roundEven n (d * 2 ^ dropBits (n / d)) % 2 := by
    unfold roundBits
    omega
  obtain ⟨-, hge⟩ := binade_of_quotient n hd
  have hnearest := roundEven_nearest n (Nat.mul_pos hd (Nat.two_pow_pos (dropBits (n / d))))
  simp only [unitError_mul, ← hbits, ← hparity] at hnearest
  obtain ⟨u, hu⟩ | ⟨hk, hlt⟩ := magUnits_grid m (dropBits (n / d))
  · obtain ⟨hle, htie⟩ := hnearest u
    rw [Nat.mul_comm] at hu
    rw [hu]
    refine ⟨hle, fun hne => htie fun hut => hne ?_⟩
    exact magUnits_strictMono.injective (by rw [hu, hbits, hut])
  · have hstart := (hnearest (2 ^ 23)).1
    have hfar := unitError_lt_of_lt hd hlt (v := 2 ^ 23 * 2 ^ dropBits (n / d))
      (Nat.mul_right_comm _ d _ ▸ Nat.mul_assoc _ d _ ▸ hge.resolve_left hk)
    exact ⟨by omega, by omega⟩

/-- In the last finite binade the rounding reaches the next power of two exactly from halfway past the largest significand on: the tie goes up, for that significand is odd. -/
theorem roundEven_eq_carry_iff (htop : roundEven n d ≤ 2 ^ 24) :
    roundEven n d = 2 ^ 24 ↔ (2 ^ 25 - 1) * d ≤ 2 * n := by
  obtain ⟨hhalf, htie⟩ := roundEven_half n hd
  generalize roundEven n d = t at *
  have hcases : t = 2 ^ 24 ∨ t = 2 ^ 24 - 1 ∨ t * d ≤ (2 ^ 24 - 2) * d := by
    by_cases h : t ≤ 2 ^ 24 - 2
    · exact .inr (.inr (Nat.mul_le_mul_right d h))
    · omega
  simp only [unitError, ← Int.natCast_mul] at hhalf htie
  obtain rfl | rfl | hlow := hcases
  · omega
  · omega
  · exact ⟨by rintro rfl; omega, by omega⟩

/-- The rounding reaches infinity exactly from halfway past the largest finite value on. -/
theorem infMag_le_roundBits_iff :
    infMag ≤ roundBits n d ↔ (2 ^ 25 - 1) * 2 ^ 253 * d ≤ 2 * n := by
  obtain ⟨hlt, hge⟩ := binade_of_quotient n hd
  obtain ⟨htop, hnormal⟩ := significand_bounds n hd
  rw [Nat.mul_assoc, Nat.mul_comm (2 ^ 253) d]
  unfold roundBits infMag
  generalize dropBits (n / d) = k at *
  obtain below | rfl | above := Nat.lt_trichotomy k 253
  · have : d * 2 ^ (k + 1) ≤ d * 2 ^ 253 :=
      Nat.mul_le_mul_left d (Nat.pow_le_pow_right two_pos below)
    rw [Nat.pow_succ, ← Nat.mul_assoc] at this
    omega
  · have hcarry := roundEven_eq_carry_iff n (Nat.mul_pos hd (Nat.two_pow_pos 253)) htop
    rw [← hcarry]
    generalize roundEven n (d * 2 ^ 253) = t at *
    omega
  · have : d * 2 ^ 254 ≤ d * 2 ^ k :=
      Nat.mul_le_mul_left d (Nat.pow_le_pow_right two_pos above)
    omega

end

theorem roundMag_nearest {n d : Nat} (hd : 0 < d) (hfin : roundMag n d < infMag) (m : Nat) :
    unitError (magUnits (roundMag n d)) n d ≤ unitError (magUnits m) n d ∧
      (m ≠ roundMag n d →
        unitError (magUnits (roundMag n d)) n d = unitError (magUnits m) n d →
        roundMag n d % 2 = 0) := by
  have hround : roundMag n d = roundBits n d := by
    rw [roundMag_eq_min] at *
    omega
  rw [hround]
  exact roundBits_nearest n hd m

theorem roundMag_eq_infMag_iff (n : Nat) {d : Nat} (hd : 0 < d) :
    roundMag n d = infMag ↔ (2 ^ 25 - 1) * 2 ^ 253 * d ≤ 2 * n := by
  rw [roundMag_eq_min, min_eq_left_iff, infMag_le_roundBits_iff n hd]

end Sys2Proof.Machine
end

section
/-! PROOFS. The sign and the magnitude bits of a binary32 value, its kinds, and the value it stands for. -/

namespace Sys2Proof.Machine

/-! ### Sign and magnitude -/

theorem infMag_lt : infMag < 2 ^ 31 := by decide

theorem fMag_fOfSignMag (s : Bool) {m : Nat} (h : m ≤ infMag) : fMag (fOfSignMag s m) = m := by
  have := infMag_lt
  unfold fMag fOfSignMag
  cases s <;> simp only [BitVec.toNat_ofNat, Bool.false_eq_true, if_true, if_false] <;> omega

theorem fSign_fOfSignMag (s : Bool) {m : Nat} (h : m ≤ infMag) : fSign (fOfSignMag s m) = s := by
  have := infMag_lt
  unfold fSign fOfSignMag
  rw [BitVec.msb_eq_decide, BitVec.toNat_ofNat]
  cases s <;> simp only [Bool.false_eq_true, if_true, if_false, decide_eq_true_eq,
    decide_eq_false_iff_not] <;> omega

@[simp] theorem fMag_fneg (a : F32) : fMag (fneg a) = fMag a := by
  simp only [fMag, fneg, BitVec.toNat_xor, Nat.xor_mod_two_pow]
  exact Nat.xor_zero _

@[simp] theorem fSign_fneg (a : F32) : fSign (fneg a) = !fSign a := by
  rw [fSign, fneg, BitVec.msb_xor]
  exact Bool.xor_true _

/-! ### Kinds -/

theorem kind_cases (a : F32) : isNaN a = true ∨ isInf a = true ∨ isFinite a = true := by
  simp only [isNaN, isInf, isFinite, decide_eq_true_eq]
  omega

theorem isFinite_iff {a : F32} : isFinite a = true ↔ fMag a < infMag := decide_eq_true_iff
theorem isInf_iff {a : F32} : isInf a = true ↔ fMag a = infMag := decide_eq_true_iff
theorem isZero_iff {a : F32} : isZero a = true ↔ fMag a = 0 := decide_eq_true_iff

theorem isNaN_of_isInf {a : F32} (h : isInf a = true) : isNaN a = false := by
  simp [isNaN, isInf_iff.mp h]

theorem isZero_of_isInf {a : F32} (h : isInf a = true) : isZero a = false := by
  simp [isZero, isInf_iff.mp h, infMag]

theorem isNaN_of_isFinite {a : F32} (h : isFinite a = true) : isNaN a = false :=
  decide_eq_false (isFinite_iff.mp h).not_gt

theorem isInf_of_isFinite {a : F32} (h : isFinite a = true) : isInf a = false :=
  decide_eq_false (isFinite_iff.mp h).ne

theorem isFinite_of_isZero {a : F32} (h : isZero a = true) : isFinite a = true := by
  simp [isFinite, isZero_iff.mp h, infMag]

theorem isNaN_fOfSignMag (s : Bool) {m : Nat} (h : m ≤ infMag) : isNaN (fOfSignMag s m) = false := by
  simp [isNaN, fMag_fOfSignMag s h, h]

@[simp] theorem isNaN_fneg (a : F32) : isNaN (fneg a) = isNaN a := by simp [isNaN]
@[simp] theorem isInf_fneg (a : F32) : isInf (fneg a) = isInf a := by simp [isInf]
@[simp] theorem isFinite_fneg (a : F32) : isFinite (fneg a) = isFinite a := by simp [isFinite]

/-! ### Infinities and zeros written out -/

theorem fInf_signs (s t : Bool) :
    fInf (s != t) = if s = t then 0x7F800000 else 0xFF800000 := by
  revert s t; decide

theorem fZeroOf_signs (s t : Bool) :
    fZeroOf (s != t) = if s = t then 0x00000000 else 0x80000000 := by
  revert s t; decide

theorem fZeroOf_and (s t : Bool) :
    fZeroOf (s && t) = if s = true ∧ t = true then 0x80000000 else 0x00000000 := by
  revert s t; decide

/-! ### The value in units of 2^-149 -/

theorem fUnits_fOfSignMag (s : Bool) {m : Nat} (h : m ≤ infMag) :
    fUnits (fOfSignMag s m) = magUnits m := by
  rw [fUnits_eq_magUnits, fMag_fOfSignMag s h]

@[simp] theorem natAbs_fToUnits (a : F32) : (fToUnits a).natAbs = fUnits a := by
  unfold fToUnits
  split <;> omega

@[simp] theorem fToUnits_fneg (a : F32) : fToUnits (fneg a) = -fToUnits a := by
  unfold fToUnits
  cases h : fSign a <;> simp [h, fUnits_eq_magUnits]

theorem fToUnits_eq_zero_iff {a : F32} : fToUnits a = 0 ↔ isZero a = true := by
  rw [← Int.natAbs_eq_zero, natAbs_fToUnits, fUnits_eq_magUnits, magUnits_eq_zero, isZero_iff]

/-- The sign bit is the sign of every value but zero. -/
theorem fSign_of_ne_zero {a : F32} (h : fToUnits a ≠ 0) : fSign a = decide (fToUnits a < 0) := by
  unfold fToUnits at *
  cases hs : fSign a
  · simp
  · simp only [hs, if_true] at h ⊢
    exact (decide_eq_true (by omega)).symm

end Sys2Proof.Machine
end

section
/-! PROOFS. Rounding is to the nearest value, with a sign too (00_scope.md R11). -/

namespace Sys2Proof.Machine

/-- Settles O7, by the nearest magnitude among the grid of the binade that holds n/d. -/
theorem roundingIsNearestTiesToEven : Obligations.RoundingIsNearestTiesToEven := by
  intro n d hd
  refine ⟨fun hfin k hk => ?_, roundMag_le n d, roundMag_eq_infMag_iff n hd⟩
  obtain ⟨hle, htie⟩ := roundMag_nearest hd hfin k
  rw [fUnits_fOfSignMag false hfin.le, fUnits_fOfSignMag false hk.le]
  exact ⟨hle, htie⟩

/-- A value of the sign of `n` is as far from `n / d` as its magnitude is from that of `n / d`. -/
theorem natAbs_sub_of_sign {r : F32} {n : Int} (d : Nat) (hs : n ≠ 0 → fSign r = decide (n < 0)) :
    (fToUnits r * d - n).natAbs = unitError (fUnits r) n.natAbs d := by
  unfold fToUnits unitError
  obtain h | rfl | h := lt_trichotomy n 0
  · rw [if_pos (by simp [hs h.ne, h]), Int.neg_mul]
    omega
  · cases fSign r <;> simp
  · rw [if_neg (by simp [hs h.ne', h.le])]
    omega

/-- A value of any sign is no nearer than its magnitude. -/
theorem unitError_le_natAbs_sub (c : F32) (n : Int) (d : Nat) :
    unitError (fUnits c) n.natAbs d ≤ (fToUnits c * d - n).natAbs := by
  unfold fToUnits unitError
  split
  · rw [Int.neg_mul, ← Int.natCast_mul]
    omega
  · rw [← Int.natCast_mul]
    omega

/-- Of two values as far from `n / d`, one of them no farther than zero, the magnitudes differ: opposite values are as far only from 0, where zero is nearer. -/
theorem fMag_ne_of_equidistant {r c : F32} {n : Int} {d : Nat} (hd : 0 < d)
    (hzero : (fToUnits r * d - n).natAbs ≤ n.natAbs) (hne : fToUnits c ≠ fToUnits r)
    (heq : (fToUnits r * d - n).natAbs = (fToUnits c * d - n).natAbs) : fMag c ≠ fMag r := by
  intro hmag
  have hunits : (fToUnits c).natAbs = (fToUnits r).natAbs := by
    rw [natAbs_fToUnits, natAbs_fToUnits, fUnits_eq_magUnits, fUnits_eq_magUnits, hmag]
  have hopp : fToUnits c = -fToUnits r := (Int.natAbs_eq_natAbs_iff.mp hunits).resolve_left hne
  have hnz : fToUnits r * d ≠ 0 := mul_ne_zero (by omega) (by omega)
  rw [hopp, Int.neg_mul] at heq
  omega

/-- The key fact about every operation: the magnitude rounded once, under the sign of the exact value, is that value correctly rounded. -/
theorem isRounded_roundMag (s : Bool) (n : Int) {d : Nat} (hd : 0 < d)
    (hs : n ≠ 0 → s = decide (n < 0)) : isRounded (fOfSignMag s (roundMag n.natAbs d)) n d := by
  have hle := roundMag_le n.natAbs d
  have hinf : roundMag n.natAbs d = infMag ↔ (2 ^ 25 - 1) * 2 ^ 252 * d ≤ n.natAbs := by
    rw [roundMag_eq_infMag_iff _ hd]
    omega
  have hmag := fMag_fOfSignMag s hle
  have hsign := fSign_fOfSignMag s hle
  by_cases h : roundMag n.natAbs d = infMag
  · have hn : n ≠ 0 := by
      have := hinf.mp h
      omega
    exact .inl ⟨isInf_iff.mpr (hmag.trans h), hsign.trans (hs hn), hinf.mp h⟩
  · have hlt := Nat.lt_of_le_of_ne hle h
    have hbest := roundMag_nearest hd hlt
    generalize fOfSignMag s (roundMag n.natAbs d) = r at *
    rw [← hmag, ← fUnits_eq_magUnits] at hbest
    have hdist := natAbs_sub_of_sign (r := r) d (hsign.symm ▸ hs)
    refine .inr ⟨isFinite_iff.mpr (hmag ▸ hlt), Nat.lt_of_not_le (mt hinf.mpr h), fun c _ => ?_⟩
    obtain ⟨hnear, htie⟩ := hbest (fMag c)
    rw [← fUnits_eq_magUnits] at hnear htie
    have hfar := unitError_le_natAbs_sub c n d
    have hzero : (fToUnits r * d - n).natAbs ≤ n.natAbs :=
      hdist.trans_le ((hbest 0).1.trans_eq (unitError_zero _ d))
    exact ⟨by omega, fun hne heq => htie (fMag_ne_of_equidistant hd hzero hne heq) (by omega)⟩

end Sys2Proof.Machine
end

section
/-! PROOFS. What fadd, fsub, fmul and fdiv give for operands of each kind (00_scope.md R11). -/

namespace Sys2Proof.Machine

section
variable {a b : F32}

/-! ### NaN operands -/

theorem fadd_of_isNaN (h : isNaN a = true ∨ isNaN b = true) : fadd a b = fNaN := by
  rw [fadd, if_pos (by simpa using h)]

theorem fsub_of_isNaN (h : isNaN a = true ∨ isNaN b = true) : fsub a b = fNaN :=
  fadd_of_isNaN (by simpa using h)

theorem fmul_of_isNaN (h : isNaN a = true ∨ isNaN b = true) : fmul a b = fNaN := by
  rw [fmul, if_pos (by simpa using h)]

theorem fdiv_of_isNaN (h : isNaN a = true ∨ isNaN b = true) : fdiv a b = fNaN := by
  rw [fdiv, if_pos (by simpa using h)]

/-! ### Infinite operands and zero divisors -/

theorem fadd_isInf_isFinite (ha : isInf a = true) (hb : isFinite b = true) : fadd a b = a := by
  simp [fadd, ha, isNaN_of_isInf ha, isNaN_of_isFinite hb, isInf_of_isFinite hb]

theorem fadd_isFinite_isInf (ha : isFinite a = true) (hb : isInf b = true) : fadd a b = b := by
  simp [fadd, hb, isNaN_of_isInf hb, isNaN_of_isFinite ha, isInf_of_isFinite ha]

theorem fadd_isInf_isInf (ha : isInf a = true) (hb : isInf b = true) :
    fadd a b = if fSign a = fSign b then a else fNaN := by
  simp [fadd, ha, hb, isNaN_of_isInf ha, isNaN_of_isInf hb, ite_not]

theorem fsub_isInf_isInf (ha : isInf a = true) (hb : isInf b = true) :
    fsub a b = if fSign a = fSign b then fNaN else a := by
  rw [fsub, fadd_isInf_isInf ha (by simpa using hb), fSign_fneg]
  cases fSign a <;> cases fSign b <;> rfl

theorem fmul_isInf_left (ha : isInf a = true) (hb : isNaN b = false) :
    fmul a b = if isZero b then fNaN else fInf (fSign a != fSign b) := by
  simp [fmul, ha, hb, isNaN_of_isInf ha, isZero_of_isInf ha]

theorem fmul_isInf_right (ha : isNaN a = false) (hb : isInf b = true) :
    fmul a b = if isZero a then fNaN else fInf (fSign a != fSign b) := by
  simp [fmul, ha, hb, isNaN_of_isInf hb, isZero_of_isInf hb]

theorem fdiv_isInf_left (ha : isInf a = true) (hb : isNaN b = false) :
    fdiv a b = if isInf b then fNaN else fInf (fSign a != fSign b) := by
  simp [fdiv, ha, hb, isNaN_of_isInf ha]

theorem fdiv_isFinite_isInf (ha : isFinite a = true) (hb : isInf b = true) :
    fdiv a b = fZeroOf (fSign a != fSign b) := by
  simp [fdiv, hb, isNaN_of_isInf hb, isNaN_of_isFinite ha, isInf_of_isFinite ha]

theorem fdiv_isZero_right (ha : isFinite a = true) (hb : isZero b = true) :
    fdiv a b = if isZero a then fNaN else fInf (fSign a != fSign b) := by
  have hb' := isFinite_of_isZero hb
  simp [fdiv, hb, isNaN_of_isFinite ha, isInf_of_isFinite ha, isNaN_of_isFinite hb',
    isInf_of_isFinite hb']

/-! ### Finite operands -/

section
variable (ha : isFinite a = true) (hb : isFinite b = true)
include ha hb

theorem fadd_isFinite :
    fadd a b = if fToUnits a + fToUnits b = 0 then fZeroOf (fSign a && fSign b)
      else fOfSignMag (decide (fToUnits a + fToUnits b < 0))
        (roundMag (fToUnits a + fToUnits b).natAbs 1) := by
  simp [fadd, isNaN_of_isFinite ha, isInf_of_isFinite ha, isNaN_of_isFinite hb, isInf_of_isFinite hb]

theorem fmul_isFinite :
    fmul a b = fOfSignMag (fSign a != fSign b) (roundMag (fUnits a * fUnits b) (2 ^ 149)) := by
  simp [fmul, isNaN_of_isFinite ha, isInf_of_isFinite ha, isNaN_of_isFinite hb, isInf_of_isFinite hb]

theorem fdiv_isFinite (hz : isZero b = false) :
    fdiv a b = fOfSignMag (fSign a != fSign b) (roundMag (fUnits a * 2 ^ 149) (fUnits b)) := by
  simp [fdiv, hz, isNaN_of_isFinite ha, isInf_of_isFinite ha, isNaN_of_isFinite hb,
    isInf_of_isFinite hb]

end

/-! ### NaN results -/

theorem isNaN_fOfSignMag_roundMag (s : Bool) (n d : Nat) :
    isNaN (fOfSignMag s (roundMag n d)) = false :=
  isNaN_fOfSignMag s (roundMag_le n d)

theorem isNaN_fInf (s : Bool) : isNaN (fInf s) = false := isNaN_fOfSignMag s le_rfl

theorem isNaN_fZeroOf (s : Bool) : isNaN (fZeroOf s) = false := isNaN_fOfSignMag s (Nat.zero_le _)

end

end Sys2Proof.Machine
end

section
/-! PROOFS. The operations of R11: their NaN results are canonical, and their finite results are the exact ones rounded once. -/

namespace Sys2Proof.Machine

/-! ### Canonical NaN results -/

theorem operand_cases (a b : F32) :
    (isNaN a = true ∨ isNaN b = true) ∨ (isInf a = true ∧ isInf b = true) ∨
      (isInf a = true ∧ isFinite b = true) ∨ (isFinite a = true ∧ isInf b = true) ∨
      (isFinite a = true ∧ isFinite b = true) := by
  have ha := kind_cases a
  have hb := kind_cases b
  tauto

theorem fadd_eq_fNaN_of_isNaN {a b : F32} (h : isNaN (fadd a b) = true) : fadd a b = fNaN := by
  obtain hn | ⟨ha, hb⟩ | ⟨ha, hb⟩ | ⟨ha, hb⟩ | ⟨ha, hb⟩ := operand_cases a b
  · exact fadd_of_isNaN hn
  · rw [fadd_isInf_isInf ha hb] at *
    split at h
    · simp [isNaN_of_isInf ha] at h
    · next hs => exact if_neg hs
  · simp [fadd_isInf_isFinite ha hb, isNaN_of_isInf ha] at h
  · simp [fadd_isFinite_isInf ha hb, isNaN_of_isInf hb] at h
  · rw [fadd_isFinite ha hb] at h
    split at h
    · simp [isNaN_fZeroOf] at h
    · simp [isNaN_fOfSignMag_roundMag] at h

theorem fmul_eq_fNaN_of_isNaN {a b : F32} (h : isNaN (fmul a b) = true) : fmul a b = fNaN := by
  obtain hn | ⟨ha, hb⟩ | ⟨ha, hb⟩ | ⟨ha, hb⟩ | ⟨ha, hb⟩ := operand_cases a b
  · exact fmul_of_isNaN hn
  · simp [fmul_isInf_left ha (isNaN_of_isInf hb), isZero_of_isInf hb, isNaN_fInf] at h
  · rw [fmul_isInf_left ha (isNaN_of_isFinite hb)] at *
    split at h
    · next hz => exact if_pos hz
    · simp [isNaN_fInf] at h
  · rw [fmul_isInf_right (isNaN_of_isFinite ha) hb] at *
    split at h
    · next hz => exact if_pos hz
    · simp [isNaN_fInf] at h
  · simp [fmul_isFinite ha hb, isNaN_fOfSignMag_roundMag] at h

theorem fdiv_eq_fNaN_of_isNaN {a b : F32} (h : isNaN (fdiv a b) = true) : fdiv a b = fNaN := by
  obtain hn | ⟨ha, hb⟩ | ⟨ha, hb⟩ | ⟨ha, hb⟩ | ⟨ha, hb⟩ := operand_cases a b
  · exact fdiv_of_isNaN hn
  · simp [fdiv_isInf_left ha (isNaN_of_isInf hb), hb]
  · simp [fdiv_isInf_left ha (isNaN_of_isFinite hb), isInf_of_isFinite hb, isNaN_fInf] at h
  · simp [fdiv_isFinite_isInf ha hb, isNaN_fZeroOf] at h
  · cases hz : isZero b
    · simp [fdiv_isFinite ha hb hz, isNaN_fOfSignMag_roundMag] at h
    · rw [fdiv_isZero_right ha hz] at *
      split at h
      · next hz => exact if_pos hz
      · simp [isNaN_fInf] at h

/-- Settles O9, by the kinds of the two operands. -/
theorem nanResultsAreCanonical : Obligations.NanResultsAreCanonical := by
  intro a b
  refine ⟨fadd_eq_fNaN_of_isNaN, fadd_eq_fNaN_of_isNaN, fmul_eq_fNaN_of_isNaN,
    fdiv_eq_fNaN_of_isNaN,
    fun h => ⟨fadd_of_isNaN h, fsub_of_isNaN h, fmul_of_isNaN h, fdiv_of_isNaN h⟩,
    fun ha hb => ?_, fun ha hb => ?_, fun ha hb => ⟨?_, fun hs => ?_, fun hs => ?_⟩⟩
  · have hn := isNaN_of_isFinite (isFinite_of_isZero ha)
    exact ⟨(fmul_isInf_right hn hb).trans (if_pos ha), (fmul_isInf_left hb hn).trans (if_pos ha)⟩
  · exact (fdiv_isZero_right (isFinite_of_isZero ha) hb).trans (if_pos ha)
  · exact (fdiv_isInf_left ha (isNaN_of_isInf hb)).trans (if_pos hb)
  · exact (fadd_isInf_isInf ha hb).trans (if_neg hs)
  · exact (fsub_isInf_isInf ha hb).trans (if_pos hs)

/-! ### Finite results -/

theorem fZeroOf_eq_roundMag (s : Bool) :
    fZeroOf s = fOfSignMag s (roundMag (0 : Int).natAbs 1) := by
  rw [show roundMag (0 : Int).natAbs 1 = 0 by decide, fZeroOf]

section
variable {a b : F32} (ha : isFinite a = true) (hb : isFinite b = true)
include ha hb

theorem isRounded_fadd : isRounded (fadd a b) (fToUnits a + fToUnits b) 1 := by
  rw [fadd_isFinite ha hb]
  split
  · next hz =>
    rw [hz, fZeroOf_eq_roundMag]
    exact isRounded_roundMag _ 0 one_pos (absurd rfl)
  · exact isRounded_roundMag _ _ one_pos fun _ => rfl

theorem isRounded_fsub : isRounded (fsub a b) (fToUnits a - fToUnits b) 1 := by
  have h := isRounded_fadd ha ((isFinite_fneg b).trans hb)
  rwa [fToUnits_fneg, ← Int.sub_eq_add_neg] at h

theorem fadd_of_sum_zero (h : fToUnits a + fToUnits b = 0) :
    fadd a b = if fSign a = true ∧ fSign b = true then 0x80000000 else 0x00000000 := by
  rw [fadd_isFinite ha hb, if_pos h, fZeroOf_and]

theorem fsub_of_difference_zero (h : fToUnits a - fToUnits b = 0) :
    fsub a b = if fSign a = true ∧ fSign b = false then 0x80000000 else 0x00000000 := by
  rw [fsub, fadd_of_sum_zero ha ((isFinite_fneg b).trans hb) (by rwa [fToUnits_fneg])]
  simp only [fSign_fneg, Bool.not_eq_true']

theorem fSign_fmul : fSign (fmul a b) = (fSign a != fSign b) := by
  rw [fmul_isFinite ha hb, fSign_fOfSignMag _ (roundMag_le _ _)]

theorem fSign_fdiv (hz : isZero b = false) : fSign (fdiv a b) = (fSign a != fSign b) := by
  rw [fdiv_isFinite ha hb hz, fSign_fOfSignMag _ (roundMag_le _ _)]

end

theorem decide_mul_neg {x y : Int} (h : x * y ≠ 0) :
    decide (x * y < 0) = (decide (x < 0) != decide (y < 0)) := by
  obtain ⟨hx, hy⟩ := mul_ne_zero_iff.mp h
  obtain hx | hx := lt_or_gt_of_ne hx <;> obtain hy | hy := lt_or_gt_of_ne hy
  · simp [hx, hy, (Int.mul_pos_of_neg_of_neg hx hy).not_gt]
  · simp [hx, hy.not_gt, Int.mul_neg_of_neg_of_pos hx hy]
  · simp [hx.not_gt, hy, Int.mul_neg_of_pos_of_neg hx hy]
  · simp [hx.not_gt, hy.not_gt, (Int.mul_pos hx hy).not_gt]

section
variable {a b : F32} (ha : isFinite a = true) (hb : isFinite b = true)
include ha hb

theorem isRounded_fmul : isRounded (fmul a b) (fToUnits a * fToUnits b) (2 ^ 149) := by
  rw [fmul_isFinite ha hb, ← natAbs_fToUnits, ← natAbs_fToUnits, ← Int.natAbs_mul]
  refine isRounded_roundMag _ _ (Nat.two_pow_pos 149) fun h => ?_
  obtain ⟨hx, hy⟩ := mul_ne_zero_iff.mp h
  rw [decide_mul_neg h, fSign_of_ne_zero hx, fSign_of_ne_zero hy]

theorem isRounded_fdiv (hz : isZero b = false) :
    isRounded (fdiv a b) (fToUnits a * 2 ^ 149 * (fToUnits b).sign) (fToUnits b).natAbs := by
  have hy : fToUnits b ≠ 0 := mt fToUnits_eq_zero_iff.mp (by simp [hz])
  have hmag : (fToUnits a * 2 ^ 149 * (fToUnits b).sign).natAbs = fUnits a * 2 ^ 149 := by
    simp [Int.natAbs_mul, Int.natAbs_sign_of_ne_zero hy]
  have hneg : fToUnits a * 2 ^ 149 < 0 ↔ fToUnits a < 0 := by omega
  rw [fdiv_isFinite ha hb hz, ← hmag, ← natAbs_fToUnits b]
  refine isRounded_roundMag _ _ (Int.natAbs_pos.mpr hy) fun h => ?_
  have hx : fToUnits a ≠ 0 := by
    rintro hx
    simp [hx] at h
  simp only [decide_mul_neg h, hneg, Int.sign_neg_iff, fSign_of_ne_zero hx, fSign_of_ne_zero hy]

end

/-- Settles O8, by the kinds of the two operands: finite ones are rounded by `isRounded_roundMag`. -/
theorem arithmeticIsCorrectlyRounded : Obligations.ArithmeticIsCorrectlyRounded := by
  refine ⟨fun a b ha hb => ?_, fun a b ha hb => ?_, fun a b ha hb => ?_, fun a b ha hn hz => ?_,
    fun a b ha hnz hb => ?_⟩
  · exact ⟨isRounded_fadd ha hb, isRounded_fsub ha hb, isRounded_fmul ha hb, isRounded_fdiv ha hb,
      fadd_of_sum_zero ha hb, fsub_of_difference_zero ha hb, fSign_fmul ha hb, fSign_fdiv ha hb⟩
  · refine ⟨fadd_isInf_isFinite ha hb, fadd_isFinite_isInf hb ha,
      fadd_isInf_isFinite ha ((isFinite_fneg b).trans hb),
      fadd_isFinite_isInf hb ((isInf_fneg a).trans ha), ?_, ?_⟩
    · rw [fdiv_isInf_left ha (isNaN_of_isFinite hb), isInf_of_isFinite hb, ← fInf_signs]
      rfl
    · rw [fdiv_isFinite_isInf hb ha, fZeroOf_signs]
      simp only [eq_comm]
  · exact ⟨fun hs => (fadd_isInf_isInf ha hb).trans (if_pos hs),
      fun hs => (fsub_isInf_isInf ha hb).trans (if_neg hs)⟩
  · rw [fmul_isInf_left ha hn, fmul_isInf_right hn ha, hz, ← fInf_signs, bne_comm]
    exact ⟨rfl, rfl⟩
  · rw [fdiv_isZero_right ha hb, hnz, ← fInf_signs]
    rfl

end Sys2Proof.Machine
end

section
/-! PROOFS. Conversion to a signed byte (00_scope.md R12). -/

namespace Sys2Proof.Machine

theorem cvtSat8_of_isNaN {a : F32} (h : isNaN a = true) : cvtSat8 a = 0 := if_pos h

theorem cvtSat8_of_isInf {a : F32} (h : isInf a = true) :
    cvtSat8 a = if fSign a then -128 else 127 := by
  simp [cvtSat8, h, isNaN_of_isInf h]

/-- The integer that a finite value is rounded to, before saturation. -/
def nearestInt (a : F32) : Int :=
  if fSign a then -(roundEven (fUnits a) (2 ^ 149) : Int) else roundEven (fUnits a) (2 ^ 149)

theorem cvtSat8_of_isFinite {a : F32} (h : isFinite a = true) :
    cvtSat8 a = min 127 (max (-128) (nearestInt a)) := by
  simp [cvtSat8, saturate8, nearestInt, isNaN_of_isFinite h, isInf_of_isFinite h]

theorem natAbs_nearestInt_sub (a : F32) :
    (nearestInt a * 2 ^ 149 - fToUnits a).natAbs =
      unitError (roundEven (fUnits a) (2 ^ 149)) (fUnits a) (2 ^ 149) := by
  unfold nearestInt fToUnits unitError
  split
  · push_cast
    omega
  · rfl

theorem nearestInt_mod_two (a : F32) :
    nearestInt a % 2 = (roundEven (fUnits a) (2 ^ 149) % 2 : Nat) := by
  unfold nearestInt
  split <;> omega

theorem quantize_toNat (f q : F32) : ((quantize f q).toNat : Int) = cvtSat8 (fdiv f q) % 256 := by
  rw [quantize, BitVec.toNat_ofInt]
  exact Int.toNat_of_nonneg (Int.emod_nonneg _ (by decide))

/-- Settles O10: a finite value is rounded as its magnitude is, and -n is even as n is. -/
theorem cvtSat8RoundsAndSaturates : Obligations.CvtSat8RoundsAndSaturates := by
  refine ⟨fun a => cvtSat8_of_isNaN, fun a => cvtSat8_of_isInf, fun a ha => ?_, quantize_toNat⟩
  obtain ⟨hhalf, htie⟩ := roundEven_half (fUnits a) (Nat.two_pow_pos 149)
  refine ⟨nearestInt a, ?_, ?_, cvtSat8_of_isFinite ha⟩
  · rwa [natAbs_nearestInt_sub]
  · rw [natAbs_nearestInt_sub, nearestInt_mod_two]
    exact fun h => congrArg Nat.cast (htie h)

end Sys2Proof.Machine
end

section
/-! PROOFS. What the host can do to a command in flight: it can abandon it, and otherwise it reaches only CTRL.IE, STATUS.WERR and its own data (10_state.md R46; 20_memory.md R66, R73). -/

namespace Sys2Proof.Machine

/-- The command in flight and all that it reads and writes are the same in both states: they differ in nothing but CTRL.IE, STATUS.WERR and what is the host's own. -/
structure State.SameCommand (s s' : State) : Prop where
  inFlight : s'.inFlight = s.inFlight
  etab : s'.etab = s.etab
  dtab : s'.dtab = s.dtab
  dmem : s'.dmem = s.dmem
  regs : s'.regs = { s.regs with ie := s'.regs.ie, werr := s'.regs.werr }

theorem State.SameCommand.refl (s : State) : s.SameCommand s := ⟨rfl, rfl, rfl, rfl, rfl⟩

/-- While a command is in flight, a word written to the register block resets the machine or leaves the command alone: DONE and ERR are clear, so that a write to STATUS can only clear WERR (R27, R73, R110). -/
theorem writeWord_sameCommand (v : Word) (s : State) (r : Region) (hb : s.regs.busy = true)
    (hd : s.regs.done = false) (he : s.regs.err = false) :
    writeWord v s r = s.softReset ∨ s.SameCommand (writeWord v s r) := by
  obtain h | ⟨hi, -⟩ | h | h | ⟨ie, h⟩ | h | ⟨hi, -⟩ | ⟨hi, -⟩ := writeWord_cases v s r
  · exact .inl h
  · simp [hb] at hi
  · exact .inr (h ▸ ⟨rfl, rfl, rfl, rfl, rfl⟩)
  · exact .inr (h.symm ▸ .refl s)
  · exact .inr (h ▸ ⟨rfl, rfl, rfl, rfl, rfl⟩)
  · exact .inr (h ▸ ⟨rfl, rfl, rfl, rfl, by simp [writeStatus, hd, he]⟩)
  · simp [hb] at hi
  · simp [hb] at hi

/-- While a command is in flight, an access of the host resets the machine or leaves the command alone (R46, R66, R73). -/
theorem hostAccess_sameCommand {x : HostAccess} {s s' : State} (h : hostAccess x s = .next s')
    (hb : s.regs.busy = true) (hd : s.regs.done = false) (he : s.regs.err = false) :
    s' = s.softReset ∨ s.SameCommand s' := by
  cases x with
  | write off width v =>
    obtain hw | ⟨-, -, hw⟩ | ⟨-, -, -, hw⟩ | ⟨-, -, hi, hw⟩ := hostWrite_cases off width v s <;>
      simp only [hostAccess, hw, reduceCtorEq, Host.Outcome.next.injEq] at h
    · exact h ▸ writeWord_sameCommand v s _ hb hd he
    · exact .inr (h ▸ ⟨rfl, rfl, rfl, rfl, rfl⟩)
    · simp [hb] at hi
  | read off width =>
    obtain hr | ⟨d, hr⟩ | ⟨-, d, hr⟩ := hostRead_cases off width s <;>
      simp only [hostAccess, hr, reduceCtorEq, Host.Outcome.next.injEq] at h
    · exact .inr (h ▸ ⟨rfl, rfl, rfl, rfl, rfl⟩)
    · exact .inr (h ▸ ⟨rfl, rfl, rfl, rfl, rfl⟩)

/-- A completion writes neither CTRL.IE nor STATUS.WERR, and reads no register that differs (R99, R112). -/
theorem State.SameCommand.complete {s s' : State} (h : s.SameCommand s') (r : Result) :
    (s'.complete r).dmem = (s.complete r).dmem ∧ (s'.complete r).etab = (s.complete r).etab ∧
      (s'.complete r).dtab = (s.complete r).dtab ∧
      (s'.complete r).regs =
        { (s.complete r).regs with ie := s'.regs.ie, werr := s'.regs.werr } := by
  refine ⟨by simp [h.dmem], by simp [h.etab], by simp [h.dtab], ?_⟩
  rw [State.complete_regs, State.complete_regs, h.regs]
  obtain ⟨_ | _, _⟩ := r <;> rfl

/-- Settles O56: short of a reset an access leaves the command alone, and both states complete the same word on the same snapshot. -/
theorem hostCannotDisturbACommand : Obligations.HostCannotDisturbACommand := by
  intro s s' x hinv hb hx hf'
  obtain ⟨f, hf⟩ := Option.isSome_iff_exists.1 (hinv.busy ▸ hb)
  have ha := hinv.snapshot f hf
  obtain rfl | hsame := hostAccess_sameCommand hx hb ha.noDone ha.noErr
  · exact absurd (State.softReset_inFlight s) hf'
  · exact ⟨_, _, engineStep_eq s f hf, engineStep_eq s' f (hsame.inFlight.trans hf),
      hsame.complete _⟩

end Sys2Proof.Machine
end

section
/-! PROOFS. The register block and the windows, register by register and word by word (10_state.md R23 to R44), and the interrupt line (R49). -/

namespace Sys2Proof.Machine

/-- A write to a register goes to the register named (R23, R68). -/
theorem hostWrite_register (r : RegName) (v : Word) (s : State) :
    hostWrite r.offset 32 v s = .next (writeWord v s (.reg r)) := by
  obtain ⟨hlt, hsup⟩ := r.offset_supported
  simp [hostWrite, hlt, hsup]

/-- A read of a register returns it and changes nothing else, at any time (R41). -/
theorem hostRead_register (r : RegName) (s : State) :
    hostRead r.offset 32 s = .next { s with hostData := regRead s.regs r } := by
  obtain ⟨hlt, hsup⟩ := r.offset_supported
  simp [hostRead, hlt, hsup, afterRead, readWord]

/-- A word access at a multiple of 4 in the register block goes to the region there (R62, R68). -/
theorem hostWrite_word {off : Nat} {r : Region} (v : Word) (s : State) (hlt : off < 0x10000)
    (h4 : off % 4 = 0) (hr : regionOf off = r) :
    hostWrite off 32 v s = .next (writeWord v s r) := by
  subst hr
  simp [hostWrite, supportedRegister, apertureBase, hlt, h4]

theorem hostRead_word {off : Nat} {r : Region} (s : State) (hlt : off < 0x10000)
    (h4 : off % 4 = 0) (hr : regionOf off = r) :
    hostRead off 32 s = .next { afterRead s r with hostData := readWord s r } := by
  subst hr
  simp [hostRead, supportedRegister, apertureBase, hlt, h4]

/-! ### The regions by their offsets (R68) -/

theorem regionOf_reserved {off : Nat} (h4 : off % 4 = 0)
    (h : (0x064 ≤ off ∧ off ≤ 0x7FC) ∨ (0x2400 ≤ off ∧ off ≤ 0xFFFC)) :
    regionOf off = .reserved := by
  unfold regionOf
  rcases h with ⟨h1, h2⟩ | ⟨h1, h2⟩
  · rw [if_neg (by omega), if_pos (by omega)]
  · rw [if_neg (by omega), if_neg (by omega), if_neg (by omega), if_neg (by omega),
      if_neg (by omega)]

theorem regionOf_etab {i word : Nat} (hi : i < 256) (hw : word < 2) :
    regionOf (0x800 + 8 * i + 4 * word) = .etab i word := by
  unfold regionOf
  rw [if_neg (by omega), if_neg (by omega), if_pos (by omega)]
  congr 1 <;> omega

theorem regionOf_dtab {i word : Nat} (hi : i < 256) (hw : word < 4) :
    regionOf (0x1000 + 16 * i + 4 * word) = .dtab i word := by
  unfold regionOf
  rw [if_neg (by omega), if_neg (by omega), if_neg (by omega), if_pos (by omega)]
  congr 1 <;> omega

theorem regionOf_ctab {x u : Nat} (hx : x ≤ 15) (hu : u ≤ 15) :
    regionOf (0x2000 + 4 * (16 * x + u)) = .ctab x u := by
  unfold regionOf
  rw [if_neg (by omega), if_neg (by omega), if_neg (by omega), if_neg (by omega),
    if_pos (by omega)]
  congr 1 <;> omega

/-- With nothing in flight no read of the register block has a side effect (R67). -/
theorem afterRead_idle {s : State} (r : Region) (hb : s.regs.busy = false) : afterRead s r = s := by
  obtain h | ⟨h, -⟩ := afterRead_cases s r
  · exact h
  · simp [hb] at h

/-- Settles O49: a read while idle is never dropped, and a register is never a window. -/
theorem hostReadsChangeNothing : Obligations.HostReadsChangeNothing := by
  intro s off width
  refine ⟨fun hb t ht => ?_, fun r => hostRead_register r s⟩
  obtain h | ⟨d, h⟩ | ⟨hbusy, -⟩ := hostRead_cases off width s
  · simp [h] at ht
  · obtain rfl : _ = t := by simpa [h] using ht
    rfl
  · simp [hb] at hbusy

/-- Settles O50: the reserved region has no word to read or write. -/
theorem reservedOffsetsAreInert : Obligations.ReservedOffsetsAreInert := by
  intro s off v h4 h
  have hr := regionOf_reserved h4 h
  have hlt : off < 0x10000 := by omega
  exact ⟨hostWrite_word v s hlt h4 hr, hostRead_word s hlt h4 hr⟩

/-- A word of CTAB is an entry of the table of a legal block size: x < N leaves no N = 0 (R44). -/
theorem ctabRead_eq (blkn : BitVec 5) (x u : Nat) :
    ctabRead blkn x u =
      if 1 ≤ blkn.toNat ∧ blkn.toNat ≤ 16 ∧ x < blkn.toNat ∧ u < blkn.toNat
      then cosEntry blkn.toNat x u else 0 := by
  unfold ctabRead Config.nMax
  exact if_congr ⟨fun h => ⟨by omega, h⟩, And.right⟩ rfl rfl

/-- Settles O51: the offset is that of the word (x, u) of CTAB. -/
theorem ctabWindowFollowsBlockSize : Obligations.CtabWindowFollowsBlockSize := by
  intro s x u v hb hx hu
  have hr := regionOf_ctab hx hu
  refine ⟨?_, ?_⟩
  · rw [hostRead_word s (by omega) (by omega) hr, afterRead_idle _ hb]
    simp [readWord, hb, ctabRead_eq]
  · rw [hostWrite_word v s (by omega) (by omega) hr]
    simp [writeWord, hb]

section Windows
variable {s : State} {i word off : Nat} (hb : s.regs.busy = false) (hi : i < 256)
include hb hi

/-- A word of ETAB as the host reads it while idle (R42). -/
theorem hostRead_etab (hw : word < 2) (ho : off = 0x800 + 8 * i + 4 * word) :
    hostRead off 32 s = .next { s with hostData := etabRead s.etab i word } := by
  subst ho
  rw [hostRead_word s (by omega) (by omega) (regionOf_etab hi hw), afterRead_idle _ hb]
  simp [readWord, hb]

/-- ETAB ignores writes (R42). -/
theorem hostWrite_etab (v : Word) (hw : word < 2) (ho : off = 0x800 + 8 * i + 4 * word) :
    hostWrite off 32 v s = .next s := by
  subst ho
  rw [hostWrite_word v s (by omega) (by omega) (regionOf_etab hi hw)]
  simp [writeWord, hb]

/-- A word of DTAB as the host reads it while idle (R43). -/
theorem hostRead_dtab (hw : word < 4) (ho : off = 0x1000 + 16 * i + 4 * word) :
    hostRead off 32 s = .next { s with hostData := dtabRead s.dtab i word } := by
  subst ho
  rw [hostRead_word s (by omega) (by omega) (regionOf_dtab hi hw), afterRead_idle _ hb]
  simp [readWord, hb]

/-- A write to a word of DTAB while idle (R43). -/
theorem hostWrite_dtab (v : Word) (hw : word < 4) (ho : off = 0x1000 + 16 * i + 4 * word) :
    hostWrite off 32 v s = .next { s with dtab := dtabStore s.dtab i word v } := by
  subst ho
  rw [hostWrite_word v s (by omega) (by omega) (regionOf_dtab hi hw)]
  simp [writeWord, hb]

end Windows

theorem etabRead_code (t : Vector EtabEntry 256) (i : Nat) :
    etabRead t i 0 = (entryAt t i ⟨0, 0⟩).code := rfl

theorem etabRead_len (t : Vector EtabEntry 256) (i : Nat) :
    etabRead t i 1 = (entryAt t i ⟨0, 0⟩).len.setWidth 32 :=
  (BitVec.setWidth_eq_append (by decide)).symm

theorem dtabRead_code (t : Vector DtabEntry 256) (i : Nat) :
    dtabRead t i 0 = (entryAt t i ⟨0, 0, 0⟩).code := rfl

theorem dtabRead_len (t : Vector DtabEntry 256) (i : Nat) :
    dtabRead t i 1 = (entryAt t i ⟨0, 0, 0⟩).len.setWidth 32 :=
  (BitVec.setWidth_eq_append (by decide)).symm

theorem dtabRead_value (t : Vector DtabEntry 256) (i : Nat) :
    dtabRead t i 2 = (entryAt t i ⟨0, 0, 0⟩).value.setWidth 32 :=
  (BitVec.setWidth_eq_append (by decide)).symm

theorem dtabRead_reserved (t : Vector DtabEntry 256) (i : Nat) : dtabRead t i 3 = 0 := rfl

/-- A host write to a DTAB entry leaves every other entry alone (R43). -/
theorem entryAt_dtabStore_other (t : Vector DtabEntry 256) {i j : Nat} (word : Nat) (v : Word)
    (hj : j < 256) (hij : j ≠ i) :
    entryAt (dtabStore t i word v) j ⟨0, 0, 0⟩ = entryAt t j ⟨0, 0, 0⟩ := by
  rw [dtabStore, entryAt_tableOf _ _ hj, if_neg hij]

theorem entryAt_dtabStore_same (t : Vector DtabEntry 256) {i : Nat} (word : Nat) (v : Word)
    (hi : i < 256) :
    entryAt (dtabStore t i word v) i ⟨0, 0, 0⟩ = (entryAt t i ⟨0, 0, 0⟩).store word v := by
  rw [dtabStore, entryAt_tableOf _ _ hi, if_pos rfl]

/-- The fields of a DTAB entry after a write to one of its words; its fourth word is reserved (R43). -/
theorem DtabEntry.store_eq (e : DtabEntry) {word : Nat} (v : Word) (hw : word < 4) :
    e.store word v =
      ⟨if word = 0 then v else e.code, if word = 1 then v.setWidth 6 else e.len,
        if word = 2 then v.setWidth 8 else e.value⟩ := by
  interval_cases word <;> rfl

/-- Settles O52: each word by its region, and a stored entry field by field. -/
theorem tableWindows : Obligations.TableWindows := by
  intro s i v hb hi e d
  have etab (off word : Nat) := hostRead_etab (off := off) (word := word) hb hi
  have dtab (off word : Nat) := hostRead_dtab (off := off) (word := word) hb hi
  have keep (off word : Nat) := hostWrite_etab (off := off) (word := word) hb hi v
  refine ⟨?_, ?_, ?_, ?_, ?_, ?_, ?_, ?_, fun word hw => ?_⟩
  · rw [etab _ 0 (by decide) (by omega), etabRead_code]
  · rw [etab _ 1 (by decide) (by omega), etabRead_len]
  · exact keep _ 0 (by decide) (by omega)
  · exact keep _ 1 (by decide) (by omega)
  · rw [dtab _ 0 (by decide) (by omega), dtabRead_code]
  · rw [dtab _ 1 (by decide) (by omega), dtabRead_len]
  · rw [dtab _ 2 (by decide) (by omega), dtabRead_value]
  · rw [dtab _ 3 (by decide) (by omega), dtabRead_reserved]
  · refine ⟨_, hostWrite_dtab hb hi v hw rfl, rfl, fun j hj hij => ?_, ?_⟩
    · exact entryAt_dtabStore_other _ _ _ hj hij
    · exact (entryAt_dtabStore_same _ _ _ hi).trans (DtabEntry.store_eq _ v hw)

/-! ### What a register write stores (R23) -/

/-- The registers after a write to one that only stores: each read/write field, the others kept (R29 to R34). -/
theorem regStore_eq (r : Regs) (v : Word) (n : RegName) :
    regStore r v n =
      { r with
        blkn := if n = .cfg then v.setWidth 5 else r.blkn
        src := if n = .src then v else r.src
        dst := if n = .dst then v else r.dst
        count := if n = .count then v else r.count
        width := if n = .width then v else r.width
        height := if n = .height then v else r.height
        plane := if n = .plane then v else r.plane
        qaddr := if n = .qaddr then v else r.qaddr
        bias := if n = .bias then v else r.bias
        arg0 := if n = .arg0 then v else r.arg0
        dtcnt := if n = .dtcnt then v.setWidth 9 else r.dtcnt
        bitcnt :=
          if n = .bitcntLo then (r.bitcnt >>> 32).setWidth 32 ++ v
          else if n = .bitcntHi then v ++ r.bitcnt.setWidth 32 else r.bitcnt } := by
  cases n <;> rfl

/-- The read/write bits of a register that only stores (R23). -/
def RegName.rwMask (r : RegName) : Word :=
  if r = .cfg then 0x1F else if r = .dtcnt then 0x1FF
  else if r ∈ [.src, .dst, .count, .width, .height, .plane, .qaddr, .bias, .arg0, .bitcntLo,
    .bitcntHi] then 0xFFFFFFFF
  else 0

/-- A field in the low bits of a register, 0 above it, takes the low bits of the word stored (R23). -/
theorem append_setWidth_masked {m n : Nat} (v : BitVec (m + n)) (x : BitVec n) :
    0#m ++ v.setWidth n =
      (v &&& (0#m ++ BitVec.allOnes n)) ||| ((0#m ++ x) &&& ~~~(0#m ++ BitVec.allOnes n)) := by
  ext i hi
  by_cases h : i < n
  · simp [BitVec.getElem_append, h, BitVec.getLsbD_eq_getElem hi]
  · simp [BitVec.getElem_append, h]

theorem masked_all (v x : Word) : (v &&& 0xFFFFFFFF) ||| (x &&& ~~~0xFFFFFFFF) = v := by
  change (v &&& BitVec.allOnes 32) ||| (x &&& ~~~BitVec.allOnes 32) = v
  rw [BitVec.and_allOnes, BitVec.not_allOnes, BitVec.and_zero, BitVec.or_zero]

theorem masked_none (v x : Word) : (v &&& 0) ||| (x &&& ~~~0) = x := by
  change (v &&& 0#32) ||| (x &&& ~~~0#32) = x
  rw [BitVec.and_zero, BitVec.zero_or, BitVec.not_zero, BitVec.and_allOnes]

/-- Two fields side by side, as numbers. -/
theorem toNat_append_eq_add {m n : Nat} (x : BitVec m) (y : BitVec n) :
    (x ++ y).toNat = 2 ^ n * x.toNat + y.toNat := by
  rw [BitVec.toNat_append, Nat.shiftLeft_eq, Nat.mul_comm, Nat.two_pow_add_eq_or_of_lt y.isLt]

/-- The halves of a 64-bit register (R32). -/
theorem low_append (a b : Word) : (a ++ b).setWidth 32 = b := by
  apply BitVec.eq_of_toNat_eq
  rw [BitVec.toNat_setWidth, toNat_append_eq_add]
  omega

theorem high_append (a b : Word) : ((a ++ b) >>> 32).setWidth 32 = a := by
  apply BitVec.eq_of_toNat_eq
  rw [BitVec.toNat_setWidth, BitVec.toNat_ushiftRight, toNat_append_eq_add,
    Nat.shiftRight_eq_div_pow]
  omega

/-- A write to a register that only stores is read back in its read/write bits (R23, R29 to R34). -/
theorem regRead_regStore_same (r : Regs) (v : Word) (n : RegName) (hctrl : n ≠ .ctrl)
    (hstatus : n ≠ .status) (hcmd : n ≠ .cmd) :
    regRead (regStore r v n) n = (v &&& n.rwMask) ||| (regRead r n &&& ~~~n.rwMask) := by
  cases n with
  | ctrl => exact absurd rfl hctrl
  | status => exact absurd rfl hstatus
  | cmd => exact absurd rfl hcmd
  | cfg => exact append_setWidth_masked (m := 27) v r.blkn
  | dtcnt => exact append_setWidth_masked (m := 23) v r.dtcnt
  | bitcntLo => exact (low_append _ _).trans (masked_all v _).symm
  | bitcntHi => exact (high_append _ _).trans (masked_all v _).symm
  | id | version | outcnt | maxlen | errinfo | bbptr | bbstate | bbtotLo | bbtotHi =>
    exact (masked_none v _).symm
  | src | dst | count | width | height | plane | qaddr | bias | arg0 =>
    exact (masked_all v _).symm

/-- A write to a register that only stores leaves what every other register reads as (R23). -/
theorem regRead_regStore_other (r : Regs) (v : Word) {n n' : RegName} (h : n' ≠ n) :
    regRead (regStore r v n) n' = regRead r n' := by
  rw [regStore_eq]
  cases n' with
  | bitcntLo =>
    by_cases hn : n = .bitcntHi <;> simp [regRead, hn, h.symm, low_append]
  | bitcntHi =>
    by_cases hn : n = .bitcntLo <;> simp [regRead, hn, h.symm, high_append]
  | _ => simp [regRead, ctrlWord, statusWord, h.symm]

/-- A write to any other register than CTRL, STATUS and CMD only stores, while idle (R41). -/
theorem writeWord_register {s : State} {r : RegName} (v : Word) (hb : s.regs.busy = false)
    (hctrl : r ≠ .ctrl) (hstatus : r ≠ .status) (hcmd : r ≠ .cmd) :
    writeWord v s (.reg r) = { s with regs := regStore s.regs v r } := by
  cases r with
  | ctrl => exact absurd rfl hctrl
  | status => exact absurd rfl hstatus
  | cmd => exact absurd rfl hcmd
  | _ => simp [writeWord, hb]

/-- Settles O46: such a write only stores, and what is stored is read back under the register's mask. -/
theorem registerWritesAndReads : Obligations.RegisterWritesAndReads := by
  intro s r r' v hb hctrl hstatus hcmd mask
  refine ⟨{ s with regs := regStore s.regs v r }, ?_, rfl, ?_, regRead_regStore_other s.regs v⟩
  · rw [hostWrite_register, writeWord_register v hb hctrl hstatus hcmd]
  · exact regRead_regStore_same s.regs v r hctrl hstatus hcmd

/-! ### The status words (R26, R27, R38) -/

theorem ctrlWord_toNat (r : Regs) : (ctrlWord r).toNat = r.ie.toNat := by
  simp only [ctrlWord, toNat_append_eq_add, BitVec.toNat_ofBool, BitVec.toNat_ofNat]
  omega

theorem statusWord_toNat (r : Regs) :
    (statusWord r).toNat =
      r.busy.toNat + 2 * r.done.toNat + 4 * r.err.toNat + 8 * r.werr.toNat +
        2 ^ 8 * r.errcode.toNat := by
  simp only [statusWord, toNat_append_eq_add, BitVec.toNat_ofBool, BitVec.toNat_ofNat]
  omega

theorem bbstateWord_toNat (b : BitBuf) :
    (bbstateWord b).toNat =
      b.acc.toNat + 2 ^ 8 * b.fill.toNat + 2 ^ 16 * b.isOpen.toNat := by
  simp only [bbstateWord, toNat_append_eq_add, BitVec.toNat_ofBool, BitVec.toNat_ofNat]
  omega

/-- A write to CTRL without SRST sets IE (R26). -/
theorem writeCtrl_ie {v : Word} (s : State) (h : v.getLsbD 1 = false) :
    writeCtrl v s = { s with regs := { s.regs with ie := v.getLsbD 0 } } := by
  rw [writeCtrl, if_neg (by rw [h]; decide)]

/-- Settles O47: the words are sums of their fields, and CTRL and STATUS take a write at any time. -/
theorem statusWordsAndClearing : Obligations.StatusWordsAndClearing := by
  intro s v
  refine ⟨ctrlWord_toNat _, statusWord_toNat _, bbstateWord_toNat _, fun h => ?_, ?_⟩
  · exact (hostWrite_register .ctrl v s).trans (congrArg _ (writeCtrl_ie s h))
  · exact hostWrite_register .status v s

/-! ### The interrupt line (R49, R263) -/

/-- A completion sets DONE and leaves IE, so that the line is IE after it (R112). -/
theorem irq_complete (s : State) (r : Result) : (s.complete r).irq = s.regs.ie := by
  obtain ⟨_ | _, _⟩ := r <;> simp [State.irq, completeStatus, Effects.applyRegs]

/-- A launch clears DONE and ERR (R110). -/
theorem irq_launch (s : State) (w : Word) : (s.launch w).irq = false := by
  simp [State.irq, launchRegs]

/-- Settles O55: DONE is set by a completion, and DONE and ERR are cleared by a launch and an acknowledgement. -/
theorem interruptLine : Obligations.InterruptLine := by
  refine ⟨fun _ => rfl, fun i s t h => ?_, fun s t w hb h => ?_, fun s t h => ?_⟩
  · exact exec_next i s t h ▸ irq_complete s _
  · have hw := hostWrite_register .cmd w s
    simp only [writeWord, hb] at hw
    obtain rfl := Host.Outcome.next.inj (hw.symm.trans h)
    exact irq_launch s w
  · obtain rfl := Host.Outcome.next.inj ((hostWrite_register .status _ s).symm.trans h)
    simp [State.irq, writeWord, writeStatus]

end Sys2Proof.Machine
end

section
/-! PROOFS. The bytes that the plane commands store lie in their spans, and a span whose check passed lies in DMEM (00_scope.md R13, R14; 40_command_model.md R114, R122; 42_dct.md R154, R155). -/

namespace Sys2Proof.Machine

/-- A checked command that has effects passed its checks and ran (R115, R264). -/
theorem mem_checked_writes {cs : List Check} {run : Unit → Result} {c : Host.Cell}
    (h : c ∈ (checked cs run).effects.writes) :
    firstError cs = none ∧ c ∈ (run ()).effects.writes := by
  obtain ⟨e, -, hr⟩ | ⟨hn, hr⟩ := checked_cases cs run
  · simp [hr] at h
  · exact ⟨hn, hr ▸ h⟩

/-- A span whose check passed is empty or ends inside DMEM (R13, R114). -/
theorem checkSpan_passed {cs : List Check} {m : Dmem} {a len sub : Nat}
    (h : firstError cs = none) (hc : checkSpan m a len sub ∈ cs) :
    len = 0 ∨ a + len ≤ m.size := by
  rw [← inBounds_iff]
  simpa [checkSpan] using (firstError_none cs).1 h _ hc

/-- An address of the spans lies in DMEM where each of them lies in a span that was checked. -/
theorem lt_size_of_inSpans {cs : List Check} {m : Dmem} {spans : List (Nat × Nat)} {x : Nat}
    (h : firstError cs = none) (hx : inSpans spans x)
    (hc : ∀ sp ∈ spans, ∃ len sub, sp.2 ≤ len ∧ checkSpan m sp.1 len sub ∈ cs) : x < m.size := by
  obtain ⟨sp, hsp, h1, h2⟩ := hx
  obtain ⟨len, sub, hlen, hmem⟩ := hc sp hsp
  have := checkSpan_passed h hmem
  omega

theorem inSpans_single {a len x : Nat} : inSpans [(a, len)] x ↔ a ≤ x ∧ x < a + len := by
  simp [inSpans]

/-! ### Blocks of a plane -/

/-- A whole number of blocks fits each side of a plane that CheckBlocks accepts (R156). -/
theorem checkBlocks_passed {r : Regs} {cs : List Check}
    (h : firstError (checkBlocks r ++ cs) = none) :
    0 < r.blkn.toNat ∧ r.blkn.toNat ∣ r.width.toNat ∧ r.blkn.toNat ∣ r.height.toNat := by
  have hall := (firstError_none _).1 h
  simp only [checkBlocks, List.cons_append, List.mem_cons, forall_eq_or_imp] at hall
  obtain ⟨h1, h2, h3, -⟩ := hall
  simp only [Bool.or_eq_false_iff, decide_eq_false_iff_not, not_not] at h1 h2 h3
  exact ⟨by omega, Nat.dvd_of_mod_eq_zero h2, Nat.dvd_of_mod_eq_zero h3⟩

/-- Block k of a plane, by its row and its column of blocks (R154). -/
theorem block_lt {w h n k : Nat} (hk : k < blockCount w h n) :
    k / (w / n) < h / n ∧ k % (w / n) < w / n := by
  have hpos : 0 < w / n := Nat.pos_of_mul_pos_left (Nat.zero_lt_of_lt hk)
  exact ⟨(Nat.div_lt_iff_lt_mul hpos).2 hk, Nat.mod_lt _ hpos⟩

/-- A row or column of a block is one of the plane. -/
theorem mul_add_lt_of_dvd {w n q i : Nat} (hd : n ∣ w) (hq : q < w / n) (hi : i < n) :
    q * n + i < w := by
  calc q * n + i < (q + 1) * n := by rw [Nat.succ_mul]; omega
    _ ≤ w / n * n := Nat.mul_le_mul_right n hq
    _ = w := Nat.div_mul_cancel hd

/-- A sample of a plane lies in the plane's span (R14). -/
theorem sampleAddr_lt {p w h r c : Nat} (hr : r < h) (hc : c < w) :
    p ≤ sampleAddr p w r c ∧ sampleAddr p w r c + 4 ≤ p + 4 * w * h := by
  have : (r + 1) * w ≤ h * w := Nat.mul_le_mul_right w hr
  unfold sampleAddr
  rw [Nat.mul_assoc, Nat.mul_comm w h]
  rw [Nat.succ_mul] at this
  omega

/-- BlockStore of a block of the plane stays in the plane's span (R155). -/
theorem blockStore_mem {p w h n br bc : Nat} {x : Matrix32} {c : Host.Cell} (hw : n ∣ w)
    (hh : n ∣ h) (hbr : br < h / n) (hbc : bc < w / n) (hc : c ∈ blockStore p w n br bc x) :
    p ≤ c.1 ∧ c.1 < p + 4 * w * h := by
  simp only [blockStore, List.mem_flatMap, List.mem_range] at hc
  obtain ⟨i, hi, j, hj, hc⟩ := hc
  have hin := sampleAddr_lt (p := p) (mul_add_lt_of_dvd hh hbr hi) (mul_add_lt_of_dvd hw hbc hj)
  have := stF_mem _ _ _ hc
  unfold blockAddr at this
  omega

/-- Every write of a command that goes block by block is a write of one of the plane's blocks (R154). -/
theorem eachBlock_mem {w h n : Nat} {step : Nat → Nat → Nat → Dmem → List Host.Cell} {m : Dmem}
    {c : Host.Cell} (hc : c ∈ eachBlock w h n step m) :
    ∃ k < blockCount w h n, ∃ m', c ∈ step k (k / (w / n)) (k % (w / n)) m' := by
  obtain ⟨k, hk, m', hmem⟩ := inSequence_mem _ _ _ _ hc
  exact ⟨k, List.mem_range.1 hk, m', hmem⟩

/-- A transform stores in its destination plane (R160, R163). -/
theorem transformWrites_mem {f : Matrix32 → Matrix32} {a : Arch} {c : Host.Cell}
    (hw : a.regs.blkn.toNat ∣ a.regs.width.toNat) (hh : a.regs.blkn.toNat ∣ a.regs.height.toNat)
    (hc : c ∈ transformWrites f a) :
    inSpans [(a.regs.dst.toNat, 4 * a.regs.width.toNat * a.regs.height.toNat)] c.1 := by
  unfold transformWrites at hc
  obtain ⟨k, hk, m', hmem⟩ := eachBlock_mem hc
  obtain ⟨hbr, hbc⟩ := block_lt hk
  exact inSpans_single.2 (blockStore_mem hw hh hbr hbc hmem)

/-- DQZZ stores in its destination plane (R184). -/
theorem dqzzWrites_mem {a : Arch} {c : Host.Cell}
    (hw : a.regs.blkn.toNat ∣ a.regs.width.toNat) (hh : a.regs.blkn.toNat ∣ a.regs.height.toNat)
    (hc : c ∈ dqzzWrites a) :
    inSpans [(a.regs.dst.toNat, 4 * a.regs.width.toNat * a.regs.height.toNat)] c.1 := by
  unfold dqzzWrites at hc
  obtain ⟨k, hk, m', hmem⟩ := eachBlock_mem hc
  obtain ⟨hbr, hbc⟩ := block_lt hk
  exact inSpans_single.2 (blockStore_mem hw hh hbr hbc hmem)

/-! ### The zigzag stream -/

theorem diagonalRows_length (n d : Nat) :
    (diagonalRows n d).length = min d (n - 1) + 1 - (d + 1 - n) := by
  unfold diagonalRows
  split <;> simp

/-- The diagonals up to the longest have lengths 1, 2, 3, … -/
theorem diagonals_sum {n m : Nat} (hm : m ≤ n) :
    2 * ∑ d ∈ Finset.range m, (diagonalRows n d).length = m * (m + 1) := by
  induction m with
  | zero => rfl
  | succ m ih =>
    have hlen : (diagonalRows n m).length = m + 1 := by rw [diagonalRows_length]; omega
    rw [Finset.sum_range_succ, Nat.mul_add, ih (by omega), hlen]
    ring

theorem list_sum_range (f : Nat → Nat) (n : Nat) :
    ((List.range n).map f).sum = ∑ i ∈ Finset.range n, f i := by
  rw [← List.sum_toFinset f List.nodup_range, List.toFinset_range]

/-- The zigzag visits N² positions: the diagonals after the longest are those before it, in reverse (R180). -/
theorem zigzag_length (n : Nat) : (zigzag n).length = n * n := by
  obtain _ | m := n
  · rfl
  have hlower : ∀ e ∈ Finset.range m,
      (diagonalRows (m + 1) (m + 1 + e)).length = (diagonalRows (m + 1) (m - 1 - e)).length := by
    intro e he
    have := Finset.mem_range.1 he
    rw [diagonalRows_length, diagonalRows_length]
    omega
  have hall : (zigzag (m + 1)).length =
      ∑ d ∈ Finset.range (m + 1 + m), (diagonalRows (m + 1) d).length := by
    rw [zigzag, List.length_flatMap, ← list_sum_range]
    simp only [List.length_map]
    congr 3
    omega
  rw [Finset.sum_range_add, Finset.sum_congr rfl hlower, 
    Finset.sum_range_reflect fun e => (diagonalRows (m + 1) e).length] at hall
  have hupper := diagonals_sum (Nat.le_refl (m + 1))
  have hless := diagonals_sum (Nat.le_succ m)
  linarith

/-- The bytes of block k of QZZ's stream end where those of block k + 1 begin (R185). -/
theorem blockBytes_le {w h n k : Nat} (hw : n ∣ w) (hh : n ∣ h) (hk : k < blockCount w h n) :
    k * (n * n) + n * n ≤ w * h := by
  calc k * (n * n) + n * n = (k + 1) * (n * n) := by ring
    _ ≤ h / n * (w / n) * (n * n) := Nat.mul_le_mul_right _ hk
    _ = (w / n * n) * (h / n * n) := by ring
    _ = w * h := by rw [Nat.div_mul_cancel hw, Nat.div_mul_cancel hh]

/-- QZZ stores in its destination stream (R183). -/
theorem qzzWrites_mem {a : Arch} {c : Host.Cell}
    (hw : a.regs.blkn.toNat ∣ a.regs.width.toNat) (hh : a.regs.blkn.toNat ∣ a.regs.height.toNat)
    (hc : c ∈ qzzWrites a) :
    inSpans [(a.regs.dst.toNat, a.regs.width.toNat * a.regs.height.toNat)] c.1 := by
  unfold qzzWrites at hc
  obtain ⟨k, hk, m', hmem⟩ := eachBlock_mem hc
  have hle := blockBytes_le hw hh hk
  have := bytesAt_mem _ _ _ hmem
  rw [quantizeBlock, List.length_map, zigzag_length] at this
  exact inSpans_single.2 (by omega)

/-! ### Pixels -/

/-- CSC stores pixel by pixel in the six destination planes (R134). -/
theorem cscWrites_mem {fmt : Nat} {a : Arch} {c : Host.Cell} (hc : c ∈ cscWrites fmt a) :
    inSpans (storedSpans (.csc fmt) a) c.1 := by
  obtain ⟨p, hp, m, hmem⟩ := inSequence_mem _ _ _ _ hc
  simp only [convertPixel, storePixel, List.mem_flatMap] at hmem
  obtain ⟨j, hj, hmem⟩ := hmem
  have := stF_mem _ _ _ hmem
  have hp := List.mem_range.1 hp
  refine ⟨_, List.mem_map_of_mem hj, ?_⟩
  simp only [componentAddr] at this ⊢
  omega

end Sys2Proof.Machine
end

section
/-! PROOFS. How the bit buffer moves as bits are appended: where it writes, and that it stays clean (45_bitbuffer.md R241, R242). -/

namespace Sys2Proof.Machine

/-- Appending `n` bits to `b` has led to the buffer `p.1` with the writes `p.2`: the pending bits and the new ones have filled bytes at consecutive addresses from BBPTR, modulo 2^32, and what is left of them is pending (R241). -/
structure BitBuf.AdvancedBy (b : BitBuf) (n : Nat) (p : BitBuf × List Host.Cell) : Prop where
  fill : p.1.fill.toNat = (b.fill.toNat + n) % 8
  ptr : p.1.ptr = b.ptr + BitVec.ofNat 32 ((b.fill.toNat + n) / 8)
  addresses : p.2.map Prod.fst =
    (List.range ((b.fill.toNat + n) / 8)).map fun i => (b.ptr + BitVec.ofNat 32 i).toNat
  clean : b.clean → p.1.clean

theorem BitBuf.AdvancedBy.refl (b : BitBuf) : b.AdvancedBy 0 (b, []) := by
  have hlt : b.fill.toNat < 8 := b.fill.isLt
  have hdiv : b.fill.toNat / 8 = 0 := Nat.div_eq_of_lt hlt
  exact ⟨(Nat.mod_eq_of_lt hlt).symm, by simp [hdiv], by simp [hdiv], id⟩

/-- The bits of two appends fill the bytes of the first and then those of the second. -/
theorem BitBuf.AdvancedBy.trans {b : BitBuf} {m n : Nat} {p q : BitBuf × List Host.Cell}
    (h : b.AdvancedBy m p) (k : p.1.AdvancedBy n q) : b.AdvancedBy (m + n) (q.1, p.2 ++ q.2) := by
  have hdiv : (b.fill.toNat + (m + n)) / 8 =
      (b.fill.toNat + m) / 8 + (p.1.fill.toNat + n) / 8 := by
    rw [h.fill]
    omega
  refine ⟨?_, ?_, ?_, fun hc => k.clean (h.clean hc)⟩
  · rw [k.fill, h.fill]
    omega
  · rw [hdiv, BitVec.ofNat_add, ← BitVec.add_assoc, ← h.ptr, k.ptr]
  · simp only [hdiv, List.map_append, h.addresses, k.addresses, List.range_add, h.ptr,
      List.map_map, Function.comp_def, BitVec.ofNat_add, BitVec.add_assoc]

/-- A bit enters ACC just below the pending ones, so that one fewer is free (R38, R241). -/
theorem clean_or_bit {acc : Byte} {k : Nat} (bit : Bool) (h : acc.toNat % 2 ^ (k + 1) = 0)
    (hk : k ≤ 8) : (acc ||| ((BitVec.ofBool bit).setWidth 8 <<< k)).toNat % 2 ^ k = 0 := by
  have hacc : acc.toNat % 2 ^ k = 0 := by
    rw [← Nat.mod_mod_of_dvd _ (Nat.pow_dvd_pow 2 (Nat.le_succ k)), h, Nat.zero_mod]
  have hbit : ((BitVec.ofBool bit).setWidth 8 <<< k).toNat % 2 ^ k = 0 := by
    rw [BitVec.toNat_shiftLeft, Nat.mod_mod_of_dvd _ (Nat.pow_dvd_pow 2 hk), Nat.shiftLeft_eq,
      Nat.mul_mod_left]
  rw [BitVec.toNat_or, Nat.or_mod_two_pow, hacc, hbit, Nat.or_zero]

theorem BitBuf.appendBit_advanced (b : BitBuf) (bit : Bool) :
    b.AdvancedBy 1 (b.appendBit bit) := by
  have := b.fill.isLt
  unfold appendBit
  split
  · next h =>
    refine ⟨by simp [h], by simp [h], ?_, fun _ => Nat.zero_mod _⟩
    simp only [h, List.map_singleton, Nat.div_self (by decide : 0 < 8), List.range_one,
      BitVec.add_zero]
  · next h =>
    have hdiv : (b.fill.toNat + 1) / 8 = 0 := by omega
    have hfill : (b.fill + 1).toNat = b.fill.toNat + 1 := by
      rw [BitVec.toNat_add]
      exact Nat.mod_eq_of_lt (by simp; omega)
    refine ⟨?_, by simp [hdiv], by simp [hdiv], fun hc => ?_⟩
    · simp only [hfill]
      omega
    · have hfree : 8 - b.fill.toNat = 7 - b.fill.toNat + 1 := by omega
      have hfree' : 8 - (b.fill.toNat + 1) = 7 - b.fill.toNat := by omega
      simp only [clean, hfree, hfill, hfree'] at hc ⊢
      exact clean_or_bit bit hc (by omega)

theorem BitBuf.appendBits_advanced (b : BitBuf) (bits : List Bool) :
    b.AdvancedBy bits.length (b.appendBits bits) := by
  induction bits generalizing b with
  | nil => exact .refl b
  | cons x xs ih =>
    rw [List.length_cons, Nat.add_comm]
    exact (b.appendBit_advanced x).trans (ih _)

theorem patternBits_length (pat len : Nat) : (patternBits pat len).length = len := by
  simp [patternBits]

/-- BBAppend of `len` bits (R241); BBTOT moves apart. -/
theorem BitBuf.append_advanced (b : BitBuf) (pat len : Nat) :
    b.AdvancedBy len (b.append pat len) := by
  obtain ⟨hfill, hptr, haddr, hclean⟩ := b.appendBits_advanced (patternBits pat len)
  rw [patternBits_length] at *
  exact ⟨hfill, hptr, haddr, hclean⟩

theorem BitBuf.appendCodes_advanced (b : BitBuf) (cs : List Code) :
    b.AdvancedBy (codesLength cs) (b.appendCodes cs) := by
  induction cs generalizing b with
  | nil => exact .refl b
  | cons c cs ih => exact (b.append_advanced c.pat c.len).trans (ih _)

/-- The flush writes the partial byte, if there is one, at BBPTR (R242). -/
theorem BitBuf.flush_mem {b : BitBuf} {c : Host.Cell} (h : c ∈ b.flush.2) :
    b.fill.toNat ≠ 0 ∧ c.1 = b.ptr.toNat := by
  unfold flush at h
  split at h
  · simp at h
  · next hne =>
    obtain rfl : c = _ := by simpa using h
    exact ⟨fun h0 => hne (BitVec.eq_of_toNat_eq h0), rfl⟩

theorem BitBuf.flush_clean {b : BitBuf} (h : b.clean) : b.flush.1.clean := by
  unfold flush
  split
  · exact h
  · exact Nat.zero_mod _

theorem BitBuf.openAt_clean (d : Word) : (BitBuf.openAt d).clean := Nat.zero_mod _

/-- Where no address wraps, the writes go to the bytes filled (R241). -/
theorem BitBuf.AdvancedBy.mem {b : BitBuf} {n : Nat} {p : BitBuf × List Host.Cell}
    (h : b.AdvancedBy n p) (hw : b.ptr.toNat + (b.fill.toNat + n) / 8 ≤ 2 ^ 32) {c : Host.Cell}
    (hc : c ∈ p.2) :
    b.ptr.toNat ≤ c.1 ∧ c.1 < b.ptr.toNat + (b.fill.toNat + n) / 8 := by
  have hmem := List.mem_map_of_mem (f := Prod.fst) hc
  rw [h.addresses, List.mem_map] at hmem
  obtain ⟨i, hi, hc⟩ := hmem
  have hi := List.mem_range.1 hi
  rw [BitVec.toNat_add, BitVec.toNat_ofNat] at hc
  omega

/-- Where no address wraps, the writes and a flush after them go to the bytes that the bits reach into (R241, R242). -/
theorem BitBuf.AdvancedBy.flush_mem {b : BitBuf} {n : Nat} {p : BitBuf × List Host.Cell}
    (h : b.AdvancedBy n p) (hw : b.ptr.toNat + ceil8 (b.fill.toNat + n) ≤ 2 ^ 32)
    {c : Host.Cell} (hc : c ∈ p.2 ++ p.1.flush.2) :
    b.ptr.toNat ≤ c.1 ∧ c.1 < b.ptr.toNat + ceil8 (b.fill.toNat + n) := by
  unfold ceil8 at *
  rcases List.mem_append.1 hc with hc | hc
  · have := h.mem (by omega) hc
    omega
  · obtain ⟨hne, hc⟩ := BitBuf.flush_mem hc
    rw [h.fill] at hne
    rw [h.ptr, BitVec.toNat_add, BitVec.toNat_ofNat] at hc
    omega

/-- The payload of HENC goes to the ceil8(L) bytes at DST that its L bits reach into (R212). -/
theorem payload_mem {dst : Word} {bs : List Byte} {cs : List (Nat × Code)} {n : Nat}
    (hn : codesLength (bs.map fun b => codeOf cs b.toNat) = n)
    (hw : dst.toNat + ceil8 n ≤ 2 ^ 32) {c : Host.Cell} (hc : c ∈ (payload dst bs cs).2) :
    dst.toNat ≤ c.1 ∧ c.1 < dst.toNat + ceil8 n := by
  subst hn
  have h := (BitBuf.openAt dst).appendCodes_advanced (bs.map fun b => codeOf cs b.toNat)
  have h0 (n : Nat) : (BitBuf.openAt dst).fill.toNat + n = n := Nat.zero_add n
  have hm := h.flush_mem ((h0 _).symm ▸ hw) hc
  rw [h0] at hm
  exact hm

theorem payload_clean (dst : Word) (bs : List Byte) (cs : List (Nat × Code)) :
    (payload dst bs cs).1.clean :=
  BitBuf.flush_clean ((BitBuf.appendCodes_advanced _ _).clean (BitBuf.openAt_clean dst))

end Sys2Proof.Machine
end

section
/-! PROOFS. What HENC and HDEC leave in the tables and write: codes fit their lengths, the payload is as long as its checked span, and no more bytes are decoded than there is room for (44_huffman.md R200 to R219). -/

namespace Sys2Proof.Machine

/-! ### Codes -/

/-- A child's code has one bit more than its parent's, so that a pattern below 2^length stays so (R204). -/
theorem treeCodes_pat_lt {t : HuffTree} {c : Code} (hc : c.pat < 2 ^ c.len) {x : Nat × Code}
    (hx : x ∈ treeCodes t c) : x.2.pat < 2 ^ x.2.len := by
  induction t generalizing c with
  | leaf b =>
    obtain rfl := List.mem_singleton.1 hx
    exact hc
  | node l r ihl ihr =>
    rcases List.mem_append.1 hx with hx | hx
    · exact ihl (by simp only [pow_succ]; omega) hx
    · exact ihr (by simp only [pow_succ]; omega) hx

theorem huffmanCodes_pat_lt {bs : List Byte} {x : Nat × Code} (hx : x ∈ huffmanCodes bs) :
    x.2.pat < 2 ^ x.2.len := by
  simp only [huffmanCodes] at hx
  split at hx
  · simp at hx
  · obtain rfl := List.mem_singleton.1 hx
    exact Nat.two_pow_pos 1
  · exact treeCodes_pat_lt (by decide) hx

/-- A byte value's code is one of the codes, or (0, 0) (R210). -/
theorem codeOf_cases (cs : List (Nat × Code)) (b : Nat) :
    codeOf cs b = ⟨0, 0⟩ ∨ (b, codeOf cs b) ∈ cs := by
  unfold codeOf
  cases h : cs.lookup b with
  | none => exact .inl rfl
  | some c =>
    obtain ⟨l, r, rfl, -⟩ := List.lookup_eq_some_iff.1 h
    exact .inr (by simp)

theorem codeOf_huffmanCodes_pat_lt (bs : List Byte) (b : Nat) :
    (codeOf (huffmanCodes bs) b).pat < 2 ^ (codeOf (huffmanCodes bs) b).len := by
  obtain h | h := codeOf_cases (huffmanCodes bs) b
  · rw [h]
    decide
  · exact huffmanCodes_pat_lt h

/-- Without an overlong byte every code is at most CODE_MAX bits long (R207). -/
theorem codeOf_len_le {cs : List (Nat × Code)} (h : overlongByte cs = none) {b : Nat}
    (hb : b < 256) : (codeOf cs b).len ≤ 32 := by
  have hnot := List.find?_eq_none.1 h b (List.mem_range.2 hb)
  exact Nat.not_lt.1 fun hlt => hnot (decide_eq_true hlt)

theorem mem_tableOf {α : Type} {f : Nat → α} {x : α} (h : x ∈ (tableOf f).toList) :
    ∃ i < 256, f i = x := by
  simpa [tableOf] using h

/-- ETAB as HENC fills it holds codes (R42, R211). -/
theorem etabOf_sound {bs : List Byte} (h : overlongByte (huffmanCodes bs) = none) {e : EtabEntry}
    (he : e ∈ (etabOf (huffmanCodes bs)).toList) : e.sound := by
  obtain ⟨b, hb, rfl⟩ := mem_tableOf he
  have hlen := codeOf_len_le h hb
  have hlen6 : (BitVec.ofNat 6 (codeOf (huffmanCodes bs) b).len).toNat =
      (codeOf (huffmanCodes bs) b).len := by
    rw [BitVec.toNat_ofNat]
    omega
  refine ⟨hlen6.trans_le hlen, ?_⟩
  rw [hlen6, BitVec.toNat_ofNat]
  exact (Nat.mod_le _ _).trans_lt (codeOf_huffmanCodes_pat_lt bs b)

theorem foldl_max_le {α : Type} {f : α → Nat} {k : Nat} {l : List α} (h : ∀ x ∈ l, f x ≤ k)
    {m : Nat} (hm : m ≤ k) : l.foldl (fun m x => max m (f x)) m ≤ k := by
  induction l generalizing m with
  | nil => exact hm
  | cons x xs ih =>
    exact ih (fun y hy => h y (List.mem_cons_of_mem _ hy))
      (max_le hm (h x List.mem_cons_self))

theorem maxLenOf_le {cs : List (Nat × Code)} (h : overlongByte cs = none) : maxLenOf cs ≤ 32 :=
  foldl_max_le (fun _ hb => codeOf_len_le h (List.mem_range.1 (List.mem_filter.1 hb).1))
    (Nat.zero_le _)

/-! ### The length of the payload -/

/-- Of the 256 byte values one is the byte `x`. -/
theorem sum_byteValue (x : Byte) (f : Nat → Nat) :
    (∑ b ∈ Finset.range 256, if x = BitVec.ofNat 8 b then f b else 0) = f x.toNat := by
  have heq : ∀ b ∈ Finset.range 256, (x = BitVec.ofNat 8 b ↔ x.toNat = b) := by
    intro b hb
    have := Finset.mem_range.1 hb
    rw [← BitVec.toNat_inj, BitVec.toNat_ofNat]
    omega
  rw [Finset.sum_congr rfl fun b hb => if_congr (heq b hb) rfl rfl, Finset.sum_ite_eq,
    if_pos (Finset.mem_range.2 x.isLt)]

/-- The bit count by frequencies is that of the codes appended one by one (R212). -/
theorem codesLength_eq_totalBits (bs : List Byte) (cs : List (Nat × Code)) :
    codesLength (bs.map fun b => codeOf cs b.toNat) = totalBits bs cs := by
  rw [totalBits, list_sum_range]
  induction bs with
  | nil => simp [codesLength, freqOf]
  | cons x xs ih =>
    have hcount (b : Nat) : freqOf (x :: xs) b * (codeOf cs b).len =
        freqOf xs b * (codeOf cs b).len +
          if x = BitVec.ofNat 8 b then (codeOf cs b).len else 0 := by
      unfold freqOf
      rw [List.count_cons, Nat.add_mul]
      split <;> simp_all
    simp only [hcount, Finset.sum_add_distrib, ← ih, sum_byteValue x fun b => (codeOf cs b).len]
    simp [codesLength, Nat.add_comm]

/-! ### Decoding -/

/-- A table that ValidateDTAB accepts has no length above CODE_MAX (R217). -/
theorem len_le_of_firstBadEntry {seen es : List DtabEntry} {i : Nat}
    (h : firstBadEntry seen es i = none) : ∀ e ∈ es, e.len.toNat ≤ 32 := by
  induction es generalizing seen i with
  | nil => simp
  | cons e es ih =>
    unfold firstBadEntry at h
    split_ifs at h with hlen
    rw [not_or, Nat.not_lt] at hlen
    exact List.forall_mem_cons.2 ⟨hlen.2, ih h⟩

theorem tableMaxLen_le {a : Arch} (h : malformed a = none) :
    tableMaxLen (decodeTable a) ≤ 32 := by
  unfold malformed at h
  split_ifs at h
  exact foldl_max_le (len_le_of_firstBadEntry h) (Nat.zero_le _)

/-- The decoder stops before it exceeds its capacity (R219). -/
theorem decodeBits_length_le {t : List DtabEntry} {maxlen cap : Nat} {bits : List Bool}
    {i pat len n : Nat} (hn : n ≤ cap) :
    n + (decodeBits t maxlen cap bits i pat len n).1.length ≤ cap := by
  induction bits generalizing i pat len n with
  | nil => simpa [decodeBits] using hn
  | cons bit bits ih =>
    cases hp : probe t (2 * pat + bit.toNat) (len + 1) with
    | some v =>
      simp only [decodeBits, hp]
      split
      · simpa using hn
      · next hne =>
        have := ih (i := i + 1) (pat := 0) (len := 0) (n := n + 1) (by omega)
        simp only [List.length_cons]
        omega
    | none =>
      simp only [decodeBits, hp]
      split
      · simpa using hn
      · exact ih hn

theorem hdecDecode_length_le (a : Arch) : (hdecDecode a).1.length ≤ a.regs.count.toNat :=
  (Nat.zero_add _).symm.trans_le (decodeBits_length_le (Nat.zero_le _))

end Sys2Proof.Machine
end

section
/-! PROOFS. Where every command stores: in its spans and inside DMEM (30_encoding.md R99; 40_command_model.md R114, R122). -/

namespace Sys2Proof.Machine

/-- A byte is stored in a span of the command and inside DMEM. -/
def StoredAt (i : Instr) (a : Arch) (x : Nat) : Prop :=
  inSpans (storedSpans i a) x ∧ x < a.dmem.size

/-- A checked command stores where it should if it does so once its checks have passed, and they cover its spans. -/
theorem storedAt_of_checked {i : Instr} {a : Arch} {cs : List Check} {run : Unit → Result}
    {c : Host.Cell} (hc : c ∈ (checked cs run).effects.writes)
    (hspans : ∀ sp ∈ storedSpans i a, ∃ len sub, sp.2 ≤ len ∧ checkSpan a.dmem sp.1 len sub ∈ cs)
    (hrun : firstError cs = none → c ∈ (run ()).effects.writes → inSpans (storedSpans i a) c.1) :
    StoredAt i a c.1 := by
  obtain ⟨hok, hmem⟩ := mem_checked_writes hc
  have hin := hrun hok hmem
  exact ⟨hin, lt_size_of_inSpans hok hin hspans⟩

theorem csc_storedAt {fmt : Nat} {a : Arch} {c : Host.Cell}
    (hc : c ∈ (cscResult fmt a).effects.writes) : StoredAt (.csc fmt) a c.1 := by
  refine storedAt_of_checked hc (fun sp hsp => ?_) fun _ => cscWrites_mem
  obtain ⟨j, hj, rfl⟩ := List.mem_map.1 hsp
  exact ⟨_, 2, le_rfl, List.mem_append_right _ (List.mem_map_of_mem hj)⟩

/-- A command that goes block by block stores where it should if it does so on a plane of whole blocks (R156). -/
theorem storedAt_of_blocks {i : Instr} {a : Arch} {cs : List Check} {ws : List Host.Cell}
    {c : Host.Cell}
    (hc : c ∈ (checked (checkBlocks a.regs ++ cs)
      fun _ => { effects := { writes := ws } }).effects.writes)
    (hspans : ∀ sp ∈ storedSpans i a,
      ∃ len sub, sp.2 ≤ len ∧ checkSpan a.dmem sp.1 len sub ∈ checkBlocks a.regs ++ cs)
    (hrun : a.regs.blkn.toNat ∣ a.regs.width.toNat → a.regs.blkn.toNat ∣ a.regs.height.toNat →
      c ∈ ws → inSpans (storedSpans i a) c.1) : StoredAt i a c.1 := by
  refine storedAt_of_checked hc hspans fun hok hmem => ?_
  obtain ⟨-, hw, hh⟩ := checkBlocks_passed hok
  exact hrun hw hh hmem

theorem fdct_storedAt {sep : Bool} {a : Arch} {c : Host.Cell}
    (hc : c ∈ (fdctResult sep a).effects.writes) : StoredAt (.fdct sep) a c.1 :=
  storedAt_of_blocks hc (List.forall_mem_singleton.2 ⟨_, 2, le_rfl, by simp⟩) transformWrites_mem

theorem idct_storedAt {sep : Bool} {a : Arch} {c : Host.Cell}
    (hc : c ∈ (idctResult sep a).effects.writes) : StoredAt (.idct sep) a c.1 :=
  storedAt_of_blocks hc (List.forall_mem_singleton.2 ⟨_, 2, le_rfl, by simp⟩) transformWrites_mem

theorem qzz_storedAt {a : Arch} {c : Host.Cell} (hc : c ∈ (qzzResult a).effects.writes) :
    StoredAt .qzz a c.1 :=
  storedAt_of_blocks hc (List.forall_mem_singleton.2 ⟨_, 2, le_rfl, by simp⟩) qzzWrites_mem

theorem dqzz_storedAt {a : Arch} {c : Host.Cell} (hc : c ∈ (dqzzResult a).effects.writes) :
    StoredAt .dqzz a c.1 :=
  storedAt_of_blocks hc
    (List.forall_mem_singleton.2 ⟨_, 2, le_rfl, by simp [Nat.mul_assoc]⟩) dqzzWrites_mem

/-- A checked span does not reach past 2^32, so that no address in it wraps (R6). -/
theorem checkSpan_no_wrap {cs : List Check} {m : Dmem} {a : Word} {len sub : Nat}
    (hs : Config.legalSize m.size) (h : firstError cs = none)
    (hc : checkSpan m a.toNat len sub ∈ cs) : a.toNat + len ≤ 2 ^ 32 := by
  have := checkSpan_passed h hc
  obtain ⟨-, -, hmax⟩ := hs
  omega

theorem henc_storedAt {a : Arch} {c : Host.Cell} (hs : Config.legalSize a.dmem.size)
    (hc : c ∈ (hencResult a).effects.writes) : StoredAt .henc a c.1 := by
  obtain ⟨-, hc⟩ := mem_checked_writes hc
  have hspan : checkSpan a.dmem a.regs.dst.toNat
      (ceil8 (totalBits (hencInput a) (huffmanCodes (hencInput a)))) 2 ∈
        hencChecks a (hencInput a) (huffmanCodes (hencInput a)) := by simp [hencChecks]
  refine storedAt_of_checked hc (List.forall_mem_singleton.2 ⟨_, 2, le_rfl, hspan⟩)
    fun hok hmem => inSpans_single.2 ?_
  exact payload_mem (codesLength_eq_totalBits _ _) (checkSpan_no_wrap hs hok hspan) hmem

theorem hdec_storedAt {a : Arch} {c : Host.Cell} (hc : c ∈ (hdecResult a).effects.writes) :
    StoredAt .hdec a c.1 :=
  storedAt_of_checked hc
    (List.forall_mem_singleton.2 ⟨_, 2, hdecDecode_length_le a, by simp [hdecChecks]⟩)
    fun _ hmem => inSpans_single.2 (bytesAt_mem _ _ _ hmem)

theorem bbadd_storedAt {len : Nat} {a : Arch} {c : Host.Cell} (hs : Config.legalSize a.dmem.size)
    (hc : c ∈ (bbaddResult len a).effects.writes) : StoredAt (.bbadd len) a c.1 := by
  have hspan : checkSpan a.dmem a.regs.bb.ptr.toNat ((a.regs.bb.fill.toNat + len) / 8) 2 ∈
      bbaddChecks len a := by simp [bbaddChecks]
  refine storedAt_of_checked hc (List.forall_mem_singleton.2 ⟨_, 2, le_rfl, hspan⟩)
    fun hok hmem => inSpans_single.2 ?_
  exact (a.regs.bb.append_advanced _ len).mem (checkSpan_no_wrap hs hok hspan) hmem

theorem bbfin_storedAt {a : Arch} {c : Host.Cell} (hc : c ∈ (bbfinResult a).effects.writes) :
    StoredAt .bbfin a c.1 := by
  refine storedAt_of_checked hc
    (List.forall_mem_singleton.2 ⟨_, 2, le_rfl, by simp [bbfinChecks]⟩)
    fun _ hmem => inSpans_single.2 ?_
  obtain ⟨hne, hptr⟩ := BitBuf.flush_mem hmem
  rw [if_neg fun h0 => hne (congrArg BitVec.toNat h0)]
  omega

/-- Every command stores in its spans and inside DMEM (R99, R114, R122). -/
theorem resultOf_storedAt {i : Instr} {a : Arch} {c : Host.Cell}
    (hs : Config.legalSize a.dmem.size) (hc : c ∈ (resultOf i a).effects.writes) :
    StoredAt i a c.1 := by
  cases i with
  | nop => exact absurd hc List.not_mem_nil
  | csc fmt => exact csc_storedAt hc
  | fdct sep => exact fdct_storedAt hc
  | idct sep => exact idct_storedAt hc
  | qzz => exact qzz_storedAt hc
  | dqzz => exact dqzz_storedAt hc
  | henc => exact henc_storedAt hs hc
  | hdec => exact hdec_storedAt hc
  | bbrst => exact absurd hc List.not_mem_nil
  | bbadd len => exact bbadd_storedAt hs hc
  | bbfin => exact bbfin_storedAt hc

/-- The bytes that a launched word writes, a command or none, lie in DMEM. -/
theorem execWord_writes_lt {w : Word} {a : Arch} {c : Host.Cell}
    (hs : Config.legalSize a.dmem.size) (hc : c ∈ (execWord w a).effects.writes) :
    c.1 < a.dmem.size := by
  unfold execWord at hc
  split at hc
  · exact (resultOf_storedAt hs hc).2
  · exact absurd hc List.not_mem_nil

end Sys2Proof.Machine
end

section
/-! PROOFS. The invariant of the machine: what every completion, host access and reset keeps, and so every step (10_state.md R27, R35, R38, R42, R46; 60_exceptions.md R260; 70_reset_and_hazards.md R297). -/

namespace Sys2Proof.Machine

/-! ### What a command puts in the tables and the bit buffer -/

/-- The tables, MAXLEN and bit buffer that a command leaves, where it leaves any, are sound (R35, R38, R42). -/
structure Effects.Sound (e : Effects) : Prop where
  etab : ∀ t, e.etab = some t → ∀ x ∈ t.toList, x.sound
  maxlen : ∀ n, e.maxlen = some n → n.toNat ≤ Config.codeMax
  bitBuffer : ∀ b, e.bb = some b → b.clean

theorem Effects.Sound.of_writes (ws : List Host.Cell) : ({ writes := ws } : Effects).Sound :=
  ⟨nofun, nofun, nofun⟩

theorem checked_sound {cs : List Check} {run : Unit → Result}
    (h : firstError cs = none → (run ()).effects.Sound) : (checked cs run).effects.Sound := by
  obtain ⟨e, -, hr⟩ | ⟨hok, hr⟩ := checked_cases cs run
  · rw [hr]
    exact Effects.Sound.of_writes []
  · rw [hr]
    exact h hok

theorem toNat_ofNat6_le {n : Nat} (h : n ≤ 32) : (BitVec.ofNat 6 n).toNat ≤ Config.codeMax := by
  rw [BitVec.toNat_ofNat]
  exact (Nat.mod_le _ _).trans h

theorem henc_sound (a : Arch) : (hencResult a).effects.Sound := by
  refine checked_sound fun _ => checked_sound fun hok => ?_
  have hover : overlongByte (huffmanCodes (hencInput a)) = none := by
    simpa using (firstError_none _).1 hok _ List.mem_cons_self
  refine ⟨?_, ?_, ?_⟩
  · rintro _ ⟨⟩ x hx
    exact etabOf_sound hover hx
  · rintro _ ⟨⟩
    exact toNat_ofNat6_le (maxLenOf_le hover)
  · rintro _ ⟨⟩
    exact payload_clean _ _ _

theorem hdec_sound (a : Arch) : (hdecResult a).effects.Sound := by
  refine checked_sound fun hok => ⟨nofun, ?_, nofun⟩
  have hgood : malformed a = none := by
    have hpass := (firstError_none _).1 hok
    simp only [hdecChecks, List.forall_mem_cons] at hpass
    obtain ⟨-, -, hgood, -⟩ := hpass
    simpa using hgood
  rintro _ ⟨⟩
  exact toNat_ofNat6_le (tableMaxLen_le hgood)

/-- A command leaves sound tables, and from a clean bit buffer a clean one. -/
theorem resultOf_sound (i : Instr) {a : Arch} (hb : a.regs.bb.clean) :
    (resultOf i a).effects.Sound := by
  cases i with
  | nop => exact .of_writes _
  | csc fmt => exact checked_sound fun _ => .of_writes _
  | fdct sep => exact checked_sound fun _ => .of_writes _
  | idct sep => exact checked_sound fun _ => .of_writes _
  | qzz => exact checked_sound fun _ => .of_writes _
  | dqzz => exact checked_sound fun _ => .of_writes _
  | henc => exact henc_sound a
  | hdec => exact hdec_sound a
  | bbrst =>
    refine ⟨nofun, nofun, ?_⟩
    rintro _ ⟨⟩
    exact BitBuf.openAt_clean _
  | bbadd len =>
    refine checked_sound fun _ => ⟨nofun, nofun, ?_⟩
    rintro _ ⟨⟩
    exact (a.regs.bb.append_advanced _ len).clean hb
  | bbfin =>
    refine checked_sound fun _ => ⟨nofun, nofun, ?_⟩
    rintro _ ⟨⟩
    exact BitBuf.flush_clean hb

theorem execWord_sound (w : Word) {a : Arch} (hb : a.regs.bb.clean) :
    (execWord w a).effects.Sound := by
  unfold execWord
  split
  · exact resultOf_sound _ hb
  · exact .of_writes _

/-! ### Completion and reset -/

theorem errNumber_le (c : ErrCode) : (errNumber c).toNat ≤ 8 := by cases c <;> decide

/-- With nothing in flight the invariant is that of the architectural state, with BUSY clear. -/
theorem State.Inv.of_idle {s : State} (harch : s.toArch.Inv) (hb : s.regs.busy = false)
    (hf : s.inFlight = none) : s.Inv :=
  ⟨harch, by rw [hb, hf]; rfl, fun f h => by simp [hf] at h⟩

/-- A completion keeps the invariant if what the command leaves is sound and lies in DMEM (R112). -/
theorem State.Inv.complete {s : State} {r : Result} (h : s.Inv)
    (hw : ∀ c ∈ r.effects.writes, c.1 < s.dmem.size) (hs : r.effects.Sound) :
    (s.complete r).Inv := by
  obtain ⟨hmem, hsize, hbb, hetab, hmax, herr⟩ := h.arch
  obtain ⟨hsetab, hsmax, hsbb⟩ := hs
  have hregs : (s.complete r).regs.bb = r.effects.bb.getD s.regs.bb ∧
      (s.complete r).regs.maxlen = r.effects.maxlen.getD s.regs.maxlen ∧
      (s.complete r).regs.errcode.toNat ≤ 8 ∧ (s.complete r).regs.busy = false := by
    rw [State.complete_regs]
    cases r.error with
    | none => exact ⟨rfl, rfl, Nat.zero_le 8, rfl⟩
    | some e => exact ⟨rfl, rfl, errNumber_le e.1, rfl⟩
  obtain ⟨hbbEq, hmaxEq, herrLe, hbusy⟩ := hregs
  refine .of_idle ⟨Dmem.setBytes_wf _ _ hmem hw, ?_, ?_, ?_, ?_, herrLe⟩ hbusy rfl
  · rwa [State.complete_dmem, Dmem.setBytes_size]
  · rw [hbbEq]
    cases hb : r.effects.bb with
    | none => exact hbb
    | some b => exact hsbb b hb
  · rw [State.complete_etab]
    cases ht : r.effects.etab with
    | none => exact hetab
    | some t => exact hsetab t ht
  · rw [hmaxEq]
    cases hn : r.effects.maxlen with
    | none => exact hmax
    | some n => exact hsmax n hn

/-- The snapshot of a command in flight is as sound as the state (R46). -/
theorem InFlight.Agrees.pre_inv {f : InFlight} {s : State} (h : f.Agrees s) (hs : s.toArch.Inv) :
    f.pre.Inv := by
  obtain ⟨hmem, hsize, hbb, hetab, hmax, herr⟩ := hs
  refine ⟨h.dmem ▸ hmem, h.dmem ▸ hsize, ?_, h.etab ▸ hetab, ?_, ?_⟩ <;> rw [h.regs]
  · exact hbb
  · exact hmax
  · exact herr

/-- What a command in flight would write lies in DMEM, in the state as in its snapshot. -/
theorem State.Inv.writes_lt {s : State} (h : s.Inv) {f : InFlight} (hf : s.inFlight = some f)
    {c : Host.Cell} (hc : c ∈ (execWord f.cmdword f.pre).effects.writes) : c.1 < s.dmem.size := by
  have hagree := h.snapshot f hf
  rw [← hagree.dmem]
  exact execWord_writes_lt (hagree.pre_inv h.arch).size hc

/-- The engine's step keeps the invariant (R112). -/
theorem engineStep_inv {s t : State} (h : s.Inv) (ht : engineStep s = .next t) : t.Inv := by
  cases hf : s.inFlight with
  | none =>
    obtain rfl := Host.Outcome.next.inj ((engineStep_none s hf).symm.trans ht)
    exact h
  | some f =>
    obtain rfl := Host.Outcome.next.inj ((engineStep_eq s f hf).symm.trans ht)
    exact h.complete (fun c hc => h.writes_lt hf hc)
      (execWord_sound _ ((h.snapshot f hf).pre_inv h.arch).bitBuffer)

/-- A reset leaves the invariant if the DMEM it leaves is canonical (R291, R292). -/
theorem resetTo_inv (s : State) {m : Dmem} (hm : m.wf) (hs : Config.legalSize m.size) :
    (s.resetTo m).Inv := by
  refine .of_idle ⟨hm, hs, Nat.zero_mod _, fun e he => ?_, Nat.zero_le _, Nat.zero_le _⟩ rfl rfl
  rw [State.resetTo_etab, etabReset, Vector.toList_replicate] at he
  obtain rfl := List.eq_of_mem_replicate he
  exact ⟨Nat.zero_le _, Nat.one_pos⟩

theorem State.Inv.powerOn {s : State} (h : s.Inv) : s.powerOn.Inv :=
  resetTo_inv s (Dmem.powerOn_wf _ _) h.arch.size

/-- An abandoned command leaves draws only where it would have written (R293). -/
theorem State.Inv.softReset {s : State} (h : s.Inv) : s.softReset.Inv := by
  suffices hm : s.abandon.dmem.wf ∧ s.abandon.dmem.size = s.dmem.size from
    resetTo_inv _ hm.1 (hm.2 ▸ h.arch.size)
  cases hf : s.inFlight with
  | none =>
    rw [State.abandon_none s hf]
    exact ⟨h.arch.memory, rfl⟩
  | some f =>
    simp only [State.abandon, hf]
    refine ⟨Dmem.setBytes_wf _ _ h.arch.memory fun c hc => ?_, Dmem.setBytes_size _ _⟩
    obtain ⟨d, hd, rfl⟩ := List.mem_map.1 hc
    exact h.writes_lt (c := d) hf hd

/-! ### The host's accesses -/

/-- What leaves the command in flight alone keeps the invariant. -/
theorem State.Inv.sameCommand {s s' : State} (hs : s.Inv) (h : s.SameCommand s') : s'.Inv := by
  obtain ⟨hf, hetab, hdtab, hdmem, hregs⟩ := h
  obtain ⟨⟨hmem, hsize, hbb, het, hmax, herr⟩, hbusy, hsnap⟩ := hs
  refine ⟨⟨hdmem ▸ hmem, hdmem ▸ hsize, ?_, hetab ▸ het, ?_, ?_⟩, ?_, fun f hf' => ?_⟩
  · rw [hregs]; exact hbb
  · rw [hregs]; exact hmax
  · rw [hregs]; exact herr
  · rw [hregs, hf]; exact hbusy
  · obtain ⟨hcmd, hpre, h1, h2, h3, h4, h5, h6, h7⟩ := hsnap f (hf ▸ hf')
    refine ⟨?_, ?_, h1.trans hetab.symm, h2.trans hdtab.symm, h3.trans hdmem.symm, ?_, ?_, ?_, ?_⟩ <;>
      rw [hregs] <;> assumption

/-- New registers keep the architectural invariant if the bit buffer, MAXLEN and ERRCODE stay sound. -/
theorem Arch.Inv.with_regs {a : Arch} {r : Regs} (h : a.Inv) (hbb : r.bb = a.regs.bb)
    (hmax : r.maxlen = a.regs.maxlen) (herr : r.errcode.toNat ≤ 8) :
    ({ a with regs := r } : Arch).Inv :=
  ⟨h.memory, h.size, hbb ▸ h.bitBuffer, h.etab, hmax ▸ h.maxlen, herr⟩

/-- A launch snapshots the state it leaves (R46, R110). -/
theorem State.Inv.launch {s : State} (h : s.Inv) (w : Word) : (s.launch w).Inv := by
  refine ⟨h.arch.with_regs rfl rfl (Nat.zero_le _), rfl, fun f hf => ?_⟩
  obtain rfl := Option.some.inj hf
  exact ⟨rfl, rfl, rfl, rfl, rfl, rfl, rfl, rfl, rfl⟩

/-- A word written to the register block while idle keeps the invariant. -/
theorem writeWord_inv {s : State} (h : s.Inv) (hb : s.regs.busy = false)
    (hf : s.inFlight = none) (v : Word) (r : Region) : (writeWord v s r).Inv := by
  obtain hw | ⟨-, hw⟩ | hw | hw | ⟨ie, hw⟩ | hw | ⟨-, n, hw⟩ | ⟨-, i, w, hw⟩ := writeWord_cases v s r <;>
    rw [hw]
  · exact h.softReset
  · exact h.launch v
  · exact h.sameCommand ⟨rfl, rfl, rfl, rfl, rfl⟩
  · exact h
  · exact h.sameCommand ⟨rfl, rfl, rfl, rfl, rfl⟩
  · exact .of_idle (h.arch.with_regs rfl rfl h.arch.errcode) hb hf
  · rw [regStore_eq]
    exact .of_idle (h.arch.with_regs rfl rfl h.arch.errcode) hb hf
  · exact .of_idle ⟨h.arch.memory, h.arch.size, h.arch.bitBuffer, h.arch.etab, h.arch.maxlen,
      h.arch.errcode⟩ hb hf

/-- Bytes written to DMEM by the host while idle keep the invariant (R63). -/
theorem dmemWrite_inv {s : State} (h : s.Inv) (hb : s.regs.busy = false) (hf : s.inFlight = none)
    {a width : Nat} (v : Nat) (hs : supportedDmem s.dmem a width = true) :
    ({ s with dmem := s.dmem.setBytes (memWrites a (width / 8) v) } : State).Inv := by
  have hin : a + width / 8 ≤ s.dmem.size := by
    simp only [supportedDmem, Bool.and_eq_true, decide_eq_true_eq] at hs
    exact hs.2
  obtain ⟨hmem, hsize, hbb, hetab, hmax, herr⟩ := h.arch
  refine .of_idle ⟨Dmem.setBytes_wf _ _ hmem fun c hc => ?_, ?_, hbb, hetab, hmax, herr⟩ hb hf
  · have := bytesAt_mem _ _ _ hc
    rw [littleEndian_length] at this
    omega
  · rwa [Dmem.setBytes_size]

/-- A host access keeps the invariant: with a command in flight it abandons it or leaves it alone, and while idle it resets, launches or stores. -/
theorem hostAccess_inv {x : HostAccess} {s t : State} (h : s.Inv) (ht : hostAccess x s = .next t) :
    t.Inv := by
  cases hf : s.inFlight with
  | some f =>
    have hb : s.regs.busy = true := by rw [h.busy, hf]; rfl
    have ha := h.snapshot f hf
    obtain rfl | hsame := hostAccess_sameCommand ht hb ha.noDone ha.noErr
    · exact h.softReset
    · exact h.sameCommand hsame
  | none =>
    have hb : s.regs.busy = false := by rw [h.busy, hf]; rfl
    cases x with
    | write off width v =>
      obtain hw | ⟨-, -, hw⟩ | ⟨-, -, hbusy, -⟩ | ⟨-, hsup, -, hw⟩ := hostWrite_cases off width v s
      · cases hw.symm.trans ht
      · obtain rfl := Host.Outcome.next.inj (hw.symm.trans ht)
        exact writeWord_inv h hb hf v _
      · cases hbusy.symm.trans hb
      · obtain rfl := Host.Outcome.next.inj (hw.symm.trans ht)
        exact dmemWrite_inv h hb hf _ hsup
    | read off width =>
      obtain hr | ⟨d, hr⟩ | ⟨hbusy, -⟩ := hostRead_cases off width s
      · cases hr.symm.trans ht
      · obtain rfl := Host.Outcome.next.inj (hr.symm.trans ht)
        exact h.sameCommand ⟨rfl, rfl, rfl, rfl, rfl⟩
      · cases hbusy.symm.trans hb

/-! ### The host's program -/

/-- The next state of an outcome, if it has one, meets the invariant. -/
def KeepsInv : Host.Outcome State Fault Refusal → Prop
  | .next t => t.Inv
  | .fault _ => True
  | .refused _ => True

theorem keepsInv_iff {o : Host.Outcome State Fault Refusal} :
    KeepsInv o ↔ ∀ t, o = .next t → t.Inv := by
  cases o <;> simp [KeepsInv]

theorem KeepsInv.thenHost {o : Host.Outcome State Fault Refusal} {f : State → State}
    (ho : KeepsInv o) (hf : ∀ s, State.SameCommand s (f s)) : KeepsInv (thenHost o f) := by
  cases o with
  | next s => exact State.Inv.sameCommand ho (hf s)
  | fault r => exact trivial
  | refused r => exact trivial

theorem hostAccess_keepsInv {s : State} (h : s.Inv) (x : HostAccess) :
    KeepsInv (hostAccess x s) :=
  keepsInv_iff.2 fun _ => hostAccess_inv h

theorem engineStep_keepsInv {s : State} (h : s.Inv) : KeepsInv (engineStep s) :=
  keepsInv_iff.2 fun _ => engineStep_inv h

theorem State.sameCommand_nextLine (s : State) : s.SameCommand s.nextLine :=
  ⟨rfl, rfl, rfl, rfl, rfl⟩

theorem State.sameCommand_setVar (s : State) (x : HostVar) (v : Int) :
    s.SameCommand (s.setVar x v) :=
  ⟨rfl, rfl, rfl, rfl, rfl⟩

theorem writeAt_keepsInv {s : State} (h : s.Inv) (off : Option Nat) (width : Nat) (v : Int) :
    KeepsInv (writeAt off width v s) := by
  cases off with
  | none => exact trivial
  | some o => exact hostAccess_keepsInv h (.write o width _)

theorem readAt_keepsInv {s : State} (h : s.Inv) (off : Option Nat) (width : Nat) (x : HostVar) :
    KeepsInv (readAt off width x s) := by
  cases off with
  | none => exact trivial
  | some o =>
    exact (hostAccess_keepsInv h (.read o width)).thenHost fun s => s.sameCommand_setVar _ _

theorem gotoLabel_keepsInv {s : State} (h : s.Inv) (l : Nat) : KeepsInv (gotoLabel l s) := by
  unfold gotoLabel
  split
  · exact h.sameCommand ⟨rfl, rfl, rfl, rfl, rfl⟩
  · exact trivial

/-- A line of a host program keeps the invariant: it makes an access, or changes the host's own data (R101). -/
theorem hostLine_keepsInv {s : State} (h : s.Inv) (l : HostLine) : KeepsInv (hostLine l s) := by
  have next : KeepsInv (.next s.nextLine) := h.sameCommand s.sameCommand_nextLine
  cases l with
  | wr loc v => exact (writeAt_keepsInv h _ _ _).thenHost State.sameCommand_nextLine
  | rd loc x => exact (readAt_keepsInv h _ _ _).thenHost State.sameCommand_nextLine
  | store width a v => exact (writeAt_keepsInv h _ _ _).thenHost State.sameCommand_nextLine
  | load width a x => exact (readAt_keepsInv h _ _ _).thenHost State.sameCommand_nextLine
  | set x e =>
    exact (h.sameCommand (s.sameCommand_setVar x _)).sameCommand (State.sameCommand_nextLine _)
  | label l => exact next
  | goto l => exact gotoLabel_keepsInv h l
  | ifGoto c l =>
    change KeepsInv (if evalCond s.vars c then gotoLabel l s else .next s.nextLine)
    split
    · exact gotoLabel_keepsInv h l
    · exact next

theorem hostProgramStep_keepsInv {s : State} (h : s.Inv) : KeepsInv (hostProgramStep s) := by
  unfold hostProgramStep
  split
  · exact hostLine_keepsInv h _
  · exact h

/-! ### Every step -/

theorem takeTurn_keepsInv {s : State} (h : s.Inv) (t : Turn) : KeepsInv (takeTurn t s) := by
  cases t with
  | access x => exact hostAccess_keepsInv h x
  | program => exact hostProgramStep_keepsInv h
  | complete => exact engineStep_keepsInv h
  | powerOn => exact h.powerOn

/-- Settles O58: whoever moves keeps the invariant, and the list of turns is no part of it. -/
theorem stepKeepsTheInvariant : Obligations.StepKeepsTheInvariant := by
  intro s t h
  refine keepsInv_iff.1 ?_ t
  cases hturns : s.turns with
  | cons turn rest =>
    rw [step_turn s turn rest hturns]
    have hrest : State.Inv { s with turns := rest } := h.sameCommand ⟨rfl, rfl, rfl, rfl, rfl⟩
    exact takeTurn_keepsInv hrest turn
  | nil =>
    cases hf : s.inFlight.isSome with
    | true =>
      rw [step_engine s hturns hf]
      exact engineStep_keepsInv h
    | false =>
      rw [step_host s hturns hf]
      exact hostProgramStep_keepsInv h

end Sys2Proof.Machine
end

section
/-! PROOFS. The host port's test of an access, what it does to DMEM, what it drops while a command is in flight (20_memory.md R60 to R64, R73), and where the machine stops (70_reset_and_hazards.md R297). -/

namespace Sys2Proof.Machine

/-! ### Supported accesses (R62, R63, R64) -/

/-- A supported access is answered (R62, R63). -/
theorem hostAccess_supported {x : HostAccess} {s : State}
    (h : supportedAt s.dmem.size x.place.1 x.place.2) : ∃ t, hostAccess x s = .next t := by
  cases x with
  | write off width v =>
    obtain ⟨hlt, hs⟩ | ⟨hle, hs⟩ := (supportedAt_some _ _ _).1 h
    · exact ⟨_, (if_pos hlt).trans (if_pos hs)⟩
    · exact ⟨_, (if_neg hle.not_gt).trans (if_pos hs)⟩
  | read off width =>
    obtain ⟨hlt, hs⟩ | ⟨hle, hs⟩ := (supportedAt_some _ _ _).1 h
    · exact ⟨_, (if_pos hlt).trans (if_pos hs)⟩
    · exact ⟨_, (if_neg hle.not_gt).trans (if_pos hs)⟩

/-- An unsupported access is answered with the bus error (R64). -/
theorem hostAccess_unsupported {x : HostAccess} {s : State}
    (h : ¬ supportedAt s.dmem.size x.place.1 x.place.2) :
    hostAccess x s = .fault .hostBusError := by
  cases x with
  | write off width v =>
    obtain ⟨hreg, hmem⟩ := not_or.1 (mt (supportedAt_some s.dmem off width).2 h)
    by_cases hlt : off < apertureBase
    · exact (if_pos hlt).trans (if_neg (not_and.1 hreg hlt))
    · exact (if_neg hlt).trans (if_neg (not_and.1 hmem (Nat.le_of_not_lt hlt)))
  | read off width =>
    obtain ⟨hreg, hmem⟩ := not_or.1 (mt (supportedAt_some s.dmem off width).2 h)
    by_cases hlt : off < apertureBase
    · exact (if_pos hlt).trans (if_neg (not_and.1 hreg hlt))
    · exact (if_neg hlt).trans (if_neg (not_and.1 hmem (Nat.le_of_not_lt hlt)))

/-- In a DMEM of whole words, an aligned access that starts inside ends inside (R6, R63). -/
theorem aligned_end_le_iff {a width size : Nat} (hw : width = 8 ∨ width = 16 ∨ width = 32)
    (ha : a % (width / 8) = 0) (hs : size % 4 = 0) : a + width / 8 ≤ size ↔ a < size := by
  obtain rfl | rfl | rfl := hw <;> omega

/-- In a DMEM of whole words, a supported access is one of a legal width and alignment whose first byte the port has (R62, R63, R64). -/
theorem supportedAt_iff_start {size : Nat} (hs : size % 4 = 0) (off width : Nat) :
    supportedAt size (some off) width ↔
      (off < 0x10000 ∧ width = 32 ∧ off % 4 = 0) ∨
        (0x10000 ≤ off ∧ (width = 8 ∨ width = 16 ∨ width = 32) ∧
          (off - 0x10000) % (width / 8) = 0 ∧ off - 0x10000 < size) := by
  simp only [supportedAt, Option.some.injEq, exists_eq_left']
  refine or_congr_right (and_congr_right fun _ => and_congr_right fun hw => ?_)
  exact and_congr_right fun ha => aligned_end_le_iff hw ha hs

/-- Settles O44: the unsupported accesses of the statement are those the port does not serve, and reads and writes are tested alike. -/
theorem unsupportedAccessIsBusError : Obligations.UnsupportedAccessIsBusError := by
  intro s off width v hsize unsupported
  have hsup : unsupported ↔ ¬ supportedAt s.dmem.size (some off) width := by
    rw [supportedAt_iff_start hsize.1]
    by_cases hlt : off < 0x10000
    · simp [unsupported, hlt, Nat.not_le.2 hlt]
    · simp [unsupported, hlt, Nat.le_of_not_lt hlt]
  refine ⟨fun h => ?_, fun h => ?_⟩
  · exact ⟨hostAccess_unsupported (x := .write off width v) (hsup.1 h),
      hostAccess_unsupported (x := .read off width) (hsup.1 h)⟩
  · have h' := not_not.1 (mt hsup.2 h)
    obtain ⟨t, ht⟩ := hostAccess_supported (x := .write off width v) h'
    obtain ⟨u, hu⟩ := hostAccess_supported (x := .read off width) h'
    exact ⟨t, u, ht, hu⟩

/-! ### Accesses to DMEM (R60, R63, R73) -/

section DmemAccess
variable {s : State} {n a : Nat} (hn : n = 1 ∨ n = 2 ∨ n = 4) (ha : a % n = 0)
  (hin : a + n ≤ s.dmem.size)
include hn ha hin

/-- One, two or four bytes, aligned and inside DMEM, are a supported access (R63). -/
theorem supportedDmem_bytes : supportedDmem s.dmem a (8 * n) = true := by
  obtain rfl | rfl | rfl := hn <;> simp [supportedDmem, ha, hin]

/-- A host write of `n` bytes at DMEM address `a`: stored while idle, dropped while busy (R63, R73). -/
theorem hostWrite_dmem (v : Word) :
    hostWrite (0x10000 + a) (8 * n) v s =
      .next (if s.regs.busy then s.dropAccess
        else { s with dmem := s.dmem.setBytes (memWrites a n v.toNat) }) := by
  have hsup := supportedDmem_bytes hn ha hin
  simp [hostWrite, apertureBase, hsup]

/-- A host read of `n` bytes at DMEM address `a`: answered while idle, dropped while busy (R63, R73). -/
theorem hostRead_dmem :
    hostRead (0x10000 + a) (8 * n) s =
      .next (if s.regs.busy then { s.dropAccess with hostData := 0 }
        else { s with hostData := BitVec.ofNat 32 (s.dmem.read a n) }) := by
  have hsup := supportedDmem_bytes hn ha hin
  simp [hostRead, apertureBase, hsup]

end DmemAccess

/-- Bytes written at consecutive addresses leave every byte outside their span alone. -/
theorem Dmem.sameOutside_memWrites (m : Dmem) (a n v : Nat) :
    m.sameOutside (m.setBytes (memWrites a n v)) [(a, n)] := by
  refine ⟨m.setBytes_size _, m.setBytes_powerOns _, fun x hx => ?_⟩
  rw [inSpans_single] at hx
  exact m.byte_memWrites_other a n v x (by omega)

/-- A power of 256 counts in bytes what a power of 2 counts in bits. -/
theorem pow_256_eq (k : Nat) : 256 ^ k = 2 ^ (8 * k) := (pow_mul 2 8 k).symm

/-- At most four bytes read from DMEM fit a word, and are those last written there (R60). -/
theorem Dmem.readWord_memWrites (m : Dmem) {n : Nat} (hn : n ≤ 4) (a v : Nat) :
    (BitVec.ofNat 32 ((m.setBytes (memWrites a n v)).read a n)).toNat = v % 2 ^ (8 * n) := by
  have hlt : v % 256 ^ n < 256 ^ n := Nat.mod_lt _ (by positivity)
  have hle : 256 ^ n ≤ 2 ^ 32 := Nat.pow_le_pow_right (n := 256) (by decide) hn
  rw [m.read_memWrites, BitVec.toNat_ofNat, Nat.mod_eq_of_lt (hlt.trans_le hle), pow_256_eq]

/-- Settles O45: the write stores the value's bytes, and the read takes the same bytes back. -/
theorem dmemAccessIsLittleEndian : Obligations.DmemAccessIsLittleEndian := by
  intro s n a v hb hn ha hin
  have hw := hostWrite_dmem hn ha hin v
  rw [hb] at hw
  have hin' : a + n ≤ (s.dmem.setBytes (memWrites a n v.toNat)).size := by
    rwa [Dmem.setBytes_size]
  have hr := hostRead_dmem (s := { s with dmem := s.dmem.setBytes (memWrites a n v.toNat) })
    hn ha hin'
  rw [hb] at hr
  refine ⟨_, hw, rfl, s.dmem.sameOutside_memWrites a n v.toNat, fun k hk => ?_, _, hr, rfl, ?_⟩
  · exact (s.dmem.byte_memWrites a n v.toNat k hk).trans (by rw [pow_256_eq])
  · exact s.dmem.readWord_memWrites (by omega) a v.toNat

/-! ### Accesses while a command is in flight (R73) -/

/-- The offsets from 0x800 up to 0x2400 are those of ETAB, DTAB and CTAB (R68). -/
theorem regionOf_window {off : Nat} (hlo : 0x800 ≤ off) (hhi : off < 0x2400) :
    (∃ b word, regionOf off = .etab b word) ∨ (∃ i word, regionOf off = .dtab i word) ∨
      ∃ x u, regionOf off = .ctab x u := by
  unfold regionOf
  rw [if_neg (by omega), if_neg (by omega)]
  by_cases hetab : off < 0x1000
  · exact .inl ⟨_, _, if_pos hetab⟩
  · rw [if_neg hetab]
    by_cases hdtab : off < 0x2000
    · exact .inr (.inl ⟨_, _, if_pos hdtab⟩)
    · exact .inr (.inr ⟨_, _, (if_neg hdtab).trans (if_pos hhi)⟩)

section Busy
variable {s : State} (hb : s.regs.busy = true)
include hb

/-- While busy a write to any other register than CTRL and STATUS is dropped (R73). -/
theorem writeWord_register_busy {r : RegName} (v : Word) (hctrl : r ≠ .ctrl)
    (hstatus : r ≠ .status) : writeWord v s (.reg r) = s.dropAccess := by
  cases r with
  | ctrl => exact absurd rfl hctrl
  | status => exact absurd rfl hstatus
  | _ => simp [writeWord, hb]

/-- While busy an access to a word of a window is dropped, and a read of it returns 0 (R73). -/
theorem window_busy {off : Nat} (v : Word) (hlo : 0x800 ≤ off) (hhi : off < 0x2400) :
    writeWord v s (regionOf off) = s.dropAccess ∧ afterRead s (regionOf off) = s.dropAccess ∧
      readWord s (regionOf off) = 0 := by
  obtain ⟨b, word, h⟩ | ⟨i, word, h⟩ | ⟨x, u, h⟩ := regionOf_window hlo hhi <;>
    simp [h, writeWord, afterRead, readWord, hb]

end Busy

/-- Settles O48: registers, windows and DMEM each by what the port does there while busy; CTRL, STATUS and the reserved offsets are as at any time. -/
theorem busyAccessesAreRefused : Obligations.BusyAccessesAreRefused := by
  intro s off v hb dropped
  obtain ⟨-, -, -, hctrl, hstatus⟩ := statusWordsAndClearing s v
  refine ⟨fun r => hostRead_register r s, hctrl, hstatus, fun r hc hs => ?_,
    fun hlo hhi h4 => ?_, fun n hn ha hin => ?_, fun h4 h => reservedOffsetsAreInert s off v h4 h⟩
  · rw [hostWrite_register, writeWord_register_busy hb v hc hs]
    rfl
  · obtain ⟨hw, hr, hdata⟩ := window_busy hb v hlo hhi
    have hlt : off < 0x10000 := by omega
    rw [hostWrite_word v s hlt h4 rfl, hostRead_word s hlt h4 rfl, hw, hr, hdata]
    exact ⟨rfl, rfl⟩
  · rw [hostWrite_dmem hn ha hin, hostRead_dmem hn ha hin, hb]
    exact ⟨rfl, rfl⟩

/-! ### Where the machine stops (R64, R297) -/

/-- The engine's turn always has a next state (R112, R118). -/
theorem engineStep_next (s : State) : ∃ t, engineStep s = .next t := by
  cases hf : s.inFlight with
  | none => exact ⟨_, engineStep_none s hf⟩
  | some f => exact ⟨_, engineStep_eq s f hf⟩

/-- A jump goes on at its label, or is refused where no line defines it (R101). -/
theorem gotoLabel_cases (k : Nat) (s : State) :
    (∃ t, gotoLabel k s = .next t) ∨
      (.label k ∉ s.prog ∧ gotoLabel k s = .refused (.hostLabelMissing k)) := by
  unfold gotoLabel
  split
  · exact .inl ⟨_, rfl⟩
  · next h =>
    refine .inr ⟨fun hmem => ?_, rfl⟩
    simpa using List.findIdx?_eq_none_iff.1 h _ hmem

/-- A host access is answered, or is a bus error where its place is not served (R64). -/
theorem hostAccess_cases (x : HostAccess) (s : State) :
    (∃ t, hostAccess x s = .next t) ∨
      (hostAccess x s = .fault .hostBusError ∧
        ¬ supportedAt s.dmem.size x.place.1 x.place.2) := by
  by_cases h : supportedAt s.dmem.size x.place.1 x.place.2
  · exact .inl (hostAccess_supported h)
  · exact .inr ⟨hostAccess_unsupported h, h⟩

/-- What the host does after an access does not change whether the access is answered. -/
theorem thenHost_cases {o : Host.Outcome State Fault Refusal} {P : Prop} (f : State → State)
    (h : (∃ t, o = .next t) ∨ (o = .fault .hostBusError ∧ P)) :
    (∃ t, thenHost o f = .next t) ∨ (thenHost o f = .fault .hostBusError ∧ P) := by
  obtain ⟨t, rfl⟩ | ⟨rfl, hp⟩ := h
  · exact .inl ⟨f t, rfl⟩
  · exact .inr ⟨rfl, hp⟩

/-- A line's write is answered, or is a bus error where its place is not served (R64, R101). -/
theorem writeAt_cases (off : Option Nat) (width : Nat) (v : Int) (s : State) :
    (∃ t, writeAt off width v s = .next t) ∨
      (writeAt off width v s = .fault .hostBusError ∧ ¬ supportedAt s.dmem.size off width) := by
  cases off with
  | none => exact .inr ⟨rfl, supportedAt_none _ _⟩
  | some o => exact hostAccess_cases (.write o width _) s

/-- A line's read is answered, or is a bus error where its place is not served (R64, R101). -/
theorem readAt_cases (off : Option Nat) (width : Nat) (x : HostVar) (s : State) :
    (∃ t, readAt off width x s = .next t) ∨
      (readAt off width x s = .fault .hostBusError ∧ ¬ supportedAt s.dmem.size off width) := by
  cases off with
  | none => exact .inr ⟨rfl, supportedAt_none _ _⟩
  | some o => exact thenHost_cases _ (hostAccess_cases (.read o width) s)

/-- The line `l`, executed in `s` with outcome `o`, stops the machine: its access is not served, or its jump has no label (R64, R101). -/
def StopsAt (l : HostLine) (s : State) (o : Host.Outcome State Fault Refusal) : Prop :=
  (o = .fault .hostBusError ∧
      ∃ p, l.place s.vars = some p ∧ ¬ supportedAt s.dmem.size p.1 p.2) ∨
    ∃ k, l.target s.vars = some k ∧ .label k ∉ s.prog ∧ o = .refused (.hostLabelMissing k)

/-- A line of a host program goes on, or stops for one of the two reasons (R64, R101). -/
theorem hostLine_cases (l : HostLine) (s : State) :
    (∃ t, hostLine l s = .next t) ∨ StopsAt l s (hostLine l s) := by
  have access {o : Host.Outcome State Fault Refusal} {off : Option Nat} {width : Nat}
      (hp : l.place s.vars = some (off, width)) (f : State → State)
      (h : (∃ t, o = .next t) ∨ (o = .fault .hostBusError ∧ ¬ supportedAt s.dmem.size off width)) :
      (∃ t, thenHost o f = .next t) ∨ StopsAt l s (thenHost o f) :=
    (thenHost_cases f h).imp_right fun ⟨ho, hn⟩ => .inl ⟨ho, _, hp, hn⟩
  have jump {k : Nat} (hk : l.target s.vars = some k) :
      (∃ t, gotoLabel k s = .next t) ∨ StopsAt l s (gotoLabel k s) :=
    (gotoLabel_cases k s).imp_right fun ⟨hn, ho⟩ => .inr ⟨k, hk, hn, ho⟩
  cases l with
  | wr loc v => exact access rfl _ (writeAt_cases _ _ _ s)
  | rd loc x => exact access rfl _ (readAt_cases _ _ _ s)
  | store width a v => exact access rfl _ (writeAt_cases _ _ _ s)
  | load width a x => exact access rfl _ (readAt_cases _ _ _ s)
  | set x e => exact .inl ⟨_, rfl⟩
  | label k => exact .inl ⟨_, rfl⟩
  | goto k => exact jump rfl
  | ifGoto c k =>
    by_cases hc : evalCond s.vars c = true
    · have ho : hostLine (.ifGoto c k) s = gotoLabel k s := if_pos hc
      exact ho ▸ jump (if_pos hc)
    · exact .inl ⟨_, if_neg hc⟩

/-- The host program's turn goes on, or its next line stops the machine (R101, R299). -/
theorem hostProgramStep_cases (s : State) :
    (∃ t, hostProgramStep s = .next t) ∨
      ∃ l, s.prog[s.progPos]? = some l ∧ StopsAt l s (hostProgramStep s) := by
  unfold hostProgramStep
  split
  · next l hl => exact (hostLine_cases l s).imp_right fun h => ⟨l, hl, h⟩
  · exact .inl ⟨s, rfl⟩

/-- A step goes on, or an access that is listed stops it, or the line that the host executes (R297). -/
theorem step_cases (s : State) :
    (∃ t, step s = .next t) ∨
      (step s = .fault .hostBusError ∧
        ∃ x rest, s.turns = .access x :: rest ∧ ¬ supportedAt s.dmem.size x.place.1 x.place.2) ∨
      ∃ l, s.lineToRun = some l ∧ StopsAt l s (step s) := by
  cases hturns : s.turns with
  | nil =>
    cases hf : s.inFlight with
    | some f =>
      rw [step_engine s hturns (by simp [hf])]
      exact .inl (engineStep_next s)
    | none =>
      rw [step_host s hturns (by simp [hf])]
      refine (hostProgramStep_cases s).imp_right fun ⟨l, hl, h⟩ => .inr ⟨l, ?_, h⟩
      simpa [State.lineToRun, hturns, hf] using hl
  | cons turn rest =>
    rw [step_turn s turn rest hturns]
    cases turn with
    | access x =>
      exact (hostAccess_cases x { s with turns := rest }).imp_right
        fun ⟨ho, hn⟩ => .inl ⟨ho, x, rest, rfl, hn⟩
    | program =>
      refine (hostProgramStep_cases { s with turns := rest }).imp_right
        fun ⟨l, hl, h⟩ => .inr ⟨l, ?_, h⟩
      simpa [State.lineToRun, hturns] using hl
    | complete => exact .inl (engineStep_next _)
    | powerOn => exact .inl ⟨_, rfl⟩

/-- With nobody's access or line to come, the step goes on (R112, R291, R299). -/
theorem step_next_of_no_host {s : State} (hacc : ∀ x rest, s.turns ≠ .access x :: rest)
    (hline : s.lineToRun = none) : ∃ t, step s = .next t := by
  obtain h | ⟨-, x, rest, hx, -⟩ | ⟨l, hl, -⟩ := step_cases s
  · exact h
  · exact absurd hx (hacc x rest)
  · simp [hline] at hl

/-- Where no line is listed and, with nothing listed, the engine moves or the program is at its end, the host executes no line. -/
theorem State.lineToRun_eq_none {s : State} (hprog : ∀ rest, s.turns ≠ .program :: rest)
    (hend : s.turns = [] → s.inFlight ≠ none ∨ s.prog.length ≤ s.progPos) :
    s.lineToRun = none := by
  unfold State.lineToRun
  split
  · next rest h => exact absurd h (hprog rest)
  · next h =>
    obtain hf | hlen := hend h
    · exact if_neg (by simpa using hf)
    · rw [List.getElem?_eq_none hlen, ite_self]
  · rfl

/-- Settles O57: every step goes on or stops at one of the host's own accesses or jumps, and a listed access stops exactly where it is unsupported. -/
theorem onlyTheHostCanStopTheMachine : Obligations.OnlyTheHostCanStopTheMachine := by
  intro s
  refine ⟨fun hstop => ?_, fun x rest hx => ?_, fun hacc hprog hend => ⟨?_, fun rest hc hf => ?_⟩⟩
  · obtain ⟨t, ht⟩ | ⟨ho, hx⟩ | ⟨l, hl, ⟨ho, p, hp, hn⟩ | ⟨k, hk, hn, ho⟩⟩ := step_cases s
    · exact absurd ht (hstop t)
    · exact .inl ⟨ho, .inl hx⟩
    · exact .inl ⟨ho, .inr ⟨l, p, hl, hp, hn⟩⟩
    · exact .inr ⟨l, k, hl, hk, hn, ho⟩
  · rw [step_turn s _ rest hx]
    exact ⟨hostAccess_supported (s := { s with turns := rest }),
      hostAccess_unsupported (s := { s with turns := rest })⟩
  · exact step_next_of_no_host hacc (State.lineToRun_eq_none hprog hend)
  · rw [step_turn s _ rest hc]
    exact engineStep_none { s with turns := rest } hf

end Sys2Proof.Machine
end

section
/-! PROOFS. The fields of a command word: a command's OP, the bits it uses and its modifier field say which word is its own, and decoding and encoding are inverse (30_encoding.md R90 to R97, R100). -/

namespace Sys2Proof

/-! ### Commands by their fields (R90) -/

/-- How many low bits of its word a command uses: OP, and as much of F as carries its operand; the bits above are reserved (R90, R91). -/
def Instr.bitsUsed : Instr → Nat
  | .csc _ => 12
  | .fdct _ => 9
  | .idct _ => 9
  | .bbadd _ => 14
  | .nop | .qzz | .dqzz | .henc | .hdec | .bbrst | .bbfin => 8

/-- The command of the same row of the opcode map whose operand is read from the modifier field `f` (R90). -/
def Instr.withModifier (f : Nat) : Instr → Instr
  | .csc _ => .csc (f % 16)
  | .fdct _ => .fdct (f % 2 == 1)
  | .idct _ => .idct (f % 2 == 1)
  | .bbadd _ => .bbadd (f % 64)
  | i => i

@[simp] theorem Instr.withModifier_op (f : Nat) (i : Instr) : (i.withModifier f).op = i.op := by
  cases i <;> rfl

@[simp] theorem Instr.withModifier_bitsUsed (f : Nat) (i : Instr) :
    (i.withModifier f).bitsUsed = i.bitsUsed := by
  cases i <;> rfl

@[simp] theorem Instr.withModifier_mnemonic (f : Nat) (i : Instr) :
    (i.withModifier f).mnemonic = i.mnemonic := by
  cases i <;> rfl

theorem Instr.withModifier_wf (f : Nat) (i : Instr) : (i.withModifier f).wf = true := by
  cases i with
  | csc _ => exact decide_eq_true (Nat.mod_lt _ (by decide))
  | bbadd _ => exact decide_eq_true (Nat.mod_lt _ (by decide))
  | _ => rfl

theorem toNat_mod_two_beq_one (f : Nat) : (f % 2 == 1).toNat = f % 2 := by
  rcases Nat.mod_two_eq_zero_or_one f with h | h <;> rw [h] <;> rfl

/-- The operand is the part of F below the reserved bits. -/
theorem Instr.withModifier_modifier (f : Nat) (i : Instr) :
    (i.withModifier f).modifier = f % 2 ^ (i.bitsUsed - 8) := by
  cases i with
  | csc _ => rfl
  | fdct _ => exact toNat_mod_two_beq_one f
  | idct _ => exact toNat_mod_two_beq_one f
  | bbadd _ => rfl
  | _ => exact (Nat.mod_one f).symm

/-- A well-formed command is the one of its row with its own modifier. -/
theorem Instr.withModifier_self {i : Instr} (h : i.wf = true) : i.withModifier i.modifier = i := by
  cases i with
  | csc fmt => exact congrArg _ (Nat.mod_eq_of_lt (of_decide_eq_true h))
  | fdct sep => cases sep <;> rfl
  | idct sep => cases sep <;> rfl
  | bbadd len => exact congrArg _ (Nat.mod_eq_of_lt (of_decide_eq_true h))
  | _ => rfl

theorem Instr.op_le (i : Instr) : i.op ≤ 0x0A := by
  cases i <;> simp [Instr.op]

theorem Instr.bitsUsed_bounds (i : Instr) : 8 ≤ i.bitsUsed ∧ i.bitsUsed ≤ 14 := by
  cases i <;> simp [Instr.bitsUsed]

/-- A command of each row of the opcode map, in the map's order (R96). -/
def rowCommands : List Instr :=
  [.nop, .csc 0, .fdct false, .idct false, .qzz, .dqzz, .henc, .hdec, .bbrst, .bbadd 0, .bbfin]

theorem Instr.withModifier_zero_mem (i : Instr) : i.withModifier 0 ∈ rowCommands := by
  cases i <;> simp [Instr.withModifier, rowCommands]

/-- Every OP up to 0x0A is a command's (R96). -/
theorem exists_op_eq : ∀ n < 0x0B, ∃ i ∈ rowCommands, i.op = n := by decide

/-! ### Decoding by the fields (R91, R95, R97) -/

theorem ifReservedClear_eq_ok_iff {w : Word} {lo : Nat} {i j : Instr} :
    ifReservedClear w lo i = .ok j ↔ w.toNat < 2 ^ lo ∧ i = j := by
  unfold ifReservedClear
  split
  · next h => simp [Nat.lt_of_div_eq_zero (Nat.two_pow_pos lo) h]
  · next h => simpa using fun hlt => absurd (Nat.div_eq_of_lt hlt) h

/-- The low bits of a field. -/
theorem bitField_mod (w : Word) (lo : Nat) {m n : Nat} (h : m ≤ n) :
    bitField w lo n % 2 ^ m = bitField w lo m :=
  Nat.mod_mod_of_dvd _ (Nat.pow_dvd_pow 2 h)

/-- A word with the OP of a command decodes by that command's row. -/
theorem decode_of_op {w : Word} {i : Instr} (h : bitField w 0 8 = i.op) :
    decode w = ifReservedClear w i.bitsUsed (i.withModifier (bitField w 8 6)) := by
  have hmod4 : bitField w 8 6 % 16 = bitField w 8 4 := bitField_mod w 8 (by decide : 4 ≤ 6)
  have hmod1 : bitField w 8 6 % 2 = bitField w 8 1 := bitField_mod w 8 (by decide : 1 ≤ 6)
  have hmod6 : bitField w 8 6 % 64 = bitField w 8 6 := bitField_mod w 8 (le_refl 6)
  cases i <;>
    simp only [decode, h, Instr.op, Instr.bitsUsed, Instr.withModifier, hmod4, hmod1, hmod6]

/-- A word with a reserved OP is no command (R97). -/
theorem decode_ne_ok_of_reservedOp {w : Word} (h : 0x0B ≤ bitField w 0 8) (i : Instr) :
    decode w ≠ .ok i := by
  unfold decode
  split
  case h_12 => nofun
  all_goals omega

/-- A word is a command exactly when its OP and its reserved bits are those of a row; F is then the operand. -/
theorem decode_eq_ok_iff {w : Word} {i : Instr} :
    decode w = .ok i ↔
      ∃ j : Instr, bitField w 0 8 = j.op ∧ w.toNat < 2 ^ j.bitsUsed ∧
        j.withModifier (bitField w 8 6) = i := by
  constructor
  · intro h
    have hlt := Nat.lt_of_not_le fun hres => decode_ne_ok_of_reservedOp hres i h
    obtain ⟨j, -, hj⟩ := exists_op_eq _ hlt
    rw [decode_of_op hj.symm, ifReservedClear_eq_ok_iff] at h
    exact ⟨j, hj.symm, h⟩
  · rintro ⟨j, hj, h⟩
    rwa [decode_of_op hj, ifReservedClear_eq_ok_iff]

/-! ### Round trips (R90, R100) -/

theorem Instr.two_pow_bitsUsed (i : Instr) : 2 ^ i.bitsUsed = 2 ^ (i.bitsUsed - 8) * 0x100 := by
  rw [show 0x100 = 2 ^ 8 from rfl, ← Nat.pow_add, Nat.sub_add_cancel i.bitsUsed_bounds.1]

theorem Instr.two_pow_bitsUsed_le (i : Instr) : 2 ^ i.bitsUsed ≤ 2 ^ 14 :=
  Nat.pow_le_pow_right (by decide) i.bitsUsed_bounds.2

theorem Instr.modifier_lt {i : Instr} (h : i.wf = true) : i.modifier < 2 ^ (i.bitsUsed - 8) := by
  rw [← Instr.withModifier_self h, Instr.withModifier_modifier, Instr.withModifier_bitsUsed]
  exact Nat.mod_lt _ (Nat.two_pow_pos _)

/-- The word of a well-formed command is OP + F·0x100, and the bits that it does not use are 0. -/
theorem encode_toNat {i : Instr} (h : i.wf = true) :
    (encode i).toNat = i.op + i.modifier * 0x100 ∧ (encode i).toNat < 2 ^ i.bitsUsed := by
  have hop := i.op_le
  have hmod := Instr.modifier_lt h
  have hpow := i.two_pow_bitsUsed
  have hle := i.two_pow_bitsUsed_le
  rw [encode, BitVec.toNat_ofNat]
  omega

/-- Settles O1: the word's OP picks the command's own row, and F gives its operand back. -/
theorem encodeDecodeRoundTrip : Obligations.EncodeDecodeRoundTrip := by
  intro i hwf
  obtain ⟨hword, hlt⟩ := encode_toNat hwf
  have hle := i.two_pow_bitsUsed_le
  have hop := i.op_le
  have hfields : bitField (encode i) 0 8 = i.op ∧ bitField (encode i) 8 6 = i.modifier := by
    unfold bitField
    omega
  obtain ⟨hopField, hF⟩ := hfields
  refine decode_eq_ok_iff.2 ⟨i, hopField, hlt, ?_⟩
  rw [hF, Instr.withModifier_self hwf]

/-- Settles O3: the bits above those a command uses are 0, and OP and F make up the rest of the word. -/
theorem decodedWordReencodes : Obligations.DecodedWordReencodes := by
  intro w i h
  obtain ⟨j, hop, hlt, rfl⟩ := decode_eq_ok_iff.1 h
  have hwf := Instr.withModifier_wf (bitField w 8 6) j
  refine ⟨hwf, BitVec.eq_of_toNat_eq ?_⟩
  have hle := j.two_pow_bitsUsed_le
  have hF : bitField w 8 6 < 2 ^ (j.bitsUsed - 8) := by
    rw [Instr.two_pow_bitsUsed] at hlt
    unfold bitField
    omega
  rw [(encode_toNat hwf).1, Instr.withModifier_op, Instr.withModifier_modifier,
    Nat.mod_eq_of_lt hF, ← hop]
  unfold bitField
  omega

/-- Settles O4: each word is that of the command beside it. -/
theorem specWordsDecode : Obligations.SpecWordsDecode := by
  unfold Obligations.SpecWordsDecode
  decide

end Sys2Proof
end

section
/-! PROOFS. The rows of the opcode map, each that of its commands: a word is a command exactly when a row covers it, and otherwise completes as illegal (30_encoding.md R95, R96, R97). -/

namespace Sys2Proof

/-! ### Rows (R96) -/

/-- The mask of a row: OP and every bit from bit `lo` up (R96). -/
def rowMask (lo : Nat) : Word := BitVec.allOnes 32 <<< lo ||| 0xFF

/-- The row of the opcode map that a command belongs to (R96). -/
def Instr.opRow (i : Instr) : OpRow := ⟨i.mnemonic, BitVec.ofNat 32 i.op, rowMask i.bitsUsed⟩

@[simp] theorem Instr.withModifier_opRow (f : Nat) (i : Instr) :
    (i.withModifier f).opRow = i.opRow := by
  simp [Instr.opRow]

theorem opRows_eq : opRows = rowCommands.map Instr.opRow := by
  rfl

/-- The opcode map's rows are those of the commands. -/
theorem mem_opRows_iff {r : OpRow} : r ∈ opRows ↔ ∃ i : Instr, i.opRow = r := by
  rw [opRows_eq, List.mem_map]
  constructor
  · rintro ⟨i, -, hi⟩
    exact ⟨i, hi⟩
  · rintro ⟨i, rfl⟩
    exact ⟨_, i.withModifier_zero_mem, i.withModifier_opRow 0⟩

/-- A row's mask keeps OP and the bits from `lo` up where they are. -/
theorem and_rowMask_toNat (w : Word) {lo : Nat} (h : 8 ≤ lo) :
    (w &&& rowMask lo).toNat = w.toNat / 2 ^ lo * 2 ^ lo + bitField w 0 8 := by
  have hhigh : (w &&& BitVec.allOnes 32 <<< lo).toNat = (w.toNat / 2 ^ lo) <<< lo := by
    rw [← BitVec.shiftLeft_ushiftRight, BitVec.toNat_shiftLeft, BitVec.toNat_ushiftRight,
      Nat.shiftRight_eq_div_pow, Nat.shiftLeft_eq]
    exact Nat.mod_eq_of_lt ((Nat.div_mul_le_self _ _).trans_lt w.isLt)
  have hlow : (w &&& 0xFF).toNat = bitField w 0 8 := by
    rw [bitField, Nat.pow_zero, Nat.div_one, ← Nat.and_two_pow_sub_one_eq_mod]
    exact BitVec.toNat_and ..
  have hlt : bitField w 0 8 < 2 ^ lo :=
    (Nat.mod_lt _ (by decide)).trans_le (Nat.pow_le_pow_right (by decide) h)
  rw [rowMask, BitVec.and_or_distrib_left, BitVec.toNat_or, hhigh, hlow,
    ← Nat.shiftLeft_add_eq_or_of_lt hlt, Nat.shiftLeft_eq]

/-- A row covers the words with its OP and its reserved bits 0. -/
theorem covers_opRow_iff {w : Word} {i : Instr} :
    w &&& i.opRow.mask = i.opRow.mtch ↔ bitField w 0 8 = i.op ∧ w.toNat < 2 ^ i.bitsUsed := by
  obtain ⟨hlo, -⟩ := i.bitsUsed_bounds
  have hop := i.op_le
  have hpow : 2 ^ 8 ≤ 2 ^ i.bitsUsed := Nat.pow_le_pow_right (by decide) hlo
  have hmatch : i.opRow.mtch.toNat = i.op := by
    rw [Instr.opRow, BitVec.toNat_ofNat]
    omega
  rw [← BitVec.toNat_inj, hmatch]
  change (w &&& rowMask i.bitsUsed).toNat = i.op ↔ _
  rw [and_rowMask_toNat w hlo]
  constructor
  · intro h
    have hclear : w.toNat / 2 ^ i.bitsUsed = 0 := by
      by_contra hne
      have := Nat.le_mul_of_pos_left (2 ^ i.bitsUsed) (Nat.pos_of_ne_zero hne)
      omega
    exact ⟨by simpa [hclear] using h, Nat.lt_of_div_eq_zero (Nat.two_pow_pos _) hclear⟩
  · rintro ⟨hopField, hlt⟩
    rw [Nat.div_eq_of_lt hlt, Nat.zero_mul, Nat.zero_add, hopField]

/-- Two rows of the opcode map with one mnemonic, or one match, are the same row. -/
theorem opRows_inj {r r' : OpRow} (h : r ∈ opRows) (h' : r' ∈ opRows) :
    (r.mnemonic = r'.mnemonic → r = r') ∧ (r.mtch = r'.mtch → r = r') :=
  ⟨List.inj_on_of_nodup_map (f := OpRow.mnemonic) (by decide) h h',
    List.inj_on_of_nodup_map (f := OpRow.mtch) (by decide) h h'⟩

/-- The row of a command covers its words. -/
theorem covers_of_decode {w : Word} {i : Instr} (h : decode w = .ok i) :
    w &&& i.opRow.mask = i.opRow.mtch := by
  obtain ⟨j, hop, hlt, rfl⟩ := decode_eq_ok_iff.1 h
  rw [covers_opRow_iff, Instr.withModifier_op, Instr.withModifier_bitsUsed]
  exact ⟨hop, hlt⟩

/-- A word is a command exactly when a row covers it (R96). -/
theorem exists_decode_iff {w : Word} :
    (∃ i, decode w = .ok i) ↔ ∃ r ∈ opRows, w &&& r.mask = r.mtch := by
  constructor
  · rintro ⟨i, h⟩
    exact ⟨i.opRow, mem_opRows_iff.2 ⟨i, rfl⟩, covers_of_decode h⟩
  · rintro ⟨r, hr, hcov⟩
    obtain ⟨j, rfl⟩ := mem_opRows_iff.1 hr
    obtain ⟨hop, hlt⟩ := covers_opRow_iff.1 hcov
    exact ⟨_, decode_eq_ok_iff.2 ⟨j, hop, hlt, rfl⟩⟩

/-- Rows that cover the same word have the same match, its OP. -/
theorem mtch_eq_of_covers {w : Word} {i j : Instr} (hi : w &&& i.opRow.mask = i.opRow.mtch)
    (hj : w &&& j.opRow.mask = j.opRow.mtch) : i.opRow.mtch = j.opRow.mtch :=
  congrArg (BitVec.ofNat 32) ((covers_opRow_iff.1 hi).1.symm.trans (covers_opRow_iff.1 hj).1)

/-- Settles O2: the row of the decoded command covers the word, and no two rows share a match or a mnemonic. -/
theorem decodeIsTheOpcodeMap : Obligations.DecodeIsTheOpcodeMap := by
  refine ⟨fun w => exists_decode_iff, fun w i h r hr => ?_⟩
  have hcov := covers_of_decode h
  obtain ⟨hname, hmatch⟩ := opRows_inj hr (mem_opRows_iff.2 ⟨i, rfl⟩)
  obtain ⟨j, rfl⟩ := mem_opRows_iff.1 hr
  constructor
  · intro hj
    exact congrArg OpRow.mnemonic (hmatch (mtch_eq_of_covers hj hcov))
  · intro hmn
    rwa [hname hmn]

/-! ### Words that are no command (R95, R97) -/

/-- A word that no row covers has the Exec of an illegal command. -/
theorem execWord_of_not_covered {w : Word} (h : ∀ r ∈ opRows, w &&& r.mask ≠ r.mtch)
    (a : Machine.Arch) : Machine.execWord w a = Machine.illegalResult := by
  unfold Machine.execWord
  split
  · next i hi =>
    obtain ⟨r, hr, hcov⟩ := exists_decode_iff.1 ⟨i, hi⟩
    exact absurd hcov (h r hr)
  · rfl

/-- No row covers a word whose OP is reserved or that sets a bit which is reserved for its OP. -/
theorem not_covered_of_reserved {w : Word}
    (h : ∀ i : Instr, bitField w 0 8 = i.op → 2 ^ i.bitsUsed ≤ w.toNat) :
    ∀ r ∈ opRows, w &&& r.mask ≠ r.mtch := by
  intro r hr hcov
  obtain ⟨i, rfl⟩ := mem_opRows_iff.1 hr
  obtain ⟨hop, hlt⟩ := covers_opRow_iff.1 hcov
  exact Nat.not_lt.2 (h i hop) hlt

/-- A word with a bit set from bit `lo` up is at least 2^lo. -/
theorem two_pow_le_of_bitField_ne_zero {w : Word} {lo n : Nat} (h : bitField w lo n ≠ 0) :
    2 ^ lo ≤ w.toNat := by
  by_contra hlt
  rw [bitField, Nat.div_eq_of_lt (Nat.not_le.1 hlt), Nat.zero_mod] at h
  exact h rfl

/-- The bits that a command uses, by its OP (R91). -/
theorem Instr.bitsUsed_of_op (i : Instr) :
    (i.op = 0x01 → i.bitsUsed = 12) ∧ (i.op = 0x02 ∨ i.op = 0x03 → i.bitsUsed = 9) ∧
      (i.op ≠ 0x01 → i.op ≠ 0x02 → i.op ≠ 0x03 → i.op ≠ 0x09 → i.bitsUsed = 8) := by
  cases i <;> simp [Instr.op, Instr.bitsUsed]

/-- Settles O6: a reserved bit lies above the bits that the row of the word's OP uses, and 0 is the word of NOP. -/
theorem undecodableWordIsIllegal : Obligations.UndecodableWordIsIllegal := by
  refine ⟨fun s f hf hnone => ?_, ?_, fun w => ⟨fun h => ?_, ?_⟩⟩
  · rw [Machine.engineStep_eq s f hf, execWord_of_not_covered hnone]
    rfl
  · intro w op hres
    refine not_covered_of_reserved fun i (hop : op = i.op) => ?_
    rw [hop] at hres
    obtain ⟨hcsc, htransform, hplain⟩ := i.bitsUsed_of_op
    obtain h | h | ⟨hi, h⟩ | ⟨hi, h⟩ | ⟨h1, h2, h3, h9, h⟩ := hres
    · exact absurd i.op_le (Nat.not_le.2 h)
    · exact i.two_pow_bitsUsed_le.trans (two_pow_le_of_bitField_ne_zero h)
    · exact hcsc hi ▸ two_pow_le_of_bitField_ne_zero h
    · exact htransform hi ▸ two_pow_le_of_bitField_ne_zero h
    · exact hplain h1 h2 h3 h9 ▸ two_pow_le_of_bitField_ne_zero h
  · exact (decodedWordReencodes w .nop h).2.symm
  · rintro rfl
    rfl

end Sys2Proof
end

section
/-! PROOFS. What the completion of a command leaves unchanged: memory outside its spans, and the registers and tables that are not its own (30_encoding.md R99; 40_command_model.md R122; 60_exceptions.md R264). -/

namespace Sys2Proof.Machine

/-! ### Memory -/

/-- Writes inside the spans leave every byte outside them. -/
theorem Dmem.sameOutside_setBytes (m : Dmem) {ws : List Host.Cell} {spans : List (Nat × Nat)}
    (h : ∀ c ∈ ws, inSpans spans c.1) : m.sameOutside (m.setBytes ws) spans := by
  refine ⟨m.setBytes_size ws, m.setBytes_powerOns ws, fun a ha => ?_⟩
  refine m.byte_setBytes_other ws a fun c hc heq => ha ?_
  exact heq ▸ h c hc

/-- Settles O38: a completion writes what its command stores, and every command stores in its spans. -/
theorem commandsStoreOnlyInTheirSpans : Obligations.CommandsStoreOnlyInTheirSpans := by
  intro i s t hsize ht
  obtain rfl := exec_next i s t ht
  exact s.dmem.sameOutside_setBytes fun c hc => (resultOf_storedAt hsize hc).1

/-! ### Registers and tables -/

/-- The effects `e` touch only the tables, MAXLEN, BITCNT and bit buffer that command `i` may write (R99). -/
structure Effects.OwnedBy (e : Effects) (i : Instr) : Prop where
  tables : i ≠ .henc → e.etab = none ∧ e.dtab = none ∧ e.dtcnt = none
  maxlen : i ≠ .henc → i ≠ .hdec → e.maxlen = none
  bitcnt : i ≠ .henc → i ≠ .bbfin → e.bitcnt = none
  bitBuffer : i ≠ .henc → i ≠ .bbrst → i ≠ .bbfin → (∀ len, i ≠ .bbadd len) → e.bb = none

/-- Writing DMEM alone is any command's. -/
theorem Effects.OwnedBy.of_writes (ws : List Host.Cell) (i : Instr) :
    ({ writes := ws } : Effects).OwnedBy i :=
  ⟨fun _ => ⟨rfl, rfl, rfl⟩, fun _ _ => rfl, fun _ _ => rfl, fun _ _ _ _ => rfl⟩

/-- A failed check writes nothing (R264). -/
theorem checked_ownedBy {cs : List Check} {run : Unit → Result} {i : Instr}
    (h : (run ()).effects.OwnedBy i) : (checked cs run).effects.OwnedBy i := by
  obtain ⟨e, -, hr⟩ | ⟨-, hr⟩ := checked_cases cs run
  · rw [hr]
    exact .of_writes [] i
  · rwa [hr]

/-- No command writes a register or table but its own (R99). -/
theorem resultOf_ownedBy (i : Instr) (a : Arch) : (resultOf i a).effects.OwnedBy i := by
  cases i with
  | nop => exact .of_writes [] _
  | csc fmt => exact checked_ownedBy (.of_writes _ _)
  | fdct sep => exact checked_ownedBy (.of_writes _ _)
  | idct sep => exact checked_ownedBy (.of_writes _ _)
  | qzz => exact checked_ownedBy (.of_writes _ _)
  | dqzz => exact checked_ownedBy (.of_writes _ _)
  | henc =>
    exact checked_ownedBy (checked_ownedBy
      ⟨(absurd rfl ·), (absurd rfl ·), (absurd rfl ·), (absurd rfl ·)⟩)
  | hdec =>
    exact checked_ownedBy ⟨fun _ => ⟨rfl, rfl, rfl⟩, fun _ h => absurd rfl h, fun _ _ => rfl,
      fun _ _ _ _ => rfl⟩
  | bbrst =>
    exact ⟨fun _ => ⟨rfl, rfl, rfl⟩, fun _ _ => rfl, fun _ _ => rfl, fun _ h => absurd rfl h⟩
  | bbadd len =>
    exact checked_ownedBy ⟨fun _ => ⟨rfl, rfl, rfl⟩, fun _ _ => rfl, fun _ _ => rfl,
      fun _ _ _ h => absurd rfl (h len)⟩
  | bbfin =>
    exact checked_ownedBy ⟨fun _ => ⟨rfl, rfl, rfl⟩, fun _ _ => rfl, fun _ h => absurd rfl h,
      fun _ _ h => absurd rfl h⟩

/-- A completion reports in BUSY, DONE, ERR, ERRCODE and ERRINFO and nowhere else (R112, R113). -/
theorem completeStatus_eq (r : Regs) (error : Option (ErrCode × Nat)) :
    ∃ err errcode errinfo, completeStatus r error =
      { r with
        busy := false, done := true, err := err, errcode := errcode, errinfo := errinfo } := by
  cases error with
  | none => exact ⟨_, _, _, rfl⟩
  | some e => exact ⟨_, _, _, rfl⟩

/-- Settles O39: a completion changes the registers by the status and by the command's effects alone, and those are the command's own. -/
theorem commandsWriteOnlyTheirRegisters : Obligations.CommandsWriteOnlyTheirRegisters := by
  intro i s t ht
  obtain rfl := exec_next i s t ht
  obtain ⟨htables, hmaxlen, hbitcnt, hbb⟩ := resultOf_ownedBy i s.operands
  obtain ⟨err, errcode, errinfo, hregs⟩ := completeStatus_eq
    ((resultOf i s.operands).effects.applyRegs s.regs) (resultOf i s.operands).error
  rw [State.complete_regs, hregs]
  refine ⟨rfl, rfl, fun h => ?_, fun h h' => ?_, fun h h' => ?_, fun h h' h'' hadd => ?_, rfl⟩
  · obtain ⟨hetab, hdtab, hdtcnt⟩ := htables h
    simp [Effects.applyRegs, hetab, hdtab, hdtcnt]
  · simp [Effects.applyRegs, hmaxlen h h']
  · simp [Effects.applyRegs, hbitcnt h h']
  · simp [Effects.applyRegs, hbb h h' h'' hadd]

end Sys2Proof.Machine
end

section
/-! PROOFS. The life of a command: its launch, the step that runs it, and what its completion reports (40_command_model.md R110 to R119). -/

namespace Sys2Proof.Machine

/-! ### Launching (R110, R111) -/

/-- Settles O42: while idle, a write to CMD is a launch. -/
theorem launchIsExact : Obligations.LaunchIsExact := by
  intro s w hb a
  have hlaunch : writeWord w s (.reg .cmd) = s.launch w := by simp [writeWord, hb]
  exact (hostWrite_register .cmd w s).trans (congrArg _ hlaunch)

/-- Settles O43: while busy, CMD drops a write as any other register but CTRL and STATUS does. -/
theorem cmdWhileBusyIsDropped : Obligations.CmdWhileBusyIsDropped := by
  intro s w hb
  have hdrop : writeWord w s (.reg .cmd) = s.dropAccess :=
    writeWord_register_busy hb w (by decide) (by decide)
  exact (hostWrite_register .cmd w s).trans (congrArg _ hdrop)

/-! ### The engine's step (R112, R119) -/

/-- The engine runs the command that the word in flight decodes to. -/
theorem engineStep_of_decode {s : State} {f : InFlight} {i : Instr} (hf : s.inFlight = some f)
    (hd : decode f.cmdword = .ok i) : engineStep s = exec i s := by
  simp only [engineStep, hf, hd]

/-- With no turn listed, a command in flight runs in the next step (R297). -/
theorem step_of_decode {s : State} {f : InFlight} {i : Instr} (hturns : s.turns = [])
    (hf : s.inFlight = some f) (hd : decode f.cmdword = .ok i) : step s = exec i s := by
  rw [step_engine s hturns (Option.isSome_of_eq_some hf), engineStep_of_decode hf hd]

/-- A word placed with all its bits is the word in flight. -/
theorem withFetchWord_inFlight (s : State) (w : Word) :
    (s.withFetchWord 32 w.toNat).inFlight = (s.launch w).inFlight := by
  rw [State.withFetchWord, State.placeCommand_inFlight, Nat.mod_eq_of_lt w.isLt,
    BitVec.ofNat_toNat, BitVec.setWidth_eq]

/-- Settles O5: a command placed by `withFetchWord` is in flight with no turn listed. -/
theorem stepRunsDecodedCommand : Obligations.StepRunsDecodedCommand := by
  refine ⟨fun s f i hf hd => ⟨fun hturns => ?_, fun rest hturns => ?_⟩, fun s w i hd => ?_⟩
  · exact step_of_decode hturns hf hd
  · rw [step_turn s .complete rest hturns]
    exact engineStep_of_decode hf hd
  · exact step_of_decode rfl (withFetchWord_inFlight s w) hd

/-! ### Completion (R112, R113, R116, R117) -/

/-- A completion without error reports 0 and leaves ERR, which the launch cleared (R112). -/
theorem completeStatus_ok (r : Regs) :
    (completeStatus r none).errcode = 0x00 ∧ (completeStatus r none).errinfo = 0 ∧
      (completeStatus r none).err = r.err := ⟨rfl, rfl, rfl⟩

/-- A completion with an error reports its code and information (R113). -/
theorem completeStatus_error (r : Regs) (c : ErrCode) (info : Nat) :
    (completeStatus r (some (c, info))).err = true ∧
      (completeStatus r (some (c, info))).errcode = errNumber c ∧
      (completeStatus r (some (c, info))).errinfo = BitVec.ofNat 32 info := ⟨rfl, rfl, rfl⟩

/-- Settles O40: every command ends by `complete`, whose status is that of its error and whose OUTCNT and writes are those of its effects. -/
theorem completionReportsStatus : Obligations.CompletionReportsStatus := by
  intro i s r
  obtain ⟨err, errcode, errinfo, hstatus⟩ :=
    completeStatus_eq (r.effects.applyRegs s.regs) r.error
  refine ⟨s.complete r, exec_eq i s, ?_, ?_, s.complete_inFlight r, fun hok => ?_,
    fun c info herr => ?_, ?_, s.complete_dmem r⟩
  · rw [State.complete_regs, hstatus]
  · rw [State.complete_regs, hstatus]
  · rw [State.complete_regs, hok]
    exact completeStatus_ok _
  · rw [State.complete_regs, herr]
    exact completeStatus_error _ c info
  · rw [State.complete_regs, hstatus]
    rfl

/-- Settles O32: NOP's is the completion that writes no byte. -/
theorem nopCompletes : Obligations.NopCompletes := fun s =>
  (exec_eq .nop s).trans (congrArg _ (complete_done s []))

end Sys2Proof.Machine
end

section
/-! PROOFS. Words of DMEM after many writes, and after the steps of a sequence (00_scope.md R9; 41_color.md R134; 42_dct.md R154). -/

namespace Sys2Proof.Machine

/-- No write of the list goes to the word at `x`. -/
def missWord (ws : List Host.Cell) (x : Nat) : Prop := ∀ c ∈ ws, c.1 < x ∨ x + 4 ≤ c.1

theorem missWord_stF {a x : Nat} (f : F32) (h : a + 4 ≤ x ∨ x + 4 ≤ a) : missWord (stF a f) x := by
  intro c hc
  have := stF_mem a f c hc
  omega

/-- LdF is unchanged by writes that go elsewhere. -/
theorem Dmem.ldF_setBytes_other (m : Dmem) {ws : List Host.Cell} {x : Nat} (h : missWord ws x) :
    (m.setBytes ws).ldF x = m.ldF x := by
  refine congrArg _ (Dmem.read_congr _ _ x 4 fun i hi => m.byte_setBytes_other ws _ fun c hc => ?_)
  have := h c hc
  omega

/-- A sequence is what one of its steps writes, between the writes of other steps. -/
theorem inSequence_around (step : Nat → Dmem → List Host.Cell) {ks : List Nat} {p : Nat} (m : Dmem)
    (hks : ks.Nodup) (hp : p ∈ ks) :
    ∃ us ws, inSequence step ks m = us ++ (step p (m.setBytes us) ++ ws) ∧
      ∀ c ∈ us ++ ws, ∃ k ∈ ks, k ≠ p ∧ ∃ m', c ∈ step k m' := by
  obtain ⟨before, after, rfl⟩ := List.append_of_mem hp
  have hnot : p ∉ before ++ after := (List.nodup_cons.1 (List.nodup_middle.1 hks)).1
  refine ⟨_, _, inSequence_append step before (p :: after) m, fun c hc => ?_⟩
  have hstep : ∃ k ∈ before ++ after, ∃ m', c ∈ step k m' := by
    rcases List.mem_append.1 hc with hc | hc
    · obtain ⟨k, hk, hmem⟩ := inSequence_mem _ _ _ _ hc
      exact ⟨k, List.mem_append_left _ hk, hmem⟩
    · obtain ⟨k, hk, hmem⟩ := inSequence_mem _ _ _ _ hc
      exact ⟨k, List.mem_append_right _ hk, hmem⟩
  obtain ⟨k, hk, hmem⟩ := hstep
  refine ⟨k, ?_, fun heq => hnot (heq ▸ hk), hmem⟩
  exact (List.mem_append.1 hk).elim (List.mem_append_left _)
    fun h => List.mem_append_right _ (List.mem_cons_of_mem _ h)

/-- The word at `x` reads after a sequence as step `p` stores it, where no other step stores to it or to the words `ys` that step p reads. The writes may be made in another memory `m0` than the one that was read. -/
theorem Dmem.ldF_setBytes_inSequence {step : Nat → Dmem → List Host.Cell} {ks ys : List Nat}
    {p x : Nat} {m : Dmem} {v : F32} (m0 : Dmem) (hks : ks.Nodup) (hp : p ∈ ks)
    (hreads : ∀ m' : Dmem, (∀ y ∈ ys, m'.ldF y = m.ldF y) → step p m' = step p m)
    (hmiss : ∀ k ∈ ks, k ≠ p → ∀ m', ∀ y ∈ x :: ys, missWord (step k m') y)
    (hv : ∀ m' : Dmem, (m'.setBytes (step p m)).ldF x = v) :
    (m0.setBytes (inSequence step ks m)).ldF x = v := by
  obtain ⟨us, ws, hseq, hother⟩ := inSequence_around step m hks hp
  have hmissed : ∀ y ∈ x :: ys, missWord (us ++ ws) y := fun y hy c hc => by
    obtain ⟨k, hk, hne, m', hmem⟩ := hother c hc
    exact hmiss k hk hne m' y hy c hmem
  have hsame : step p (m.setBytes us) = step p m := hreads _ fun y hy =>
    m.ldF_setBytes_other fun c hc =>
      hmissed y (List.mem_cons_of_mem _ hy) c (List.mem_append_left _ hc)
  rw [hseq, hsame, setBytes_append, setBytes_append, ldF_setBytes_other, hv]
  exact fun c hc => hmissed x List.mem_cons_self c (List.mem_append_right _ hc)

/-- Steps that read nothing write one after another. -/
theorem inSequence_const (f : Nat → List Host.Cell) (ks : List Nat) (m : Dmem) :
    inSequence (fun k _ => f k) ks m = ks.flatMap f := by
  induction ks generalizing m with
  | nil => rfl
  | cons k ks ih => rw [inSequence, ih, List.flatMap_cons]

/-- A word stored in a list of words at places apart reads as it was stored. -/
theorem Dmem.ldF_flatMap_stF (m : Dmem) {ks : List Nat} {j : Nat} {addr : Nat → Nat}
    {value : Nat → F32} (hks : ks.Nodup) (hj : j ∈ ks)
    (hapart : ∀ k ∈ ks, k ≠ j → addr k + 4 ≤ addr j ∨ addr j + 4 ≤ addr k) :
    (m.setBytes (ks.flatMap fun k => stF (addr k) (value k))).ldF (addr j) = value j := by
  rw [← inSequence_const _ ks m]
  refine ldF_setBytes_inSequence (ys := []) m hks hj (fun _ _ => rfl) (fun k hk hne _ => ?_)
    fun m' => m'.ldF_stF _ _
  exact List.forall_mem_singleton.2 (missWord_stF _ (hapart k hk hne))

end Sys2Proof.Machine
end

section
/-! PROOFS. How a command that checks and then writes only DMEM ends, by its first failing check (40_command_model.md R112 to R116; 60_exceptions.md R262, R264). -/

namespace Sys2Proof.Machine

/-- A failing check ends the command with its error and no other effect (R115, R264). -/
theorem exec_checked_failed {i : Instr} {s : State} {cs : List Check} {run : Unit → Result}
    {c : ErrCode} {info : Nat} (hi : resultOf i s.operands = checked cs run)
    (h : firstError cs = some (c, info)) : exec i s = .next (s.failedWith c info) := by
  rw [exec_eq, hi, checked_error _ _ _ h, complete_failed]

/-- With every check passed the command writes its bytes and reports no error (R112, R116). -/
theorem exec_checked_done {i : Instr} {s : State} {cs : List Check} {ws : List Host.Cell}
    (hi : resultOf i s.operands = checked cs fun _ => { effects := { writes := ws } })
    (h : firstError cs = none) :
    exec i s = .next (s.doneWith (s.dmem.setBytes ws) ws.length) := by
  rw [exec_eq, hi, checked_ok _ _ h, complete_done]

/-- Span checks with one sub-code fail exactly where one of the spans is out of bounds (R114). -/
theorem firstError_checkSpans (m : Dmem) (addr : Nat → Nat) (len sub : Nat) (ks : List Nat) :
    firstError (ks.map fun k => checkSpan m (addr k) len sub) =
      if ∃ k ∈ ks, inBounds m (addr k) len = false then some (.bounds, sub) else none := by
  induction ks with
  | nil => simp [firstError]
  | cons k ks ih => cases hk : inBounds m (addr k) len <;> simp [firstError, checkSpan, hk, ← ih]

end Sys2Proof.Machine
end

section
/-! PROOFS. The colour-space converter: its coefficients, its checks, and the planes it leaves (41_color.md R130 to R134; 42_dct.md R151, R152). -/

namespace Sys2Proof.Machine

/-! ### Coefficients (R131) -/

/-- Settles O11: the coefficients and scales are finitely many roundings, each computed. -/
theorem constantsAreTheLiteralsRounded : Obligations.ConstantsAreTheLiteralsRounded :=
  ⟨by decide, by decide, fun _ => rfl⟩

/-- Each coefficient is rn32 of the decimal literal it is named after. -/
theorem coefficients_eq_rn32 :
    c16 = rn32 false 16000 1000 ∧ c128 = rn32 false 128000 1000 ∧
    c256 = rn32 false 256000 1000 ∧ c65_738 = rn32 false 65738 1000 ∧
    c129_057 = rn32 false 129057 1000 ∧ c24_064 = rn32 false 24064 1000 ∧
    c37_945 = rn32 false 37945 1000 ∧ c74_494 = rn32 false 74494 1000 ∧
    c112_439 = rn32 false 112439 1000 ∧ c94_154 = rn32 false 94154 1000 ∧
    c18_285 = rn32 false 18285 1000 ∧ c298_082 = rn32 false 298082 1000 ∧
    c408_583 = rn32 false 408583 1000 ∧ c222_921 = rn32 false 222921 1000 ∧
    c100_291 = rn32 false 100291 1000 ∧ c208_120 = rn32 false 208120 1000 ∧
    c135_576 = rn32 false 135576 1000 ∧ c516_412 = rn32 false 516412 1000 ∧
    c276_836 = rn32 false 276836 1000 := by
  simpa using constantsAreTheLiteralsRounded.1

/-! ### Checks (R134, R262) -/

/-- CSC checks, then writes only DMEM. -/
theorem resultOf_csc (fmt : Nat) (a : Arch) :
    resultOf (.csc fmt) a =
      checked (cscChecks fmt a) fun _ => { effects := { writes := cscWrites fmt a } } := rfl

/-- The first check of CSC to fail, in the order of R134. -/
theorem firstError_cscChecks (fmt : Nat) (a : Arch) :
    firstError (cscChecks fmt a) =
      if fmt ≠ 0 ∧ fmt ≠ 1 then some (.invalidFormat, fmt)
      else if a.regs.src.toNat % 4 ≠ 0 then some (.align, 1)
      else if a.regs.dst.toNat % 4 ≠ 0 then some (.align, 2)
      else if a.regs.plane.toNat % 4 ≠ 0 then some (.align, 4)
      else if ∃ k ∈ List.range 3, inBounds a.dmem
          (a.regs.src.toNat + k * a.regs.plane.toNat) (4 * a.regs.count.toNat) = false then
        some (.bounds, 1)
      else if ∃ j ∈ List.range 6, inBounds a.dmem
          (a.regs.dst.toNat + j * a.regs.plane.toNat) (4 * a.regs.count.toNat) = false then
        some (.bounds, 2)
      else none := by
  simp only [cscChecks, checkAlign, List.cons_append, List.nil_append, firstError,
    firstError_append, firstError_checkSpans, componentAddr, Nat.mul_zero, Nat.add_zero,
    decide_eq_true_eq]
  split_ifs <;> rfl

/-- Settles O18: the first failing check is the first condition of the chain that holds. -/
theorem cscErrors : Obligations.CscErrors := by
  intro s fmt
  dsimp only
  have hfail : ∀ c info, firstError (cscChecks fmt s.operands) = some (c, info) →
      exec (.csc fmt) s = .next (s.failedWith c info) :=
    fun _ _ => exec_checked_failed (resultOf_csc fmt _)
  have hdone : firstError (cscChecks fmt s.operands) = none →
      ∃ t, exec (.csc fmt) s = .next t ∧ t.regs.errcode = 0 :=
    fun h => ⟨_, exec_checked_done (resultOf_csc fmt _) h, rfl⟩
  rw [firstError_cscChecks] at hfail hdone
  split_ifs at hfail hdone ⊢
  iterate 6 · exact hfail _ _ rfl
  · exact hdone rfl

/-! ### Pixels (R134) -/

theorem storePixel_length (dst plane p : Nat) (x : Pixel) :
    (storePixel dst plane p x).length = 24 := by
  simp [storePixel, List.length_flatMap]

theorem convertPixel_length (fmt src dst plane p : Nat) (m : Dmem) :
    (convertPixel fmt src dst plane p m).length = 24 := storePixel_length _ _ _ _

theorem cscWrites_length (fmt : Nat) (a : Arch) :
    (cscWrites fmt a).length = 24 * a.regs.count.toNat := by
  rw [cscWrites, inSequence_length _ 24 (convertPixel_length _ _ _ _), List.length_range,
    Nat.mul_comm]

/-- Words of different components or pixels are apart where the planes of `n` pixels do not reach into one another. -/
theorem componentAddr_apart {plane n j k p q : Nat} (base : Nat) (hn : 4 * n ≤ plane) (hp : p < n)
    (hq : q < n) (hne : j ≠ k ∨ p ≠ q) :
    componentAddr base plane j p + 4 ≤ componentAddr base plane k q ∨
      componentAddr base plane k q + 4 ≤ componentAddr base plane j p := by
  unfold componentAddr
  rcases Nat.lt_trichotomy j k with hlt | rfl | hlt
  · have := Nat.mul_le_mul_right plane (Nat.succ_le_of_lt hlt)
    rw [Nat.succ_mul] at this
    omega
  · omega
  · have := Nat.mul_le_mul_right plane (Nat.succ_le_of_lt hlt)
    rw [Nat.succ_mul] at this
    omega

theorem missWord_storePixel {dst plane p x : Nat} (v : Pixel)
    (h : ∀ j < 6, componentAddr dst plane j p + 4 ≤ x ∨ x + 4 ≤ componentAddr dst plane j p) :
    missWord (storePixel dst plane p v) x := by
  intro c hc
  obtain ⟨j, hj, hc⟩ := List.mem_flatMap.1 hc
  exact missWord_stF _ (h j (List.mem_range.1 hj)) c hc

theorem Dmem.ldF_storePixel (m : Dmem) {dst plane p j : Nat} (v : Pixel) (hplane : 4 ≤ plane)
    (hj : j < 6) :
    (m.setBytes (storePixel dst plane p v)).ldF (componentAddr dst plane j p) =
      v.components.getD j fZero := by
  refine m.ldF_flatMap_stF (addr := fun j => componentAddr dst plane j p) List.nodup_range
    (List.mem_range.2 hj) fun k _ hne => ?_
  -- the planes of the one pixel `p`, taken as pixel 0 of planes that begin at it
  have := componentAddr_apart (dst + 4 * p) hplane Nat.zero_lt_one Nat.zero_lt_one (.inl hne)
  simp only [componentAddr] at this ⊢
  omega

/-- A pixel's conversion depends on the memory by the three words it reads. -/
theorem convertPixel_congr {m m' : Dmem} {src plane p : Nat} (fmt dst : Nat)
    (h : ∀ k < 3, m'.ldF (componentAddr src plane k p) = m.ldF (componentAddr src plane k p)) :
    convertPixel fmt src dst plane p m' = convertPixel fmt src dst plane p m := by
  simp only [convertPixel, h 0 (by decide), h 1 (by decide), h 2 (by decide)]

/-- A word of pixel `p` in a source plane is apart from the words that another pixel's conversion stores, in place or where the planes do not overlap. -/
theorem source_apart {src dst plane n k j p q : Nat} (hn : 4 * n ≤ plane) (hp : p < n) (hq : q < n)
    (hne : q ≠ p)
    (hplanes : src = dst ∨ overlap (src + k * plane) (4 * n) (dst + j * plane) (4 * n) = false) :
    componentAddr dst plane j q + 4 ≤ componentAddr src plane k p ∨
      componentAddr src plane k p + 4 ≤ componentAddr dst plane j q := by
  rcases hplanes with rfl | hno
  · exact componentAddr_apart _ hn hq hp (.inr hne)
  · simp only [overlap, Bool.and_eq_false_iff, decide_eq_false_iff_not] at hno
    unfold componentAddr
    omega

/-- Each word of the destination planes holds its pixel's component, computed from the source planes as they were (R134). -/
theorem Dmem.ldF_cscWrites (m : Dmem) {fmt p j : Nat} {a : Arch} :
    let n := a.regs.count.toNat
    let plane := a.regs.plane.toNat
    let src := a.regs.src.toNat
    let dst := a.regs.dst.toNat
    4 * n ≤ plane →
    (src = dst ∨ ∀ k < 3, ∀ j < 6,
      overlap (src + k * plane) (4 * n) (dst + j * plane) (4 * n) = false) →
    p < n → j < 6 →
    (m.setBytes (cscWrites fmt a)).ldF (componentAddr dst plane j p) =
      (pixelOf fmt (a.dmem.ldF (componentAddr src plane 0 p))
        (a.dmem.ldF (componentAddr src plane 1 p))
        (a.dmem.ldF (componentAddr src plane 2 p))).components.getD j fZero := by
  intro n plane src dst hn hplanes hp hj
  refine ldF_setBytes_inSequence (ys := (List.range 3).map fun k => componentAddr src plane k p) m
    List.nodup_range (List.mem_range.2 hp) (fun m' h => ?_) (fun q hq hne m' => ?_)
    fun m' => m'.ldF_storePixel _ (by omega) hj
  · exact convertPixel_congr _ _ fun k hk => h _ (List.mem_map_of_mem (List.mem_range.2 hk))
  · have hq := List.mem_range.1 hq
    refine List.forall_mem_cons.2 ⟨missWord_storePixel _ fun i _ => ?_, ?_⟩
    · exact componentAddr_apart _ hn hq hp (.inr hne)
    · refine List.forall_mem_map.2 fun k hk => missWord_storePixel _ fun i hi => ?_
      exact source_apart hn hp hq hne (hplanes.imp_right fun h => h k (List.mem_range.1 hk) i hi)

/-! ### CSC (R134) -/

/-- Settles O17: the coefficients are the literals rounded, the checks pass, and each pixel is read as it was at the launch. -/
theorem cscCompletes : Obligations.CscCompletes := by
  constructor
  · intro c1 c2 c3
    simp [pixelOf, pixelOfRgb, pixelOfYcc, Pixel.components, fneg, coefficients_eq_rn32]
  · intro s fmt
    dsimp only
    intro hfmt hsrc hdst hplane hin hout
    have hpass : firstError (cscChecks fmt s.operands) = none := by
      rw [firstError_cscChecks, if_neg (by omega), if_neg (not_not.2 hsrc), if_neg (not_not.2 hdst),
        if_neg (not_not.2 hplane), if_neg (by simpa using hin), if_neg (by simpa using hout)]
    refine ⟨_, exec_checked_done (resultOf_csc fmt _) hpass, ?_,
      s.dmem.sameOutside_setBytes fun c hc => cscWrites_mem hc, fun hn hplanes p hp j hj => ?_⟩
    · rw [cscWrites_length]
      rfl
    · simpa only [State.doneWith_dmem, componentAddr, Nat.zero_mul, Nat.one_mul, Nat.add_zero,
        fZero] using s.dmem.ldF_cscWrites hn hplanes hp hj

end Sys2Proof.Machine
end

section
/-! PROOFS. The block kernels of FDCT and IDCT, element by element (42_dct.md R153, R157, R158, R160 to R163). -/

namespace Sys2Proof.Machine

/-! ### Sums (R157, R158) -/

theorem fsum_zero (g : Nat → F32) : fsum 0 g = fZero := by
  simp only [fsum, List.range_zero, List.foldl_nil]

theorem fsum_succ (n : Nat) (g : Nat → F32) : fsum (n + 1) g = fadd (fsum n g) (g n) := by
  simp only [fsum, List.range_succ, List.foldl_append, List.foldl_cons, List.foldl_nil]

theorem fsum_congr {n : Nat} {f g : Nat → F32} (h : ∀ k < n, f k = g k) : fsum n f = fsum n g := by
  induction n with
  | zero => rw [fsum_zero, fsum_zero]
  | succ n ih => rw [fsum_succ, fsum_succ, ih fun k hk => h k (by omega), h n n.lt_succ_self]

/-- A sum goes on from where a shorter one ends, term by term. -/
theorem fsum_add (m n : Nat) (g : Nat → F32) :
    fsum (m + n) g = (List.range n).foldl (fun s j => fadd s (g (m + j))) (fsum m g) := by
  simp only [fsum, List.range_add, List.foldl_append, List.foldl_map]

/-- A double sum is one chain with the first index outermost (R157, R161). -/
theorem fsum2_eq_fsum (n : Nat) (g : Nat → Nat → F32) :
    fsum2 n g = fsum (n * n) fun k => g (k / n) (k % n) := by
  have hrows : ∀ m, (List.range m).foldl
      (fun s i => (List.range n).foldl (fun s j => fadd s (g i j)) s) fZero =
        fsum (m * n) fun k => g (k / n) (k % n) := fun m => by
    induction m with
    | zero => rw [Nat.zero_mul, fsum_zero, List.range_zero, List.foldl_nil]
    | succ m ih =>
      rw [List.range_succ, List.foldl_append, ih, List.foldl_cons,
        List.foldl_nil, Nat.succ_mul, fsum_add]
      refine List.foldl_ext _ _ _ fun s j hj => ?_
      have hj := List.mem_range.1 hj
      rw [Nat.mul_add_mod_of_lt hj, Nat.mul_comm m, Nat.mul_add_div (Nat.zero_lt_of_lt hj),
        Nat.div_eq_of_lt hj, Nat.add_zero]
  exact hrows n

theorem fsum2_congr {n : Nat} {f g : Nat → Nat → F32} (h : ∀ i < n, ∀ j < n, f i j = g i j) :
    fsum2 n f = fsum2 n g := by
  rw [fsum2_eq_fsum, fsum2_eq_fsum]
  refine fsum_congr fun k hk => ?_
  have hn : 0 < n := Nat.pos_of_mul_pos_left (Nat.zero_lt_of_lt hk)
  exact h _ ((Nat.div_lt_iff_lt_mul hn).2 hk) _ (Nat.mod_lt _ hn)

/-! ### Kernels -/

theorem elemAt_cosTable {n x u : Nat} (hx : x < n) (hu : u < n) :
    elemAt (cosTable n) x u = cosEntry n x u := elemAt_matrixOf n _ hx hu

section
variable {n p q : Nat} {f : Matrix32} {x : Nat → Nat → F32} (hp : p < n) (hq : q < n)
  (hx : ∀ i < n, ∀ j < n, elemAt f i j = x i j)
include hp hq hx

theorem elemAt_fwdDirect :
    elemAt (fwdDirect n (cosTable n) f) p q = fmul (fmul (fmul (scaleOf n) (cf p)) (cf q))
      (fsum2 n fun i j => fmul (fmul (x i j) (cosEntry n i p)) (cosEntry n j q)) := by
  rw [fwdDirect, elemAt_matrixOf _ _ hp hq]
  refine congrArg _ (fsum2_congr fun i hi j hj => ?_)
  rw [hx i hi j hj, elemAt_cosTable hi hp, elemAt_cosTable hj hq]

theorem elemAt_fwdSeparable :
    elemAt (fwdSeparable n (cosTable n) f) p q = fmul (fmul (scaleOf n) (cf p))
      (fsum n fun i =>
        fmul (fmul (cf q) (fsum n fun j => fmul (x i j) (cosEntry n j q))) (cosEntry n i p)) := by
  rw [fwdSeparable, fwdColumns, elemAt_matrixOf _ _ hp hq]
  refine congrArg _ (fsum_congr fun i hi => ?_)
  rw [fwdRows, elemAt_matrixOf _ _ hi hq, elemAt_cosTable hi hp]
  refine congrArg (fun s => fmul (fmul _ s) _) (fsum_congr fun j hj => ?_)
  rw [hx i hi j hj, elemAt_cosTable hj hq]

theorem elemAt_invDirect :
    elemAt (invDirect n (cosTable n) f) p q = fmul (scaleOf n)
      (fsum2 n fun u v =>
        fmul (fmul (fmul (fmul (cf u) (cf v)) (x u v)) (cosEntry n p u)) (cosEntry n q v)) := by
  rw [invDirect, elemAt_matrixOf _ _ hp hq]
  refine congrArg _ (fsum2_congr fun u hu v hv => ?_)
  rw [hx u hu v hv, elemAt_cosTable hp hu, elemAt_cosTable hq hv]

theorem elemAt_invSeparable :
    elemAt (invSeparable n (cosTable n) f) p q = fmul (scaleOf n)
      (fsum n fun v =>
        fmul (fmul (cf v) (fsum n fun u => fmul (fmul (cf u) (x u v)) (cosEntry n p u)))
          (cosEntry n q v)) := by
  rw [invSeparable, invRows, elemAt_matrixOf _ _ hp hq]
  refine congrArg _ (fsum_congr fun v hv => ?_)
  rw [invColumns, elemAt_matrixOf _ _ hp hv, elemAt_cosTable hq hv]
  refine congrArg (fun s => fmul (fmul _ s) _) (fsum_congr fun u hu => ?_)
  rw [hx u hu v hv, elemAt_cosTable hp hu]

end

/-- Settles O13: every element of a kernel is its formula over the table's entries, and the level shift changes the samples before it or after it. -/
theorem kernelElementsAreTheFormulas : Obligations.KernelElementsAreTheFormulas := by
  refine ⟨fun g => ⟨fsum_zero g, fun n => fsum_succ n g⟩, fsum2_eq_fsum, ?_⟩
  intro n f bias p q hp hq
  dsimp only
  have hself : ∀ i < n, ∀ j < n, elemAt f i j = elemAt f i j := fun _ _ _ _ => rfl
  have hshift : ∀ i < n, ∀ j < n,
      elemAt (matrixOf n fun i j => fsub (elemAt f i j) bias) i j = fsub (elemAt f i j) bias :=
    fun _ hi _ hj => elemAt_matrixOf n _ hi hj
  refine ⟨elemAt_fwdDirect hp hq hself, elemAt_fwdSeparable hp hq hself,
    elemAt_invDirect hp hq hself, elemAt_invSeparable hp hq hself,
    elemAt_fwdDirect hp hq hshift, elemAt_fwdSeparable hp hq hshift, ?_, ?_⟩
  · exact (elemAt_matrixOf n _ hp hq).trans
      (congrArg (fadd · bias) (elemAt_invDirect hp hq hself))
  · exact (elemAt_matrixOf n _ hp hq).trans
      (congrArg (fadd · bias) (elemAt_invSeparable hp hq hself))

end Sys2Proof.Machine
end

section
/-! PROOFS. The transforms of a plane, FDCT and IDCT: their checks, and the blocks that they leave (42_dct.md R154 to R156, R160, R163, R164). -/

namespace Sys2Proof.Machine

/-! ### Checks (R156, R160, R163, R262) -/

/-- CheckBlocks reports its first failing condition, and otherwise the checks after it decide (R156). -/
theorem firstError_checkBlocks_append (r : Regs) (cs : List Check) :
    firstError (checkBlocks r ++ cs) =
      if r.blkn.toNat = 0 ∨ 16 < r.blkn.toNat then some (.precondition, 1)
      else if r.width.toNat % r.blkn.toNat ≠ 0 then some (.precondition, 2)
      else if r.height.toNat % r.blkn.toNat ≠ 0 then some (.precondition, 3)
      else firstError cs := by
  simp only [checkBlocks, List.cons_append, List.nil_append, firstError,
    Bool.or_eq_true, decide_eq_true_eq]
  rfl

/-- The first check of a transform to fail, in the order of R160 and R163. -/
theorem firstError_transformChecks (a : Arch) :
    firstError (transformChecks a) =
      if a.regs.blkn.toNat = 0 ∨ 16 < a.regs.blkn.toNat then some (.precondition, 1)
      else if a.regs.width.toNat % a.regs.blkn.toNat ≠ 0 then some (.precondition, 2)
      else if a.regs.height.toNat % a.regs.blkn.toNat ≠ 0 then some (.precondition, 3)
      else if a.regs.src.toNat % 4 ≠ 0 then some (.align, 1)
      else if a.regs.dst.toNat % 4 ≠ 0 then some (.align, 2)
      else if inBounds a.dmem a.regs.src.toNat
          (4 * a.regs.width.toNat * a.regs.height.toNat) = false then some (.bounds, 1)
      else if inBounds a.dmem a.regs.dst.toNat
          (4 * a.regs.width.toNat * a.regs.height.toNat) = false then some (.bounds, 2)
      else none := by
  simp only [transformChecks, firstError_checkBlocks_append, checkAlign, checkSpan, firstError,
    decide_eq_true_eq, Bool.not_eq_true']

/-- The operands pass every check of a transform (R156, R160, R163). -/
def Arch.LegalPlanes (a : Arch) : Prop :=
  (1 ≤ a.regs.blkn.toNat ∧ a.regs.blkn.toNat ≤ 16) ∧
    a.regs.width.toNat % a.regs.blkn.toNat = 0 ∧ a.regs.height.toNat % a.regs.blkn.toNat = 0 ∧
    a.regs.src.toNat % 4 = 0 ∧ a.regs.dst.toNat % 4 = 0 ∧
    inBounds a.dmem a.regs.src.toNat (4 * a.regs.width.toNat * a.regs.height.toNat) = true ∧
    inBounds a.dmem a.regs.dst.toNat (4 * a.regs.width.toNat * a.regs.height.toNat) = true

theorem firstError_transformChecks_eq_none_iff (a : Arch) :
    firstError (transformChecks a) = none ↔ a.LegalPlanes := by
  rw [firstError_transformChecks, Arch.LegalPlanes,
    show (1 ≤ a.regs.blkn.toNat ∧ a.regs.blkn.toNat ≤ 16) ↔
      ¬(a.regs.blkn.toNat = 0 ∨ 16 < a.regs.blkn.toNat) by omega]
  split_ifs <;> simp_all

/-- FDCT checks, then writes only DMEM (R160). -/
theorem resultOf_fdct (sep : Bool) (a : Arch) :
    resultOf (.fdct sep) a = checked (transformChecks a) fun _ =>
      { effects :=
        { writes := transformWrites (forwardBlock a.regs.blkn.toNat sep a.regs.bias) a } } := rfl

/-- IDCT checks, then writes only DMEM (R163). -/
theorem resultOf_idct (sep : Bool) (a : Arch) :
    resultOf (.idct sep) a = checked (transformChecks a) fun _ =>
      { effects :=
        { writes := transformWrites (inverseBlock a.regs.blkn.toNat sep a.regs.bias) a } } := rfl

/-- FDCT and IDCT differ only in their block transform. -/
theorem resultOf_transform {i : Instr} {sep : Bool} (hi : i = .fdct sep ∨ i = .idct sep)
    (a : Arch) : ∃ f, resultOf i a =
      checked (transformChecks a) fun _ => { effects := { writes := transformWrites f a } } := by
  rcases hi with rfl | rfl
  · exact ⟨_, resultOf_fdct sep a⟩
  · exact ⟨_, resultOf_idct sep a⟩

/-- Settles O16: the first failing check is the first condition of the chain that holds. -/
theorem transformErrors : Obligations.TransformErrors := by
  intro s sep i hi
  dsimp only
  obtain ⟨f, hf⟩ := resultOf_transform hi s.operands
  have hfail : ∀ c info, firstError (transformChecks s.operands) = some (c, info) →
      exec i s = .next (s.failedWith c info) := fun _ _ => exec_checked_failed hf
  have hdone : firstError (transformChecks s.operands) = none →
      ∃ t, exec i s = .next t ∧ t.regs.errcode = 0 := fun h => ⟨_, exec_checked_done hf h, rfl⟩
  rw [firstError_transformChecks] at hfail hdone
  split_ifs at hfail hdone ⊢
  iterate 7 · exact hfail _ _ rfl
  · exact hdone rfl

/-! ### Blocks of a plane (R154, R155) -/

theorem matrixOf_congr {n : Nat} {f g : Nat → Nat → F32}
    (h : ∀ i < n, ∀ j < n, f i j = g i j) : matrixOf n f = matrixOf n g :=
  List.map_congr_left fun i hi => List.map_congr_left fun j hj =>
    h i (List.mem_range.1 hi) j (List.mem_range.1 hj)

theorem blockLoad_congr {m m' : Dmem} {p w n br bc : Nat}
    (h : ∀ i < n, ∀ j < n, m'.ldF (blockAddr p w n br bc i j) = m.ldF (blockAddr p w n br bc i j)) :
    blockLoad m' p w n br bc = blockLoad m p w n br bc := matrixOf_congr h

/-- Different samples of a plane are different words (R14). -/
theorem sampleAddr_apart {w r c r' c' : Nat} (p : Nat) (hc : c < w) (hc' : c' < w)
    (hne : r ≠ r' ∨ c ≠ c') :
    sampleAddr p w r c + 4 ≤ sampleAddr p w r' c' ∨
      sampleAddr p w r' c' + 4 ≤ sampleAddr p w r c := by
  unfold sampleAddr
  rcases Nat.lt_trichotomy r r' with hlt | rfl | hlt
  · have := Nat.mul_le_mul_right w (Nat.succ_le_of_lt hlt)
    rw [Nat.succ_mul] at this
    omega
  · omega
  · have := Nat.mul_le_mul_right w (Nat.succ_le_of_lt hlt)
    rw [Nat.succ_mul] at this
    omega

/-- A row or column of the plane determines the block it is in and its place there. -/
theorem mul_add_inj {n q i q' i' : Nat} (hi : i < n) (hi' : i' < n)
    (h : q * n + i = q' * n + i') : q = q' ∧ i = i' := by
  have hq := congrArg (· / n) h
  have hr := congrArg (· % n) h
  simpa [Nat.mul_comm _ n, Nat.mul_add_div (Nat.zero_lt_of_lt hi), Nat.div_eq_of_lt,
    Nat.mod_eq_of_lt, hi, hi'] using And.intro hq hr

section
variable {w h n br bc i j br' bc' i' j' : Nat} (hw : n ∣ w) (hbc : bc < w / n)
  (hbc' : bc' < w / n) (hi : i < n) (hj : j < n) (hi' : i' < n) (hj' : j' < n)
include hw hbc hbc' hi hj hi' hj'

/-- Different elements of the blocks of a plane are different words. -/
theorem blockAddr_apart (p : Nat) (hne : ¬((br = br' ∧ i = i') ∧ bc = bc' ∧ j = j')) :
    blockAddr p w n br bc i j + 4 ≤ blockAddr p w n br' bc' i' j' ∨
      blockAddr p w n br' bc' i' j' + 4 ≤ blockAddr p w n br bc i j := by
  refine sampleAddr_apart p (mul_add_lt_of_dvd hw hbc hj) (mul_add_lt_of_dvd hw hbc' hj') ?_
  by_contra! hsame
  exact hne ⟨mul_add_inj hi hi' hsame.1, mul_add_inj hj hj' hsame.2⟩

/-- The elements of a source block are apart from those of another destination block, in place or where the planes do not overlap (R154). -/
theorem sourceBlock_apart {src dst : Nat} (hh : n ∣ h) (hbr : br < h / n) (hbr' : br' < h / n)
    (hplanes : src = dst ∨ overlap src (4 * w * h) dst (4 * w * h) = false)
    (hne : ¬(br = br' ∧ bc = bc')) :
    blockAddr dst w n br bc i j + 4 ≤ blockAddr src w n br' bc' i' j' ∨
      blockAddr src w n br' bc' i' j' + 4 ≤ blockAddr dst w n br bc i j := by
  rcases hplanes with rfl | hno
  · exact blockAddr_apart hw hbc hbc' hi hj hi' hj' src fun hsame => hne ⟨hsame.1.1, hsame.2.1⟩
  · have hd := sampleAddr_lt (p := dst) (mul_add_lt_of_dvd hh hbr hi) (mul_add_lt_of_dvd hw hbc hj)
    have hs := sampleAddr_lt (p := src) (mul_add_lt_of_dvd hh hbr' hi')
      (mul_add_lt_of_dvd hw hbc' hj')
    simp only [overlap, Bool.and_eq_false_iff, decide_eq_false_iff_not] at hno
    unfold blockAddr
    omega

end

theorem missWord_blockStore {p w n br bc y : Nat} (x : Matrix32)
    (h : ∀ i < n, ∀ j < n,
      blockAddr p w n br bc i j + 4 ≤ y ∨ y + 4 ≤ blockAddr p w n br bc i j) :
    missWord (blockStore p w n br bc x) y := by
  intro c hc
  obtain ⟨i, hi, hc⟩ := List.mem_flatMap.1 hc
  obtain ⟨j, hj, hc⟩ := List.mem_flatMap.1 hc
  exact missWord_stF _ (h i (List.mem_range.1 hi) j (List.mem_range.1 hj)) c hc

/-- A stored block reads as it was stored (R155). -/
theorem Dmem.ldF_blockStore (m : Dmem) {p w n br bc i j : Nat} (x : Matrix32) (hw : n ∣ w)
    (hbc : bc < w / n) (hi : i < n) (hj : j < n) :
    (m.setBytes (blockStore p w n br bc x)).ldF (blockAddr p w n br bc i j) = elemAt x i j := by
  rw [blockStore, ← inSequence_const _ _ m]
  refine ldF_setBytes_inSequence (ys := []) m List.nodup_range (List.mem_range.2 hi)
    (fun _ _ => rfl) (fun i' hi' hne _ => List.forall_mem_singleton.2 fun c hc => ?_) fun m' =>
    m'.ldF_flatMap_stF (addr := fun j => blockAddr p w n br bc i j) List.nodup_range
      (List.mem_range.2 hj) fun j' hj' hne => ?_
  · obtain ⟨j', hj', hc⟩ := List.mem_flatMap.1 hc
    exact missWord_stF _ (blockAddr_apart hw hbc hbc (List.mem_range.1 hi') (List.mem_range.1 hj')
      hi hj p fun hsame => hne hsame.1.2) c hc
  · exact blockAddr_apart hw hbc hbc hi (List.mem_range.1 hj') hi hj p fun hsame => hne hsame.2.2

/-! ### The plane (R154) -/

/-- Which number a block has in raster order (R154). -/
theorem block_eq_iff {w n br bc k : Nat} (hbc : bc < w / n) :
    k / (w / n) = br ∧ k % (w / n) = bc ↔ k = br * (w / n) + bc := by
  rw [Nat.mul_comm br]
  constructor
  · rintro ⟨rfl, rfl⟩
    exact (Nat.div_add_mod k _).symm
  · rintro rfl
    simp [Nat.mul_add_div (Nat.zero_lt_of_lt hbc), Nat.div_eq_of_lt hbc, Nat.mod_eq_of_lt hbc]

/-- Each block of a plane has a number below the number of blocks (R154). -/
theorem exists_block {w h n br bc : Nat} (hbr : br < h / n) (hbc : bc < w / n) :
    ∃ p < blockCount w h n, ∀ k, k / (w / n) = br ∧ k % (w / n) = bc ↔ k = p :=
  ⟨_, mul_add_lt_of_dvd (Nat.dvd_mul_left _ (h / n))
    (by rwa [blockCount, Nat.mul_div_cancel _ (Nat.zero_lt_of_lt hbc)]) hbc, fun _ => block_eq_iff hbc⟩

/-- A transform writes each word of the destination plane once. -/
theorem transformWrites_length (f : Matrix32 → Matrix32) {a : Arch}
    (hw : a.regs.blkn.toNat ∣ a.regs.width.toNat) (hh : a.regs.blkn.toNat ∣ a.regs.height.toNat) :
    (transformWrites f a).length = 4 * a.regs.width.toNat * a.regs.height.toNat := by
  rw [transformWrites, eachBlock,
    inSequence_length _ _ (fun _ _ => blockStore_length _ _ _ _ _ _), List.length_range, blockCount]
  generalize a.regs.blkn.toNat = n at *
  calc _ = 4 * (a.regs.width.toNat / n * n) * (a.regs.height.toNat / n * n) := by ring
    _ = _ := by rw [Nat.div_mul_cancel hw, Nat.div_mul_cancel hh]

/-- Each block of the destination plane is the transform of the source's block as it was at first, whatever memory the writes are made in (R154, R160, R163). -/
theorem Dmem.ldF_eachBlock (m0 m : Dmem) (f : Matrix32 → Matrix32)
    {w h n src dst br bc u v : Nat} (hw : n ∣ w) (hh : n ∣ h)
    (hplanes : src = dst ∨ overlap src (4 * w * h) dst (4 * w * h) = false)
    (hbr : br < h / n) (hbc : bc < w / n) (hu : u < n) (hv : v < n) :
    (m0.setBytes (eachBlock w h n
      (fun _ br bc m => blockStore dst w n br bc (f (blockLoad m src w n br bc))) m)).ldF
        (blockAddr dst w n br bc u v) = elemAt (f (blockLoad m src w n br bc)) u v := by
  obtain ⟨p, hp, hblock⟩ := exists_block hbr hbc
  obtain ⟨rfl, rfl⟩ := (hblock p).2 rfl
  refine ldF_setBytes_inSequence (p := p) (ys := (List.range n).flatMap fun i =>
      (List.range n).map fun j => blockAddr src w n (p / (w / n)) (p % (w / n)) i j)
    m0 List.nodup_range (List.mem_range.2 hp) (fun m' hm' => ?_) (fun k hk hne m' => ?_)
    fun m' => m'.ldF_blockStore _ hw hbc hu hv
  · refine congrArg (fun x => blockStore _ _ _ _ _ (f x)) (blockLoad_congr fun i hi j hj => hm' _ ?_)
    exact List.mem_flatMap.2 ⟨i, List.mem_range.2 hi,
      List.mem_map.2 ⟨j, List.mem_range.2 hj, rfl⟩⟩
  · obtain ⟨hbr', hbc'⟩ := block_lt (List.mem_range.1 hk)
    have hother := mt (hblock k).1 hne
    refine List.forall_mem_cons.2 ⟨missWord_blockStore _ fun i hi j hj => ?_, fun y hy => ?_⟩
    · exact sourceBlock_apart hw hbc' hbc hi hj hu hv hh hbr' hbr (.inl rfl) hother
    · obtain ⟨i', hi', hy⟩ := List.mem_flatMap.1 hy
      obtain ⟨j', hj', rfl⟩ := List.mem_map.1 hy
      exact missWord_blockStore _ fun i hi j hj => sourceBlock_apart hw hbc' hbc hi hj
        (List.mem_range.1 hi') (List.mem_range.1 hj') hh hbr' hbr hplanes hother

/-- A transform of legal planes completes with the transform of every block. -/
theorem transform_completes {i : Instr} {s : State} {f : Matrix32 → Matrix32}
    (hf : resultOf i s.operands =
      checked (transformChecks s.operands) fun _ =>
        { effects := { writes := transformWrites f s.operands } })
    (hlegal : s.operands.LegalPlanes) :
    let a := s.operands
    let n := a.regs.blkn.toNat
    let w := a.regs.width.toNat
    let h := a.regs.height.toNat
    let src := a.regs.src.toNat
    let dst := a.regs.dst.toNat
    ∃ t, exec i s = .next t ∧ t = s.doneWith t.dmem (4 * w * h) ∧
      s.dmem.sameOutside t.dmem [(dst, 4 * w * h)] ∧
      (src = dst ∨ overlap src (4 * w * h) dst (4 * w * h) = false →
        ∀ br bc u v : Nat, br < h / n → bc < w / n → u < n → v < n →
          t.dmem.ldF (blockAddr dst w n br bc u v) =
            elemAt (f (blockLoad a.dmem src w n br bc)) u v) := by
  have hpass := (firstError_transformChecks_eq_none_iff _).2 hlegal
  obtain ⟨-, hw, hh, -⟩ := hlegal
  have hw := Nat.dvd_of_mod_eq_zero hw
  have hh := Nat.dvd_of_mod_eq_zero hh
  refine ⟨_, exec_checked_done hf hpass, ?_, s.dmem.sameOutside_setBytes fun c hc =>
    transformWrites_mem hw hh hc, fun hplanes br bc u v => s.dmem.ldF_eachBlock _ f hw hh hplanes⟩
  rw [transformWrites_length f hw hh]
  rfl

/-- Settles O14: the blocks are apart, so each is read as it was at the launch. -/
theorem fdctCompletes : Obligations.FdctCompletes := by
  intro s sep a n w h src dst hn hn' hw hh hsrc hdst hin hout
  exact transform_completes (resultOf_fdct sep _) ⟨⟨hn, hn'⟩, hw, hh, hsrc, hdst, hin, hout⟩

/-! ### FDCT and then IDCT (R164) -/

theorem errNumber_ne_zero (c : ErrCode) : errNumber c ≠ 0 := by cases c <;> decide

/-- A command that reports no error passed its checks (R113, R115). -/
theorem firstError_eq_none_of_errcode {i : Instr} {s t : State} {cs : List Check}
    {run : Unit → Result} (hi : resultOf i s.operands = checked cs run) (ht : exec i s = .next t)
    (herr : t.regs.errcode = 0) : firstError cs = none := by
  cases hc : firstError cs with
  | none => rfl
  | some e =>
    rw [exec_checked_failed hi hc] at ht
    obtain rfl := Host.Outcome.next.inj ht
    exact absurd herr (errNumber_ne_zero e.1)

theorem matrixOf_elemAt_forwardBlock (n : Nat) (sep : Bool) (bias : F32) (b : Matrix32) :
    matrixOf n (elemAt (forwardBlock n sep bias b)) = forwardBlock n sep bias b := by
  have hmatrix : ∀ f, matrixOf n (elemAt (matrixOf n f)) = matrixOf n f := fun f =>
    matrixOf_congr fun _ hi _ hj => elemAt_matrixOf n f hi hj
  cases sep
  · exact hmatrix _
  · exact hmatrix _

/-- Settles O15: IDCT transforms the blocks as they were at its launch, and after FDCT those are the blocks that FDCT left. -/
theorem idctCompletes : Obligations.IdctCompletes := by
  constructor
  · intro s sep a n w h src dst hn hn' hw hh hsrc hdst hin hout
    exact transform_completes (resultOf_idct sep _) ⟨⟨hn, hn'⟩, hw, hh, hsrc, hdst, hin, hout⟩
  · intro s t u sepF sepI
    dsimp only
    intro ht herr hblkn hwidth hheight hbias hsrc hdmem hdst hin hout hplanes hplanes'
    have hlegal : s.operands.LegalPlanes := (firstError_transformChecks_eq_none_iff _).1
      (firstError_eq_none_of_errcode (resultOf_fdct sepF _) ht herr)
    obtain ⟨t', ht', -, -, hmid⟩ := transform_completes (resultOf_fdct sepF _) hlegal
    obtain rfl : t' = t := Host.Outcome.next.inj (ht'.symm.trans ht)
    obtain ⟨hn, hw, hh, -, hmid4, -, -⟩ := hlegal
    have hlegal' : u.operands.LegalPlanes := by
      unfold Arch.LegalPlanes
      rw [hblkn, hwidth, hheight, hsrc]
      exact ⟨hn, hw, hh, hmid4, hdst, hin, hout⟩
    obtain ⟨v, hv, hdone, -, hblocks⟩ := transform_completes (resultOf_idct sepI _) hlegal'
    refine ⟨v, hv, by rw [hdone]; rfl, fun br bc i j hbr hbc hi hj => ?_⟩
    simp only [hblkn, hwidth, hheight, hsrc, hbias, hdmem] at hblocks
    rw [hblocks hplanes' br bc i j hbr hbc hi hj, roundTripBlock, ← matrixOf_elemAt_forwardBlock]
    exact congrArg (fun b => elemAt (inverseBlock _ _ _ b) i j)
      (matrixOf_congr fun i hi j hj => hmid hplanes br bc i j hbr hbc hi hj)

end Sys2Proof.Machine
end

section
/-! PROOFS. The cosine table is the nearest to the real cosine: an entry of the first quadrant is a Taylor polynomial's value rounded, from a little below it and from a little above, and every other angle is one of the first quadrant up to the sign (42_dct.md R150). -/

namespace Sys2Proof.Machine

/-! ### Nearest values -/

/-- The finite binary32 `r` is nearest to the real number `x` (R11). -/
def IsNearest (r : F32) (x : ℝ) : Prop :=
  isFinite r = true ∧ ∀ g : F32, isFinite g = true →
    |(fToUnits r : ℝ) / 2 ^ 149 - x| ≤ |(fToUnits g : ℝ) / 2 ^ 149 - x|

theorem isNearest_zero : IsNearest 0x00000000 0 := by
  refine ⟨by decide, fun g _ => ?_⟩
  rw [fToUnits_eq_zero_iff.2 (by decide), Int.cast_zero, zero_div, sub_zero, abs_zero]
  exact abs_nonneg _

theorem IsNearest.neg {r : F32} {x : ℝ} (h : IsNearest r x) : IsNearest (fneg r) (-x) := by
  refine ⟨by simpa using h.1, fun g hg => ?_⟩
  have hle := h.2 (fneg g) (by simpa using hg)
  rw [fToUnits_fneg] at hle ⊢
  push_cast at hle ⊢
  rw [← abs_neg, ← abs_neg (_ / _ - _)]
  convert hle using 2 <;> ring

/-- What is nearest to both ends of an interval is nearest to all of it: the numbers that are as near to one value as to another are a half-line. -/
theorem IsNearest.between {r : F32} {lo x hi : ℝ} (hlo : IsNearest r lo) (hhi : IsNearest r hi)
    (hle : lo ≤ x) (hle' : x ≤ hi) : IsNearest r x := by
  refine ⟨hlo.1, fun g hg => ?_⟩
  have h := hlo.2 g hg
  have h' := hhi.2 g hg
  generalize (fToUnits r : ℝ) / 2 ^ 149 = v at *
  generalize (fToUnits g : ℝ) / 2 ^ 149 = w at *
  rw [← sq_le_sq] at *
  rcases le_total v w with hvw | hvw
  · nlinarith
  · nlinarith

/-- A correctly rounded finite value is nearest. -/
theorem IsNearest.of_isRounded {r : F32} {n : Int} {d : Nat} (hd : 0 < d) (hr : isRounded r n d)
    (hfin : isFinite r = true) : IsNearest r (n / d / 2 ^ 149) := by
  rcases hr with ⟨hinf, -⟩ | ⟨-, -, hbest⟩
  · rw [isInf_of_isFinite hfin] at hinf
    contradiction
  · have herror : ∀ c : F32, |(fToUnits c : ℝ) / 2 ^ 149 - n / d / 2 ^ 149| =
        ((fToUnits c * d - n).natAbs : ℝ) / d / 2 ^ 149 := fun c => by
      have hpos : (0 : ℝ) < d := Nat.cast_pos.2 hd
      rw [← sub_div, abs_div, abs_of_pos (a := (2 : ℝ) ^ 149) (by positivity), Nat.cast_natAbs,
        Int.cast_abs, ← abs_of_pos hpos, ← abs_div, abs_of_pos hpos]
      push_cast
      rw [sub_div, mul_div_cancel_right₀ _ hpos.ne']
    refine ⟨hfin, fun g hg => ?_⟩
    rw [herror, herror]
    have := (hbest g hg).1
    gcongr

/-- The binary32 of a rational number that is not negative (R11). -/
def rnRat (q : ℚ) : F32 := rn32 false q.num.toNat q.den

theorem isNearest_rnRat {q : ℚ} (hq : 0 ≤ q) (hfin : isFinite (rnRat q) = true) :
    IsNearest (rnRat q) q := by
  have hr : isRounded (rnRat q) (q.num.toNat * 2 ^ 149 : Nat) q.den :=
    isRounded_roundMag false (q.num.toNat * 2 ^ 149 : Nat) q.den_pos (by simp)
  have hnum : (q.num.toNat : ℝ) = q.num :=
    mod_cast congrArg (Int.cast (R := ℝ)) (Int.toNat_of_nonneg (Rat.num_nonneg.2 hq))
  convert IsNearest.of_isRounded q.den_pos hr hfin using 1
  rw [Int.cast_natCast, Nat.cast_mul, hnum, Nat.cast_pow, Nat.cast_ofNat, mul_div_right_comm,
    mul_div_cancel_right₀ _ (by positivity), ← Rat.cast_def]

/-! ### The cosine of the first quadrant -/

/-- The Taylor polynomial of the cosine, with `m` terms. -/
def cosTaylor (x : ℚ) : Nat → ℚ
  | 0 => 0
  | m + 1 => cosTaylor x m + (-1) ^ m * x ^ (2 * m) / (2 * m).factorial

/-- It is the real part of the exponential's, at x·i. -/
theorem re_exp_taylor (x : ℚ) (m : Nat) :
    (∑ j ∈ Finset.range (2 * m), (((x : ℝ) : ℂ) * Complex.I) ^ j / j.factorial).re =
      cosTaylor x m := by
  induction m with
  | zero => simp [cosTaylor]
  | succ m ih =>
    have hpow : (((x : ℝ) : ℂ) * Complex.I) ^ (2 * m) = (((-1) ^ m * x ^ (2 * m) : ℝ) : ℂ) := by
      rw [mul_pow, pow_mul Complex.I, Complex.I_sq]
      push_cast
      ring
    rw [Nat.mul_succ, Finset.sum_range_succ, Finset.sum_range_succ, Complex.add_re, Complex.add_re,
      ih, cosTaylor, pow_succ, hpow, Complex.div_natCast_re, Complex.div_natCast_re,
      Complex.re_ofReal_mul, Complex.ofReal_re]
    simp

theorem abs_cos_sub_cosTaylor_le (x : ℚ) (m : Nat) (hx : |(x : ℝ)| ≤ m) :
    |Real.cos x - cosTaylor x m| ≤ |(x : ℝ)| ^ (2 * m) / (2 * m).factorial * 2 := by
  have hnorm : ‖((x : ℝ) : ℂ) * Complex.I‖ = |(x : ℝ)| := by simp
  have hbound := Complex.exp_bound' (x := ((x : ℝ) : ℂ) * Complex.I) (n := 2 * m) (by
    rw [hnorm, div_le_iff₀ (by positivity)]
    push_cast
    linarith)
  rw [hnorm] at hbound
  refine le_trans ?_ hbound
  rw [← re_exp_taylor, ← Complex.exp_ofReal_mul_I_re, ← Complex.sub_re]
  exact Complex.abs_re_le_norm _

/-- π to 20 decimals. -/
def piApprox : ℚ := 3.14159265358979323846

/-- The cosine of k·π / (2n), by the Taylor polynomial with 12 terms at the approximate angle. -/
def cosApprox (n k : Nat) : ℚ := cosTaylor (k * piApprox / (2 * n)) 12

/-- A bound on how far `cosApprox` is from the cosine: below the distance of every cosine of the table from the nearest midpoint of two binary32 values. -/
def cosError : ℚ := 1 / 10 ^ 16

/-- The angle is moved by less than 10^-20 and the Taylor series cut after x^22, where x is at most 2. -/
theorem abs_cos_sub_cosApprox_le {n k : Nat} (hk : k ≤ n) :
    |Real.cos (k * Real.pi / (2 * n)) - cosApprox n k| ≤ cosError := by
  have hfrac : (k : ℝ) / (2 * n) ≤ 1 / 2 := by
    have : (k : ℝ) ≤ n := mod_cast hk
    exact div_le_of_le_mul₀ (by positivity) (by norm_num) (by linarith)
  have hangle : ((k * piApprox / (2 * n) : ℚ) : ℝ) = (k : ℝ) / (2 * n) * piApprox := by
    push_cast
    ring
  have hmoved : |k * Real.pi / (2 * n) - ((k * piApprox / (2 * n) : ℚ) : ℝ)| ≤ 1 / 10 ^ 20 := by
    rw [hangle, mul_div_right_comm, ← mul_sub, abs_mul, abs_of_nonneg (by positivity)]
    have := Real.pi_gt_d20
    have := Real.pi_lt_d20
    have hpi : |Real.pi - piApprox| ≤ 1 / 10 ^ 20 := by
      rw [piApprox, abs_le]
      push_cast
      constructor <;> linarith
    nlinarith [abs_nonneg (Real.pi - piApprox)]
  have hsmall : |((k * piApprox / (2 * n) : ℚ) : ℝ)| ≤ 2 := by
    rw [hangle, piApprox, abs_of_nonneg (by positivity)]
    push_cast
    linarith
  have hcos := Real.abs_cos_sub_cos_le (k * Real.pi / (2 * n)) (k * piApprox / (2 * n) : ℚ)
  have htaylor := abs_cos_sub_cosTaylor_le (k * piApprox / (2 * n)) 12
    (hsmall.trans (by norm_num))
  calc _ ≤ _ := abs_sub_le _ (Real.cos (k * piApprox / (2 * n) : ℚ)) _
    _ ≤ 1 / 10 ^ 20 + 2 ^ (2 * 12) / (2 * 12).factorial * 2 :=
      add_le_add (hcos.trans hmoved) (htaylor.trans (by gcongr))
    _ ≤ cosError := by norm_num [cosError, Nat.factorial]

/-- An entry of the first quadrant is the binary32 of numbers on both sides of its cosine. -/
theorem cosQuarter_eq_rnRat : ∀ n < 17, ∀ k < n,
    0 ≤ cosApprox n k - cosError ∧ isFinite ((cosQuarter n).getD k fZero) = true ∧
      rnRat (cosApprox n k - cosError) = (cosQuarter n).getD k fZero ∧
      rnRat (cosApprox n k + cosError) = (cosQuarter n).getD k fZero := by
  decide +kernel

/-- The quadrant ends at an exact zero, +0.0 in the table. -/
theorem cosQuarter_last : ∀ n < 17, (cosQuarter n).getD n fZero = 0x00000000 := by decide

/-- Each entry of the first quadrant is nearest to its cosine (R150). -/
theorem isNearest_cosQuarter {n k : Nat} (hn : 1 ≤ n) (hn' : n ≤ 16) (hk : k ≤ n) :
    IsNearest ((cosQuarter n).getD k fZero) (Real.cos (k * Real.pi / (2 * n))) := by
  rcases hk.eq_or_lt with rfl | hk
  · rw [cosQuarter_last k (by omega), show (k : ℝ) * Real.pi / (2 * k) = Real.pi / 2 by field_simp,
      Real.cos_pi_div_two]
    exact isNearest_zero
  · obtain ⟨hpos, hfin, hlo, hhi⟩ := cosQuarter_eq_rnRat n (by omega) k hk
    have herror := abs_le.1 (abs_cos_sub_cosApprox_le hk.le)
    have hpos' : 0 ≤ cosApprox n k + cosError := by
      have : (0 : ℚ) ≤ cosError := by norm_num [cosError]
      linarith
    have hlo := hlo ▸ isNearest_rnRat hpos (hlo ▸ hfin)
    have hhi := hhi ▸ isNearest_rnRat hpos' (hhi ▸ hfin)
    push_cast at hlo hhi
    exact hlo.between hhi (by linarith) (by linarith)

/-! ### The other quadrants -/

/-- The cosine of k·π / (2n). -/
noncomputable def cosAngle (n k : Nat) : ℝ := Real.cos (k * Real.pi / (2 * n))

section
variable {n : Nat} (hn : 1 ≤ n)
include hn

/-- The cosine repeats after a whole turn. -/
theorem cosAngle_mod (k : Nat) : cosAngle n (k % (4 * n)) = cosAngle n k := by
  conv_rhs => rw [← Nat.div_add_mod k (4 * n)]
  rw [cosAngle, ← Real.cos_add_nat_mul_two_pi _ (k / (4 * n)), cosAngle]
  congr 1
  push_cast
  field_simp
  ring

/-- Half a turn on, the cosine changes its sign. -/
theorem cosAngle_half_add (j : Nat) : cosAngle n (2 * n + j) = -cosAngle n j := by
  rw [cosAngle, cosAngle, ← Real.cos_add_pi]
  congr 1
  push_cast
  field_simp
  ring

/-- Angles that add up to half a turn have opposite cosines. -/
theorem cosAngle_half_sub {j : Nat} (hj : j ≤ 2 * n) : cosAngle n (2 * n - j) = -cosAngle n j := by
  rw [cosAngle, cosAngle, ← Real.cos_pi_sub, Nat.cast_sub hj]
  congr 1
  push_cast
  field_simp

theorem cosAngle_pos {j : Nat} (hj : j < n) : 0 < cosAngle n j := by
  have hj : (j : ℝ) < n := mod_cast hj
  have := Real.pi_pos
  refine Real.cos_pos_of_mem_Ioo ⟨(neg_lt_zero.2 (by positivity)).trans_le (by positivity), ?_⟩
  rw [div_lt_div_iff₀ (by positivity) two_pos]
  nlinarith

/-- The table's symmetries are the cosine's: an entry is one of the first quadrant's, for an angle of the same cosine or, sign changed, of the opposite one (R150). -/
theorem cosEntry_eq (x u : Nat) :
    (∃ j ≤ n, cosEntry n x u = (cosQuarter n).getD j fZero ∧
      cosAngle n ((2 * x + 1) * u) = cosAngle n j) ∨
    (∃ j < n, cosEntry n x u = fneg ((cosQuarter n).getD j fZero) ∧
      cosAngle n ((2 * x + 1) * u) = -cosAngle n j) := by
  have hk : (2 * x + 1) * u % (4 * n) < 4 * n := Nat.mod_lt _ (by omega)
  rw [← cosAngle_mod hn, cosEntry]
  generalize (2 * x + 1) * u % (4 * n) = k at *
  have hhalf : ∀ j, k = 2 * n + j → cosAngle n k = -cosAngle n j := fun j hj =>
    hj ▸ cosAngle_half_add hn j
  split_ifs with h1 h2 h3
  · exact .inl ⟨k, h1, rfl, rfl⟩
  · exact .inr ⟨2 * n - k, by omega, rfl, by rw [cosAngle_half_sub hn h2, neg_neg]⟩
  · exact .inr ⟨k - 2 * n, by omega, rfl, hhalf _ (by omega)⟩
  · refine .inl ⟨4 * n - k, by omega, rfl, ?_⟩
    rw [hhalf (k - 2 * n) (by omega), ← cosAngle_half_sub hn (by omega)]
    congr 1
    omega

end

/-- Settles O12: up to its sign an entry is one of the first quadrant's, which are nearest to their cosines, and there the cosine is 0 only at the last. -/
theorem cosineTableIsNearest : Obligations.CosineTableIsNearest := by
  intro n x u hn hn' hx hu
  have hangle : Real.cos ((2 * (x : ℝ) + 1) * u * Real.pi / (2 * n)) =
      cosAngle n ((2 * x + 1) * u) := by
    rw [cosAngle]
    push_cast
    rfl
  rw [hangle, ← and_assoc]
  rcases cosEntry_eq hn x u with ⟨j, hj, hentry, hcos⟩ | ⟨j, hj, hentry, hcos⟩
  · rw [hentry, hcos]
    refine ⟨isNearest_cosQuarter hn hn' hj, fun hzero => ?_⟩
    obtain rfl : j = n := hj.eq_or_lt.resolve_right fun hlt => (cosAngle_pos hn hlt).ne' hzero
    exact cosQuarter_last j (by omega)
  · rw [hentry, hcos]
    refine ⟨(isNearest_cosQuarter hn hn' hj.le).neg, fun hzero => ?_⟩
    exact absurd (neg_eq_zero.1 hzero) (cosAngle_pos hn hj).ne'

end Sys2Proof.Machine
end

section
/-! PROOFS. The zigzag order: which positions a diagonal holds, and in what order they are visited (43_quant_zigzag.md R180). -/

namespace Sys2Proof.Machine

theorem mem_diagonalRows {n d r : Nat} : r ∈ diagonalRows n d ↔ r ≤ d ∧ r < n ∧ d - r < n := by
  have hmem : r ∈ diagonalRows n d ↔
      r ∈ List.range' (d + 1 - n) (min d (n - 1) + 1 - (d + 1 - n)) := by
    unfold diagonalRows
    split
    · rfl
    · exact List.mem_reverse
  rw [hmem, List.mem_range'_1]
  omega

/-- A diagonal's rows rise on an odd diagonal and fall on an even one. -/
theorem diagonalRows_pairwise (n d : Nat) :
    (diagonalRows n d).Pairwise fun r r' => if d % 2 = 1 then r < r' else r' < r := by
  unfold diagonalRows
  split
  · exact List.pairwise_lt_range'
  · exact List.pairwise_reverse.2 List.pairwise_lt_range'

theorem mem_zigzag {n r c : Nat} : (r, c) ∈ zigzag n ↔ r < n ∧ c < n := by
  simp only [zigzag, List.mem_flatMap, List.mem_map, List.mem_range, mem_diagonalRows,
    Prod.mk.injEq]
  constructor
  · rintro ⟨d, -, r, ⟨-, hr, hc⟩, rfl, rfl⟩
    exact ⟨hr, hc⟩
  · rintro ⟨hr, hc⟩
    exact ⟨r + c, by omega, r, ⟨by omega, hr, by omega⟩, rfl, by omega⟩

/-- A position is visited before another: on an earlier diagonal, or earlier on the same one. -/
def ZigzagBefore (p q : Nat × Nat) : Prop :=
  p.1 + p.2 < q.1 + q.2 ∨
    (p.1 + p.2 = q.1 + q.2 ∧ if (p.1 + p.2) % 2 = 1 then p.1 < q.1 else q.1 < p.1)

theorem zigzagBefore_irrefl (p : Nat × Nat) : ¬ZigzagBefore p p := by simp [ZigzagBefore]

theorem zigzag_pairwise (n : Nat) : (zigzag n).Pairwise ZigzagBefore := by
  refine List.pairwise_flatMap.2 ⟨fun d _ => List.pairwise_map.2 ?_, ?_⟩
  · refine (diagonalRows_pairwise n d).imp_of_mem fun {r r'} hr hr' hlt => .inr ?_
    obtain ⟨hr, -⟩ := mem_diagonalRows.1 hr
    obtain ⟨hr', -⟩ := mem_diagonalRows.1 hr'
    rw [Nat.add_sub_cancel' hr, Nat.add_sub_cancel' hr']
    exact ⟨rfl, hlt⟩
  · refine List.pairwise_lt_range.imp fun {d d'} hlt p hp q hq => .inl ?_
    obtain ⟨r, hr, rfl⟩ := List.mem_map.1 hp
    obtain ⟨r', hr', rfl⟩ := List.mem_map.1 hq
    obtain ⟨hr, -⟩ := mem_diagonalRows.1 hr
    obtain ⟨hr', -⟩ := mem_diagonalRows.1 hr'
    rwa [Nat.add_sub_cancel' hr, Nat.add_sub_cancel' hr']

theorem zigzag_nodup (n : Nat) : (zigzag n).Nodup := by
  refine List.Pairwise.imp (fun {p q} h => ?_) (zigzag_pairwise n)
  rintro rfl
  exact zigzagBefore_irrefl p h

/-- Settles O19: a position lies on the diagonal of its sum, and the diagonals come in order; the five tables are computed. -/
theorem zigzagOrder : Obligations.ZigzagOrder :=
  ⟨fun _ _ _ => mem_zigzag, zigzag_pairwise, zigzag_length, by decide, by decide, by decide,
    by decide, by decide⟩

end Sys2Proof.Machine
end

section
/-! PROOFS. Products and quotients by a power of two are exact while they stay in the range of binary32, so that a dequantized byte quantizes to itself (00_scope.md R11; 43_quant_zigzag.md R181, R186). -/

namespace Sys2Proof.Machine

theorem roundEven_mul (t : Nat) {d : Nat} (hd : 0 < d) : roundEven (t * d) d = t := by
  simp [roundEven, Nat.mul_div_cancel t hd, hd.ne]

/-- A number of at most 24 significant bits lies on the grid of its binade. -/
theorem two_pow_dropBits_dvd {t j : Nat} (ht : t < 2 ^ 24) :
    2 ^ dropBits (t * 2 ^ j) ∣ t * 2 ^ j := by
  obtain ⟨-, hzero | hge⟩ := dropBits_spec (t * 2 ^ j)
  · rw [hzero]
    exact one_dvd _
  · refine Dvd.dvd.mul_left (Nat.pow_dvd_pow 2 (Nat.lt_succ_iff.1 ?_)) t
    have hlt : t * 2 ^ j < 2 ^ 24 * 2 ^ j := Nat.mul_lt_mul_of_pos_right ht (Nat.two_pow_pos j)
    refine (Nat.pow_lt_pow_iff_right one_lt_two).1 ?_
    rw [Nat.pow_succ]
    omega

/-- An exact value of at most 24 significant bits is rounded to itself, below the overflow threshold. -/
theorem roundMag_exact {t j d : Nat} (hd : 0 < d) (ht : t < 2 ^ 24) (hj : j ≤ 253) :
    roundMag (t * 2 ^ j * d) d < infMag ∧ magUnits (roundMag (t * 2 ^ j * d) d) = t * 2 ^ j := by
  have hfin : ¬infMag ≤ roundBits (t * 2 ^ j * d) d := by
    rw [infMag_le_roundBits_iff _ hd, ← Nat.mul_assoc, Nat.mul_le_mul_right_iff hd, not_le]
    have : t * 2 ^ j ≤ (2 ^ 24 - 1) * 2 ^ 253 :=
      Nat.mul_le_mul (by omega) (Nat.pow_le_pow_right two_pos hj)
    omega
  rw [roundMag_eq_min, min_eq_right (not_le.1 hfin).le, magUnits_roundBits _ hd,
    Nat.mul_div_cancel _ hd]
  refine ⟨not_le.1 hfin, ?_⟩
  obtain ⟨v, hv⟩ := two_pow_dropBits_dvd (j := j) ht
  generalize dropBits (t * 2 ^ j) = k at *
  rw [hv, show 2 ^ k * v * d = v * (d * 2 ^ k) by ring,
    roundEven_mul v (Nat.mul_pos hd (Nat.two_pow_pos k)), Nat.mul_comm]

/-- The value `a` is finite, of sign `s`, and of magnitude `u` units of 2^-149. -/
structure HasValue (a : F32) (s : Bool) (u : Nat) : Prop where
  finite : isFinite a = true
  sign : fSign a = s
  units : fUnits a = u

theorem hasValue_roundMag (s : Bool) {t j d : Nat} (hd : 0 < d) (ht : t < 2 ^ 24) (hj : j ≤ 253) :
    HasValue (fOfSignMag s (roundMag (t * 2 ^ j * d) d)) s (t * 2 ^ j) := by
  obtain ⟨hfin, hunits⟩ := roundMag_exact hd ht hj
  exact ⟨isFinite_iff.2 (by rwa [fMag_fOfSignMag s hfin.le]), fSign_fOfSignMag s hfin.le,
    (fUnits_fOfSignMag s hfin.le).trans hunits⟩

section
variable {a b : F32} {s s' : Bool} {u v t j : Nat} (ha : HasValue a s u) (hb : HasValue b s' v)
  (ht : t < 2 ^ 24) (hj : j ≤ 253)
include ha hb ht hj

theorem hasValue_fmul (huv : u * v = t * 2 ^ j * 2 ^ 149) :
    HasValue (fmul a b) (s != s') (t * 2 ^ j) := by
  rw [fmul_isFinite ha.finite hb.finite, ha.sign, hb.sign, ha.units, hb.units, huv]
  exact hasValue_roundMag _ (Nat.two_pow_pos 149) ht hj

theorem hasValue_fdiv (hv : 0 < v) (huv : u * 2 ^ 149 = t * 2 ^ j * v) :
    HasValue (fdiv a b) (s != s') (t * 2 ^ j) := by
  have hz : isZero b = false := by
    by_contra hz
    rw [Bool.not_eq_false, isZero_iff] at hz
    rw [← hb.units, fUnits_eq_magUnits, hz] at hv
    exact absurd hv (by decide)
  rw [fdiv_isFinite ha.finite hb.finite hz, ha.sign, hb.sign, ha.units, hb.units, huv]
  exact hasValue_roundMag _ hv ht hj

end

theorem hasValue_i2f {n : Int} (hn : n.natAbs < 2 ^ 24) :
    HasValue (i2f n) (decide (n < 0)) (n.natAbs * 2 ^ 149) := by
  have := hasValue_roundMag (decide (n < 0)) one_pos hn (show 149 ≤ 253 by decide)
  rwa [Nat.mul_one] at this

/-- A power of two is written with its exponent field and fraction 0. -/
theorem hasValue_twoPow {e : Nat} (he : 1 ≤ e) (he' : e ≤ 254) :
    HasValue (BitVec.ofNat 32 (e * 2 ^ 23)) false (2 ^ (e + 22)) := by
  have hmag : e * 2 ^ 23 ≤ infMag := by unfold infMag; omega
  have hbits : BitVec.ofNat 32 (e * 2 ^ 23) = fOfSignMag false (e * 2 ^ 23) := by
    simp [fOfSignMag]
  rw [hbits]
  refine ⟨isFinite_iff.2 ?_, fSign_fOfSignMag _ hmag, (fUnits_fOfSignMag _ hmag).trans ?_⟩
  · rw [fMag_fOfSignMag _ hmag]
    unfold infMag
    omega
  · have hbinade := magUnits_binade (t := 2 ^ 23) (k := e - 1) (by decide) (.inr le_rfl)
    rw [show 2 ^ 23 + (e - 1) * 2 ^ 23 = e * 2 ^ 23 by omega, ← Nat.pow_add,
      show 23 + (e - 1) = e + 22 by omega] at hbinade
    exact hbinade

/-- The value of an integer is converted to that integer. -/
theorem nearestInt_of_hasValue {a : F32} {n : Int}
    (h : HasValue a (decide (n < 0)) (n.natAbs * 2 ^ 149)) : nearestInt a = n := by
  rw [nearestInt, h.sign, h.units, roundEven_mul _ (Nat.two_pow_pos 149)]
  simp only [decide_eq_true_eq]
  split <;> omega

/-- Settles O23: the product and the quotient are exact, so the quotient is the byte's own value. -/
theorem requantizingAPowerOfTwoIsExact : Obligations.RequantizingAPowerOfTwoIsExact := by
  intro b e he he'
  have hlow := BitVec.le_toInt b
  have hhigh := BitVec.toInt_lt (x := b)
  have hbits : b.toInt.natAbs < 2 ^ 24 := by omega
  have hdivisor := hasValue_twoPow (e := e) (by omega) (by omega)
  have hproduct : HasValue (dequantize b (BitVec.ofNat 32 (e * 2 ^ 23)))
      (decide (b.toInt < 0) != false) (b.toInt.natAbs * 2 ^ (e + 22)) :=
    hasValue_fmul (hasValue_i2f hbits) hdivisor hbits (by omega) (Nat.mul_right_comm _ _ _)
  have hquotient := hasValue_fdiv (j := 149) hproduct hdivisor hbits (by decide)
    (Nat.two_pow_pos _) (Nat.mul_right_comm _ _ _)
  rw [Bool.bne_false, Bool.bne_false] at hquotient
  rw [quantize, cvtSat8_of_isFinite hquotient.finite, nearestInt_of_hasValue hquotient,
    max_eq_right (by omega), min_eq_right (by omega), BitVec.ofInt_toInt]

end Sys2Proof.Machine
end

section
/-! PROOFS. The quantizer's commands, QZZ and DQZZ: their checks, and how they end (43_quant_zigzag.md R183, R184; 60_exceptions.md R262). -/

namespace Sys2Proof.Machine

/-! ### Checks (R183, R184, R262) -/

/-- The checks of QZZ and DQZZ: they differ in the plane's address `p`, its sub-code, and the lengths of the two spans. -/
def quantChecks (a : Arch) (p sub srcLen dstLen : Nat) : List Check :=
  checkBlocks a.regs ++
  [checkAlign p sub, checkAlign a.regs.qaddr.toNat 3,
   checkSpan a.dmem a.regs.src.toNat srcLen 1, checkSpan a.dmem a.regs.dst.toNat dstLen 2,
   checkSpan a.dmem a.regs.qaddr.toNat (4 * a.regs.blkn.toNat * a.regs.blkn.toNat) 3]

/-- QZZ checks, then writes only DMEM (R183). -/
theorem resultOf_qzz (a : Arch) :
    resultOf .qzz a =
      checked
        (quantChecks a a.regs.src.toNat 1 (4 * (a.regs.width.toNat * a.regs.height.toNat))
          (a.regs.width.toNat * a.regs.height.toNat))
        fun _ => { effects := { writes := qzzWrites a } } := rfl

/-- DQZZ checks, then writes only DMEM (R184). -/
theorem resultOf_dqzz (a : Arch) :
    resultOf .dqzz a =
      checked
        (quantChecks a a.regs.dst.toNat 2 (a.regs.width.toNat * a.regs.height.toNat)
          (4 * (a.regs.width.toNat * a.regs.height.toNat)))
        fun _ => { effects := { writes := dqzzWrites a } } := rfl

/-- The first check to fail, in the order of R183 and R184. -/
theorem firstError_quantChecks (a : Arch) (p sub srcLen dstLen : Nat) :
    firstError (quantChecks a p sub srcLen dstLen) =
      if a.regs.blkn.toNat = 0 ∨ 16 < a.regs.blkn.toNat then some (.precondition, 1)
      else if a.regs.width.toNat % a.regs.blkn.toNat ≠ 0 then some (.precondition, 2)
      else if a.regs.height.toNat % a.regs.blkn.toNat ≠ 0 then some (.precondition, 3)
      else if p % 4 ≠ 0 then some (.align, sub)
      else if a.regs.qaddr.toNat % 4 ≠ 0 then some (.align, 3)
      else if inBounds a.dmem a.regs.src.toNat srcLen = false then some (.bounds, 1)
      else if inBounds a.dmem a.regs.dst.toNat dstLen = false then some (.bounds, 2)
      else if inBounds a.dmem a.regs.qaddr.toNat
          (4 * a.regs.blkn.toNat * a.regs.blkn.toNat) = false then some (.bounds, 3)
      else none := by
  simp only [quantChecks, firstError_checkBlocks_append, checkAlign, checkSpan, firstError,
    decide_eq_true_eq, Bool.not_eq_true']

section
variable {i : Instr} {s : State} {ws : List Host.Cell} {p sub srcLen dstLen : Nat}
  (hi : resultOf i s.operands =
    checked (quantChecks s.operands p sub srcLen dstLen) fun _ => { effects := { writes := ws } })
include hi

/-- A command with these checks reports the first that fails. -/
theorem exec_of_quantChecks :
    let a := s.operands
    let n := a.regs.blkn.toNat
    if n = 0 ∨ 16 < n then exec i s = .next (s.failedWith .precondition 1)
    else if a.regs.width.toNat % n ≠ 0 then exec i s = .next (s.failedWith .precondition 2)
    else if a.regs.height.toNat % n ≠ 0 then exec i s = .next (s.failedWith .precondition 3)
    else if p % 4 ≠ 0 then exec i s = .next (s.failedWith .align sub)
    else if a.regs.qaddr.toNat % 4 ≠ 0 then exec i s = .next (s.failedWith .align 3)
    else if inBounds a.dmem a.regs.src.toNat srcLen = false then
      exec i s = .next (s.failedWith .bounds 1)
    else if inBounds a.dmem a.regs.dst.toNat dstLen = false then
      exec i s = .next (s.failedWith .bounds 2)
    else if inBounds a.dmem a.regs.qaddr.toNat (4 * n * n) = false then
      exec i s = .next (s.failedWith .bounds 3)
    else ∃ t, exec i s = .next t ∧ t.regs.errcode = 0 := by
  have herr := firstError_quantChecks s.operands p sub srcLen dstLen
  dsimp only
  split_ifs at herr ⊢
  iterate 8 · exact exec_checked_failed hi herr
  · exact ⟨_, exec_checked_done hi herr, rfl⟩

/-- With every check passed the command writes its bytes, in the span it stores to. -/
theorem quant_completes (hlen : ws.length = dstLen)
    (hmem : ∀ c ∈ ws, inSpans [(s.operands.regs.dst.toNat, dstLen)] c.1) :
    let a := s.operands
    let n := a.regs.blkn.toNat
    1 ≤ n → n ≤ 16 → a.regs.width.toNat % n = 0 → a.regs.height.toNat % n = 0 → p % 4 = 0 →
    a.regs.qaddr.toNat % 4 = 0 → inBounds a.dmem a.regs.src.toNat srcLen = true →
    inBounds a.dmem a.regs.dst.toNat dstLen = true →
    inBounds a.dmem a.regs.qaddr.toNat (4 * n * n) = true →
    exec i s = .next (s.doneWith (s.dmem.setBytes ws) dstLen) ∧
      s.dmem.sameOutside (s.dmem.setBytes ws) [(a.regs.dst.toNat, dstLen)] := by
  intro a n hn hn' hw hh hp hq hsrc hdst hqaddr
  have hpass : firstError (quantChecks a p sub srcLen dstLen) = none := by
    rw [firstError_quantChecks, if_neg (by omega), if_neg (not_not.2 hw), if_neg (not_not.2 hh),
      if_neg (not_not.2 hp), if_neg (not_not.2 hq), if_neg (by simp [hsrc]),
      if_neg (by simp [hdst]), if_neg (by simpa using hqaddr)]
  exact ⟨hlen ▸ exec_checked_done hi hpass, s.dmem.sameOutside_setBytes hmem⟩

end

/-- Settles O22: the first failing check is the first condition of the chain that holds. -/
theorem quantErrors : Obligations.QuantErrors := by
  rintro s i (rfl | rfl)
  · simpa only [true_and, false_and, reduceCtorEq, if_true, if_false] using
      exec_of_quantChecks (resultOf_qzz s.operands)
  · simpa only [true_and, false_and, reduceCtorEq, if_true, if_false] using
      exec_of_quantChecks (resultOf_dqzz s.operands)

end Sys2Proof.Machine
end

section
/-! PROOFS. What a sequence of steps leaves at the addresses that only one of its steps stores to (42_dct.md R154). -/

namespace Sys2Proof.Machine

theorem Dmem.ldF_congr {m m' : Dmem} {x : Nat} (h : ∀ i < 4, m.byte (x + i) = m'.byte (x + i)) :
    m.ldF x = m'.ldF x := congrArg _ (Dmem.read_congr m m' x 4 h)

/-- A sequence leaves at the addresses `looked` what its step `p` stores there, where no other step stores to them or to the addresses `reads` that step p reads. The writes may be made in another memory `m0` than the one that was read. -/
theorem Dmem.exists_setBytes_inSequence {step : Nat → Dmem → List Host.Cell} {ks : List Nat}
    {p : Nat} {m : Dmem} {reads looked : Nat → Prop} (m0 : Dmem) (hks : ks.Nodup) (hp : p ∈ ks)
    (hreads : ∀ m' : Dmem, (∀ y, reads y → m'.byte y = m.byte y) → step p m' = step p m)
    (hmiss : ∀ k ∈ ks, k ≠ p → ∀ m', ∀ c ∈ step k m', ¬reads c.1 ∧ ¬looked c.1) :
    ∃ m' : Dmem, ∀ x, looked x →
      (m0.setBytes (inSequence step ks m)).byte x = (m'.setBytes (step p m)).byte x := by
  obtain ⟨us, ws, hseq, hother⟩ := inSequence_around step m hks hp
  have hmissed : ∀ c ∈ us ++ ws, ¬reads c.1 ∧ ¬looked c.1 := fun c hc => by
    obtain ⟨k, hk, hne, m', hmem⟩ := hother c hc
    exact hmiss k hk hne m' c hmem
  have hsame : step p (m.setBytes us) = step p m := hreads _ fun y hy =>
    m.byte_setBytes_other us y fun c hc heq =>
      (hmissed c (List.mem_append_left _ hc)).1 (heq ▸ hy)
  refine ⟨m0.setBytes us, fun x hx => ?_⟩
  rw [hseq, hsame, setBytes_append, setBytes_append, byte_setBytes_other]
  exact fun c hc heq => (hmissed c (List.mem_append_right _ hc)).2 (heq ▸ hx)

/-- An address of one of two spans that do not overlap is not in the other (R13). -/
theorem not_mem_of_not_overlap {a la b lb x : Nat} (h : overlap a la b lb = false)
    (hx : b ≤ x ∧ x < b + lb) : ¬(a ≤ x ∧ x < a + la) := fun ha =>
  Bool.eq_false_iff.1 h ((overlap_iff_common_address a la b lb).2 ⟨x, ha, hx⟩)

end Sys2Proof.Machine
end

section
/-! PROOFS. QZZ and DQZZ on legal operands: the stream and the plane that they leave (43_quant_zigzag.md R180 to R185). -/

namespace Sys2Proof.Machine

/-! ### Blocks and their bytes (R180, R182, R185) -/

theorem elemAt_divisors (m : Dmem) {qaddr n r c : Nat} (hr : r < n) (hc : c < n) :
    elemAt (divisors m qaddr n) r c = m.ldF (matrixAddr qaddr n r c) := elemAt_matrixOf n _ hr hc

theorem elemAt_blockLoad (m : Dmem) {p w n br bc r c : Nat} (hr : r < n) (hc : c < n) :
    elemAt (blockLoad m p w n br bc) r c = m.ldF (blockAddr p w n br bc r c) :=
  elemAt_matrixOf n _ hr hc

theorem quantizeBlock_length (n : Nat) (q f : Matrix32) : (quantizeBlock n q f).length = n * n := by
  rw [quantizeBlock, List.length_map, zigzag_length]

section
variable {n m r c : Nat} (hm : (zigzag n)[m]? = some (r, c))
include hm

/-- A place of the zigzag order is below N², and holds a position of the block. -/
theorem zigzag_place : m < n * n ∧ r < n ∧ c < n := by
  obtain ⟨hlt, -⟩ := List.getElem?_eq_some_iff.1 hm
  exact ⟨zigzag_length n ▸ hlt, mem_zigzag.1 (List.mem_of_getElem? hm)⟩

theorem idxOf_zigzag : (zigzag n).idxOf (r, c) = m := by
  obtain ⟨hlt, heq⟩ := List.getElem?_eq_some_iff.1 hm
  rw [← heq, (zigzag_nodup n).idxOf_getElem]

theorem quantizeBlock_getElem? (q f : Matrix32) :
    (quantizeBlock n q f)[m]? = some (quantize (elemAt f r c) (elemAt q r c)) := by
  rw [quantizeBlock, List.getElem?_map, hm, Option.map_some]

theorem elemAt_dequantizeBlock (q : Matrix32) (bs : List Byte) :
    elemAt (dequantizeBlock n q bs) r c = dequantize (bs.getD m 0) (elemAt q r c) := by
  obtain ⟨-, hr, hc⟩ := zigzag_place hm
  rw [dequantizeBlock, elemAt_matrixOf _ _ hr hc, idxOf_zigzag hm]

end

theorem Dmem.bytes_getD (m : Dmem) (a : Nat) {len i : Nat} (hi : i < len) :
    (m.bytes a len).getD i 0 = m.byte (a + i) := by simp [Dmem.bytes, hi]

theorem Dmem.bytes_congr {m m' : Dmem} {a len : Nat}
    (h : ∀ i < len, m.byte (a + i) = m'.byte (a + i)) : m.bytes a len = m'.bytes a len :=
  List.map_congr_left fun i hi => h i (List.mem_range.1 hi)

/-- BlockLoad reads bytes of the plane's span only (R155). -/
theorem blockLoad_congr_span {m m' : Dmem} {p w h n br bc : Nat} (hw : n ∣ w) (hh : n ∣ h)
    (hbr : br < h / n) (hbc : bc < w / n)
    (heq : ∀ y, p ≤ y ∧ y < p + 4 * (w * h) → m'.byte y = m.byte y) :
    blockLoad m' p w n br bc = blockLoad m p w n br bc := by
  refine blockLoad_congr fun i hi j hj => Dmem.ldF_congr fun b hb => heq _ ?_
  have := sampleAddr_lt (p := p) (mul_add_lt_of_dvd hh hbr hi) (mul_add_lt_of_dvd hw hbc hj)
  rw [← Nat.mul_assoc, blockAddr]
  omega

/-- The blocks of a plane have all its samples (R154). -/
theorem blockCount_mul {w h n : Nat} (hw : n ∣ w) (hh : n ∣ h) :
    blockCount w h n * (n * n) = w * h := by
  calc blockCount w h n * (n * n) = (w / n * n) * (h / n * n) := by unfold blockCount; ring
    _ = w * h := by rw [Nat.div_mul_cancel hw, Nat.div_mul_cancel hh]

/-- Block (br, bc) of a plane, by its number in raster order (R185). -/
theorem exists_blockNumber {w h n br bc : Nat} (hbr : br < h / n) (hbc : bc < w / n) :
    ∃ k < blockCount w h n, br * (w / n) + bc = k ∧ k / (w / n) = br ∧ k % (w / n) = bc := by
  obtain ⟨k, hk, hblock⟩ := exists_block hbr hbc
  have hplace := (hblock k).2 rfl
  exact ⟨k, hk, ((block_eq_iff hbc).1 hplace).symm, hplace⟩

theorem eq_of_div_mod_eq {d k p : Nat} (h : k / d = p / d ∧ k % d = p % d) : k = p := by
  rw [← Nat.div_add_mod k d, h.1, h.2, Nat.div_add_mod]

section
variable {q : Matrix32} {n w h src dst p m r c : Nat} (hw : n ∣ w) (hh : n ∣ h)
  (hp : p < blockCount w h n) (hm : (zigzag n)[m]? = some (r, c))

/-! ### The stream of QZZ (R183) -/

/-- What QZZ writes for block k by the divisors `q`, from a plane of width `w` at `src` to a stream at `dst` (R183). -/
def qzzStep (q : Matrix32) (n w src dst k : Nat) (m : Dmem) : List Host.Cell :=
  bytesAt (dst + k * (n * n))
    (quantizeBlock n q (blockLoad m src w n (k / (w / n)) (k % (w / n))))

theorem qzzStep_length (k : Nat) (m : Dmem) : (qzzStep q n w src dst k m).length = n * n := by
  rw [qzzStep, bytesAt_length, quantizeBlock_length]

/-- Block k has N² bytes of the stream, from k·N² on (R185). -/
theorem qzzStep_mem {k : Nat} {m : Dmem} {x : Host.Cell} (hx : x ∈ qzzStep q n w src dst k m) :
    dst + k * (n * n) ≤ x.1 ∧ x.1 < dst + k * (n * n) + n * n := by
  have := bytesAt_mem _ _ _ hx
  rwa [quantizeBlock_length] at this

include hm in
theorem Dmem.byte_qzzStep (m0 m1 : Dmem) :
    (m0.setBytes (qzzStep q n w src dst p m1)).byte (dst + p * (n * n) + m) =
      quantize (m1.ldF (blockAddr src w n (p / (w / n)) (p % (w / n)) r c)) (elemAt q r c) := by
  obtain ⟨-, hr, hc⟩ := zigzag_place hm
  obtain ⟨hlt, hbyte⟩ := List.getElem?_eq_some_iff.1 (quantizeBlock_getElem? hm q
    (blockLoad m1 src w n (p / (w / n)) (p % (w / n))))
  rw [qzzStep, m0.byte_bytesAt _ _ _ hlt, hbyte, elemAt_blockLoad _ hr hc]

include hw hh hp hm in
/-- Each byte of the stream is its element of the source plane as it was at first, quantized, whatever memory the writes are made in (R183, R185). -/
theorem Dmem.byte_qzzSteps (m0 m1 : Dmem)
    (hno : overlap src (4 * (w * h)) dst (w * h) = false) :
    (m0.setBytes (inSequence (qzzStep q n w src dst) (List.range (blockCount w h n)) m1)).byte
        (dst + p * (n * n) + m) =
      quantize (m1.ldF (blockAddr src w n (p / (w / n)) (p % (w / n)) r c)) (elemAt q r c) := by
  obtain ⟨hbr, hbc⟩ := block_lt hp
  obtain ⟨hmn, -⟩ := zigzag_place hm
  obtain ⟨m', hlook⟩ := m0.exists_setBytes_inSequence (step := qzzStep q n w src dst) (m := m1)
    (reads := fun y => src ≤ y ∧ y < src + 4 * (w * h))
    (looked := fun x => x = dst + p * (n * n) + m) List.nodup_range (List.mem_range.2 hp)
    (fun m' hm' => by simp only [qzzStep, blockLoad_congr_span hw hh hbr hbc hm'])
    fun k hk hne m' x hx => by
      have hin := qzzStep_mem hx
      have hle := blockBytes_le hw hh (List.mem_range.1 hk)
      refine ⟨not_mem_of_not_overlap hno (by omega), fun hx => hne ?_⟩
      exact (mul_add_inj (i := x.1 - (dst + k * (n * n))) (by omega) hmn (by omega)).1
  rw [hlook _ rfl, m'.byte_qzzStep hm]

/-! ### The plane of DQZZ (R184) -/

/-- What DQZZ writes for block k by the divisors `q`, from a stream at `src` to a plane of width `w` at `dst` (R184). -/
def dqzzStep (q : Matrix32) (n w src dst k : Nat) (m : Dmem) : List Host.Cell :=
  blockStore dst w n (k / (w / n)) (k % (w / n))
    (dequantizeBlock n q (m.bytes (src + k * (n * n)) (n * n)))

theorem dqzzStep_length (k : Nat) (m : Dmem) :
    (dqzzStep q n w src dst k m).length = 4 * (n * n) := blockStore_length _ _ _ _ _ _

include hw hh hp in
/-- Block k is made of bytes of the stream only (R185). -/
theorem dqzzStep_congr {m m' : Dmem}
    (heq : ∀ y, src ≤ y ∧ y < src + w * h → m'.byte y = m.byte y) :
    dqzzStep q n w src dst p m' = dqzzStep q n w src dst p m := by
  have hle := blockBytes_le hw hh hp
  refine congrArg (fun bs => blockStore _ _ _ _ _ (dequantizeBlock _ _ bs)) ?_
  exact Dmem.bytes_congr fun i hi => heq _ (by omega)

include hw hp hm in
theorem Dmem.ldF_dqzzStep (m0 m1 : Dmem) :
    (m0.setBytes (dqzzStep q n w src dst p m1)).ldF
        (blockAddr dst w n (p / (w / n)) (p % (w / n)) r c) =
      dequantize (m1.byte (src + p * (n * n) + m)) (elemAt q r c) := by
  obtain ⟨hmn, hr, hc⟩ := zigzag_place hm
  rw [dqzzStep, m0.ldF_blockStore _ hw (block_lt hp).2 hr hc, elemAt_dequantizeBlock hm,
    m1.bytes_getD _ hmn]

include hw hh hp hm in
/-- Each element of the plane is its byte of the stream as it was at first, dequantized, whatever memory the writes are made in (R184, R185). -/
theorem Dmem.ldF_dqzzSteps (m0 m1 : Dmem)
    (hno : overlap src (w * h) dst (4 * (w * h)) = false) :
    (m0.setBytes (inSequence (dqzzStep q n w src dst) (List.range (blockCount w h n)) m1)).ldF
        (blockAddr dst w n (p / (w / n)) (p % (w / n)) r c) =
      dequantize (m1.byte (src + p * (n * n) + m)) (elemAt q r c) := by
  obtain ⟨hbr, hbc⟩ := block_lt hp
  obtain ⟨-, hr, hc⟩ := zigzag_place hm
  obtain ⟨m', hlook⟩ := m0.exists_setBytes_inSequence (step := dqzzStep q n w src dst) (m := m1)
    (reads := fun y => src ≤ y ∧ y < src + w * h)
    (looked := fun x => blockAddr dst w n (p / (w / n)) (p % (w / n)) r c ≤ x ∧
      x < blockAddr dst w n (p / (w / n)) (p % (w / n)) r c + 4)
    List.nodup_range (List.mem_range.2 hp) (fun m' => dqzzStep_congr hw hh hp)
    fun k hk hne m' x hx => by
      obtain ⟨hbr', hbc'⟩ := block_lt (List.mem_range.1 hk)
      have hin := blockStore_mem hw hh hbr' hbc' hx
      rw [Nat.mul_assoc] at hin
      have hmiss := missWord_blockStore _ (fun i hi j hj => sourceBlock_apart hw hbc' hbc hi hj
        hr hc hh hbr' hbr (.inl rfl) (mt eq_of_div_mod_eq hne)) x hx
      exact ⟨not_mem_of_not_overlap hno hin, by omega⟩
  rw [← m'.ldF_dqzzStep hw hp hm]
  exact Dmem.ldF_congr fun i hi => hlook _ ⟨by omega, by omega⟩

end

/-! ### Completion (R183, R184) -/

theorem qzzWrites_eq (a : Arch) :
    qzzWrites a = inSequence
      (qzzStep (divisors a.dmem a.regs.qaddr.toNat a.regs.blkn.toNat) a.regs.blkn.toNat
        a.regs.width.toNat a.regs.src.toNat a.regs.dst.toNat)
      (List.range (blockCount a.regs.width.toNat a.regs.height.toNat a.regs.blkn.toNat))
      a.dmem := rfl

theorem dqzzWrites_eq (a : Arch) :
    dqzzWrites a = inSequence
      (dqzzStep (divisors a.dmem a.regs.qaddr.toNat a.regs.blkn.toNat) a.regs.blkn.toNat
        a.regs.width.toNat a.regs.src.toNat a.regs.dst.toNat)
      (List.range (blockCount a.regs.width.toNat a.regs.height.toNat a.regs.blkn.toNat))
      a.dmem := rfl

section
variable {a : Arch} (hw : a.regs.blkn.toNat ∣ a.regs.width.toNat)
  (hh : a.regs.blkn.toNat ∣ a.regs.height.toNat)
include hw hh

theorem qzzWrites_length : (qzzWrites a).length = a.regs.width.toNat * a.regs.height.toNat := by
  rw [qzzWrites_eq, inSequence_length _ _ qzzStep_length, List.length_range, blockCount_mul hw hh]

theorem dqzzWrites_length :
    (dqzzWrites a).length = 4 * (a.regs.width.toNat * a.regs.height.toNat) := by
  rw [dqzzWrites_eq, inSequence_length _ _ dqzzStep_length, List.length_range,
    Nat.mul_left_comm, blockCount_mul hw hh]

end

/-- Settles O20: the stream leaves the source plane as it was, so each block is read as it was at the launch. -/
theorem qzzCompletes : Obligations.QzzCompletes := by
  intro s a n w h src dst qaddr hn hn' hw hh hsrc hq hin hout hqaddr
  have hdw := Nat.dvd_of_mod_eq_zero hw
  have hdh := Nat.dvd_of_mod_eq_zero hh
  obtain ⟨hexec, hsame⟩ := quant_completes (resultOf_qzz a) (qzzWrites_length hdw hdh)
    (fun c hc => qzzWrites_mem hdw hdh hc) hn hn' hw hh hsrc hq hin hout hqaddr
  refine ⟨_, hexec, rfl, hsame, fun hno br bc m r c hbr hbc hm => ?_⟩
  obtain ⟨k, hk, hnumber, rfl, rfl⟩ := exists_blockNumber hbr hbc
  obtain ⟨-, hr, hc⟩ := zigzag_place hm
  rw [hnumber, State.doneWith_dmem, qzzWrites_eq, s.dmem.byte_qzzSteps hdw hdh hk hm _ hno,
    elemAt_divisors _ hr hc]
  rfl

/-- Settles O21: the plane leaves the stream as it was, and a position's place in the zigzag order is its only one. -/
theorem dqzzCompletes : Obligations.DqzzCompletes := by
  intro s a n w h src dst qaddr hn hn' hw hh hdst hq hin hout hqaddr
  have hdw := Nat.dvd_of_mod_eq_zero hw
  have hdh := Nat.dvd_of_mod_eq_zero hh
  obtain ⟨hexec, hsame⟩ := quant_completes (resultOf_dqzz a) (dqzzWrites_length hdw hdh)
    (fun c hc => Nat.mul_assoc 4 _ _ ▸ dqzzWrites_mem hdw hdh hc) hn hn' hw hh hdst hq hin hout
    hqaddr
  refine ⟨_, hexec, rfl, hsame, fun hno br bc m r c hbr hbc hm => ?_⟩
  obtain ⟨k, hk, hnumber, rfl, rfl⟩ := exists_blockNumber hbr hbc
  obtain ⟨-, hr, hc⟩ := zigzag_place hm
  rw [hnumber, State.doneWith_dmem, dqzzWrites_eq, s.dmem.ldF_dqzzSteps hdw hdh hk hm _ hno,
    elemAt_divisors _ hr hc]
  rfl

end Sys2Proof.Machine
end

section
/-! PROOFS. Codes as bits: a pattern and its bits, most significant first, give each other back, and shortening one shortens the other (20_memory.md R61; 44_huffman.md R200). -/

namespace Sys2Proof.Machine

theorem bitsValue_append (xs ys : List Bool) :
    bitsValue (xs ++ ys) = bitsValue xs * 2 ^ ys.length + bitsValue ys := by
  induction ys using List.reverseRecOn with
  | nil => simp [bitsValue]
  | append_singleton ys y ih =>
    rw [← List.append_assoc]
    simp only [bitsValue, List.foldl_append, List.foldl_cons, List.foldl_nil] at ih ⊢
    rw [ih, List.length_append, List.length_singleton, pow_succ]
    ring

theorem bitsValue_concat (xs : List Bool) (x : Bool) :
    bitsValue (xs ++ [x]) = 2 * bitsValue xs + x.toNat := by
  simp [bitsValue]

/-- The first bit of a pattern is its bit above the rest (R200). -/
theorem patternBits_succ (pat len : Nat) :
    patternBits pat (len + 1) = patternBits (pat / 2) len ++ [pat.testBit 0] := by
  rw [patternBits, List.range_succ, List.map_append, List.map_singleton, patternBits]
  congr 1
  · refine List.map_congr_left fun t ht => ?_
    have := List.mem_range.1 ht
    rw [Nat.testBit_div_two, show len - 1 - t + 1 = len + 1 - 1 - t by omega]
  · simp

theorem bitsValue_patternBits {pat len : Nat} (h : pat < 2 ^ len) :
    bitsValue (patternBits pat len) = pat := by
  induction len generalizing pat with
  | zero => simp_all [patternBits, bitsValue]
  | succ len ih =>
    have hhalf : pat / 2 < 2 ^ len := Nat.div_lt_of_lt_mul (pow_succ' 2 len ▸ h)
    rw [patternBits_succ, bitsValue_concat, ih hhalf, Nat.toNat_testBit, pow_zero, Nat.div_one,
      Nat.div_add_mod]

theorem patternBits_bitsValue (xs : List Bool) : patternBits (bitsValue xs) xs.length = xs := by
  induction xs using List.reverseRecOn with
  | nil => rfl
  | append_singleton xs x ih =>
    rw [List.length_append, List.length_singleton, patternBits_succ, bitsValue_concat]
    have hdiv : (2 * bitsValue xs + x.toNat) / 2 = bitsValue xs := by
      have := x.toNat_le
      omega
    rw [hdiv, ih, Nat.testBit_zero]
    cases x <;> simp

/-- The first bits of a pattern are the bits of the pattern shortened (R200). -/
theorem patternBits_take {pat len j : Nat} (h : j ≤ len) :
    (patternBits pat len).take j = patternBits (pat / 2 ^ (len - j)) j := by
  unfold patternBits
  rw [← List.map_take, List.take_range, min_eq_left h]
  refine List.map_congr_left fun t ht => ?_
  have := List.mem_range.1 ht
  rw [Nat.testBit_div_two_pow]
  congr 1
  omega

/-- The value of a pattern's first bits is the pattern shortened (R200). -/
theorem bitsValue_patternBits_take {pat len j : Nat} (h : pat < 2 ^ len) (hj : j ≤ len) :
    bitsValue ((patternBits pat len).take j) = pat / 2 ^ (len - j) := by
  rw [patternBits_take hj, bitsValue_patternBits]
  refine Nat.div_lt_of_lt_mul ?_
  rwa [← pow_add, Nat.sub_add_cancel hj]

theorem codeBits_cons (c : Code) (cs : List Code) :
    codeBits (c :: cs) = patternBits c.pat c.len ++ codeBits cs := rfl

theorem codeBits_length (cs : List Code) : (codeBits cs).length = codesLength cs := by
  simp [codeBits, codesLength, List.length_flatMap, patternBits_length]

end Sys2Proof.Machine
end

section
/-! PROOFS. The Huffman tree: the merges have one result, its leaves are the byte values that occur, and their codes are the paths to them, none on the way to another (44_huffman.md R201 to R208). -/

namespace Sys2Proof.Machine

/-! ### Paths and codes (R204) -/

/-- The code that a path stands for (R204). -/
def pathCode (p : List Bool) : Code := ⟨bitsValue p, p.length⟩

/-- The byte values at the leaves of a tree, from left to right. -/
def HuffTree.leaves : HuffTree → List Nat
  | .leaf b => [b]
  | .node l r => l.leaves ++ r.leaves

theorem HuffTree.path_node (l r : HuffTree) (b : Nat) :
    (HuffTree.node l r).path b =
      ((l.path b).map (true :: ·)).or ((r.path b).map (false :: ·)) := by
  rw [HuffTree.path]
  cases l.path b <;> rfl

theorem HuffTree.path_eq_none_iff (t : HuffTree) (b : Nat) : t.path b = none ↔ b ∉ t.leaves := by
  induction t with
  | leaf c => simp [path, leaves, eq_comm]
  | node l r ihl ihr => simp [path_node, leaves, ihl, ihr]

/-- A path in a tree is either the way to the left or the way to the right. -/
theorem HuffTree.path_node_eq_some {l r : HuffTree} {b : Nat} {p : List Bool}
    (h : (HuffTree.node l r).path b = some p) :
    (∃ q, l.path b = some q ∧ p = true :: q) ∨ ∃ q, r.path b = some q ∧ p = false :: q := by
  rw [path_node, Option.or_eq_some_iff] at h
  obtain h | ⟨-, h⟩ := h <;> obtain ⟨q, hq, rfl⟩ := Option.map_eq_some_iff.1 h
  · exact .inl ⟨q, hq, rfl⟩
  · exact .inr ⟨q, hq, rfl⟩

/-- No leaf lies on the way to another (R208). -/
theorem HuffTree.eq_of_path_prefix {t : HuffTree} {b c : Nat} {p q : List Bool}
    (hp : t.path b = some p) (hq : t.path c = some q) (hpq : p <+: q) : b = c := by
  induction t generalizing p q with
  | leaf a =>
    simp only [path, Option.ite_none_right_eq_some] at hp hq
    exact hp.1.symm.trans hq.1
  | node l r ihl ihr =>
    obtain ⟨p', hp', rfl⟩ | ⟨p', hp', rfl⟩ := path_node_eq_some hp <;>
      obtain ⟨q', hq', rfl⟩ | ⟨q', hq', rfl⟩ := path_node_eq_some hq <;>
        rw [List.cons_prefix_cons] at hpq
    · exact ihl hp' hq' hpq.2
    · exact absurd hpq.1 (by decide)
    · exact absurd hpq.1 (by decide)
    · exact ihr hp' hq' hpq.2

/-- The code of a leaf goes on from the code `c` of the root by the path to it (R204). -/
theorem treeCodes_lookup (t : HuffTree) (c : Code) (b : Nat) :
    (treeCodes t c).lookup b =
      (t.path b).map fun p => ⟨c.pat * 2 ^ p.length + bitsValue p, c.len + p.length⟩ := by
  induction t generalizing c with
  | leaf a =>
    by_cases h : a = b
    · simp [treeCodes, HuffTree.path, h, bitsValue]
    · simp [treeCodes, HuffTree.path, h, List.lookup_cons, beq_eq_false_iff_ne.2 (Ne.symm h)]
  | node l r ihl ihr =>
    have hcons (x : Bool) (p : List Bool) :
        (2 * c.pat + x.toNat) * 2 ^ p.length + bitsValue p =
          c.pat * 2 ^ (p.length + 1) + bitsValue (x :: p) := by
      rw [← List.singleton_append, bitsValue_append, pow_succ]
      simp only [bitsValue, List.foldl_cons, List.foldl_nil]
      ring
    have htrue : ∀ p, (2 * c.pat + 1) * 2 ^ p.length + bitsValue p = _ := hcons true
    have hfalse : ∀ p, 2 * c.pat * 2 ^ p.length + bitsValue p = _ := hcons false
    simp only [treeCodes, List.lookup_append, ihl, ihr, HuffTree.path_node, htrue, hfalse,
      Nat.add_assoc, Nat.add_comm 1]
    cases l.path b <;> cases r.path b <;> rfl

theorem codeOf_treeCodes (t : HuffTree) (b : Nat) :
    codeOf (treeCodes t ⟨0, 0⟩) b = ((t.path b).map pathCode).getD ⟨0, 0⟩ := by
  simp only [codeOf, treeCodes_lookup, Nat.zero_mul, Nat.zero_add]
  rfl

/-! ### The merges (R202, R203) -/

theorem HuffNode.below_asymm {a b : HuffNode} (h : a.below b) : ¬ b.below a := by
  simp only [HuffNode.below] at *
  omega

/-- The merges go by the set of the nodes, not by their order. -/
theorem MergesTo.perm {k : Nat} {ns ns' : List HuffNode} {t : HuffTree} (h : MergesTo k ns t)
    (hp : ns'.Perm ns) : MergesTo k ns' t := by
  cases h with
  | root _ x =>
    rw [List.perm_singleton.1 hp]
    exact .root k x
  | merge _ _ rest a b _ nodes least next later =>
    exact .merge k ns' rest a b t (hp.trans nodes) least next later

/-- A set of nodes has one least node (R202). -/
theorem HuffNode.least_unique {a a' : HuffNode} {ns ns' : List HuffNode}
    (hp : (a :: ns).Perm (a' :: ns'))
    (h : ∀ c ∈ ns, a.below c) (h' : ∀ c ∈ ns', a'.below c) : a = a' ∧ ns.Perm ns' := by
  have heq : a = a' := by
    by_contra hne
    have hin : a ∈ ns' := by simpa [hne] using hp.subset List.mem_cons_self
    have hin' : a' ∈ ns := by simpa [Ne.symm hne] using hp.symm.subset List.mem_cons_self
    exact HuffNode.below_asymm (h a' hin') (h' a hin)
  subst heq
  exact ⟨rfl, hp.cons_inv⟩

/-- Each merge is determined, and so is the tree that they end in (R203). -/
theorem MergesTo.unique {k : Nat} {ns ns' : List HuffNode} {t t' : HuffTree} (h : MergesTo k ns t)
    (h' : MergesTo k ns' t') (hp : ns.Perm ns') : t = t' := by
  induction h generalizing ns' t' with
  | root k x =>
    have hlen := hp.length_eq
    cases h' with
    | root _ y => rw [List.singleton_perm_singleton.1 hp]
    | merge _ _ rest a b _ nodes => simp [nodes.length_eq] at hlen
  | merge k ns rest a b t nodes least next later ih =>
    have hlen := hp.length_eq
    cases h' with
    | root _ y => simp [nodes.length_eq] at hlen
    | merge _ _ rest' a' b' _ nodes' least' next' later' =>
      obtain ⟨rfl, hp'⟩ := HuffNode.least_unique (nodes.symm.trans (hp.trans nodes')) least least'
      obtain ⟨rfl, hrest⟩ := HuffNode.least_unique hp' next next'
      exact ih later' (hrest.cons _)

/-- The merges lose no leaf and add none. -/
theorem MergesTo.leaves_perm {k : Nat} {ns : List HuffNode} {t : HuffTree} (h : MergesTo k ns t) :
    t.leaves.Perm (ns.flatMap fun x => x.tree.leaves) := by
  induction h with
  | root k x => simp
  | merge k ns rest a b t nodes least next later ih =>
    refine ih.trans (.trans (.of_eq ?_) (nodes.flatMap_right _).symm)
    simp [HuffTree.leaves]

/-- The builder makes the merges of R203 on a list in order, with fuel for all of them. -/
theorem mergeNodes_mergesTo {fuel k : Nat} {ns : List HuffNode} (hne : ns ≠ [])
    (hfuel : ns.length ≤ fuel + 1) (hsort : ns.Pairwise HuffNode.below)
    (hkey : ∀ x ∈ ns, x.key < 256 + k) : ∃ t, mergeNodes fuel k ns = some t ∧ MergesTo k ns t := by
  induction fuel generalizing k ns with
  | zero =>
    match ns, hne, hfuel with
    | [x], _, _ => exact ⟨x.tree, by simp [mergeNodes], .root k x⟩
  | succ fuel ih =>
    match ns, hne with
    | [x], _ => exact ⟨x.tree, by simp [mergeNodes], .root k x⟩
    | x :: y :: rest, _ =>
      obtain ⟨hx, hsort'⟩ := List.pairwise_cons.1 hsort
      obtain ⟨hy, hrest⟩ := List.pairwise_cons.1 hsort'
      simp only [List.forall_mem_cons] at hkey
      obtain ⟨-, -, hkey⟩ := hkey
      have hperm := insertNode_perm ⟨x.weight + y.weight, 256 + k, .node x.tree y.tree⟩ rest
      obtain ⟨t, ht, hmerges⟩ := ih (k := k + 1) (ns := insertNode _ rest)
        (fun h => nomatch (h ▸ hperm).nil_eq)
        (by rw [hperm.length_eq]; simpa using hfuel)
        (insertNode_sorted _ _ hrest fun z hz => (hkey z hz).ne)
        fun z hz => by
          rcases List.mem_cons.1 (hperm.subset hz) with rfl | hz
          · exact Nat.lt_succ_self _
          · exact (hkey z hz).trans (Nat.lt_succ_self _)
      exact ⟨t, by rw [mergeNodes, ht],
        .merge k _ rest x y t (.refl _) hx hy (hmerges.perm hperm.symm)⟩

/-! ### The node set of an input (R201, R202) -/

/-- The byte values that occur in an input, ascending (R201). -/
def occurring (bs : List Byte) : List Nat := (List.range 256).filter fun b => freqOf bs b ≠ 0

theorem freqOf_ne_zero_iff (bs : List Byte) (b : Nat) :
    freqOf bs b ≠ 0 ↔ BitVec.ofNat 8 b ∈ bs := by
  rw [freqOf, ← Nat.pos_iff_ne_zero, List.count_pos_iff]

theorem mem_occurring {bs : List Byte} {b : Nat} :
    b ∈ occurring bs ↔ b < 256 ∧ BitVec.ofNat 8 b ∈ bs := by
  simp [occurring, freqOf_ne_zero_iff]

theorem occurring_nodup (bs : List Byte) : (occurring bs).Nodup := List.nodup_range.filter _

/-- The leaf of a byte value (R202). -/
def leafOf (bs : List Byte) (b : Nat) : HuffNode := ⟨freqOf bs b, b, .leaf b⟩

theorem leafSet_eq (bs : List Byte) : leafSet bs = (occurring bs).map (leafOf bs) := rfl

theorem foldl_insertNode_perm (f : Nat → HuffNode) (l : List Nat) (ns : List HuffNode) :
    (l.foldl (fun ns b => insertNode (f b) ns) ns).Perm (l.map f ++ ns) := by
  induction l generalizing ns with
  | nil => exact .refl _
  | cons b l ih =>
    exact (ih _).trans (((insertNode_perm (f b) ns).append_left _).trans List.perm_middle)

theorem foldl_insertNode_sorted {f : Nat → HuffNode} (hf : ∀ b, (f b).key = b) {l : List Nat}
    (hl : l.Nodup) {ns : List HuffNode} (hns : ns.Pairwise HuffNode.below)
    (hkey : ∀ x ∈ ns, x.key ∉ l) :
    (l.foldl (fun ns b => insertNode (f b) ns) ns).Pairwise HuffNode.below := by
  induction l generalizing ns with
  | nil => exact hns
  | cons b l ih =>
    obtain ⟨hb, hl⟩ := List.nodup_cons.1 hl
    refine ih hl (insertNode_sorted _ _ hns fun x hx => ?_) fun x hx => ?_
    · rw [hf]
      exact fun h => hkey x hx (h ▸ List.mem_cons_self)
    · rcases List.mem_cons.1 ((insertNode_perm _ _).subset hx) with rfl | hx
      · rwa [hf]
      · exact fun h => hkey x hx (List.mem_cons_of_mem _ h)

theorem leafNodes_perm (bs : List Byte) : (leafNodes bs).Perm (leafSet bs) :=
  (foldl_insertNode_perm (leafOf bs) (occurring bs) []).trans (.of_eq (List.append_nil _))

theorem leafNodes_sorted (bs : List Byte) : (leafNodes bs).Pairwise HuffNode.below :=
  foldl_insertNode_sorted (f := leafOf bs) (fun _ => rfl) (occurring_nodup bs) .nil nofun

/-- From one byte value on the builder makes the merges of R203. -/
theorem mergeNodes_leafNodes {bs : List Byte} (h : leafSet bs ≠ []) :
    ∃ t, mergeNodes (leafNodes bs).length 0 (leafNodes bs) = some t ∧
      MergesTo 0 (leafSet bs) t := by
  have hperm := leafNodes_perm bs
  obtain ⟨t, ht, hm⟩ := mergeNodes_mergesTo (k := 0) (fuel := (leafNodes bs).length)
    (fun h0 => h (by simpa [h0] using hperm)) (Nat.le_succ _) (leafNodes_sorted bs) fun x hx => by
      rw [leafSet_eq] at hperm
      obtain ⟨b, hb, rfl⟩ := List.mem_map.1 (hperm.subset hx)
      exact (mem_occurring.1 hb).1
  exact ⟨t, ht, hm.perm hperm.symm⟩

theorem MergesTo.leaves_perm_occurring {bs : List Byte} {t : HuffTree}
    (h : MergesTo 0 (leafSet bs) t) : t.leaves.Perm (occurring bs) := by
  refine h.leaves_perm.trans (.of_eq ?_)
  rw [leafSet_eq, List.flatMap_map]
  exact List.flatMap_singleton' _

/-! ### The codes of an input (R204 to R206) -/

theorem huffmanCodes_of_node {bs : List Byte} {l r : HuffTree}
    (h : mergeNodes (leafNodes bs).length 0 (leafNodes bs) = some (.node l r)) :
    huffmanCodes bs = treeCodes (.node l r) ⟨0, 0⟩ := by
  simp only [huffmanCodes, h]

theorem huffmanCodes_of_none {bs : List Byte} (h : occurring bs = []) : huffmanCodes bs = [] := by
  have hnil : leafNodes bs = [] := by
    simpa [leafSet_eq, h] using leafNodes_perm bs
  simp [huffmanCodes, hnil, mergeNodes]

/-- A single distinct byte has the code (0, 1) (R205). -/
theorem huffmanCodes_of_single {bs : List Byte} {b : Nat} (h : occurring bs = [b]) :
    huffmanCodes bs = [(b, ⟨0, 1⟩)] := by
  have hleaf : leafNodes bs = [leafOf bs b] := by
    simpa [leafSet_eq, h] using leafNodes_perm bs
  simp [huffmanCodes, hleaf, mergeNodes, leafOf]

/-- From two distinct bytes on the tree is no leaf, and the codes are its paths (R203, R204). -/
theorem huffmanCodes_of_two {bs : List Byte} (h : 2 ≤ (occurring bs).length) :
    ∃ l r, MergesTo 0 (leafSet bs) (.node l r) ∧
      huffmanCodes bs = treeCodes (.node l r) ⟨0, 0⟩ := by
  have hne : leafSet bs ≠ [] := by
    rw [leafSet_eq, Ne, List.map_eq_nil_iff, ← List.length_eq_zero_iff]
    omega
  obtain ⟨t, ht, hm⟩ := mergeNodes_leafNodes hne
  cases t with
  | leaf b =>
    have := hm.leaves_perm_occurring.length_eq
    simp only [HuffTree.leaves, List.length_singleton] at this
    omega
  | node l r => exact ⟨l, r, hm, huffmanCodes_of_node ht⟩

/-- The codes of an input are those of the paths given: non-empty ones, to exactly the byte values that occur, none on the way to another (R204, R208). -/
structure CodePaths (bs : List Byte) (path : Nat → Option (List Bool)) : Prop where
  code : ∀ b, codeOf (huffmanCodes bs) b = ((path b).map pathCode).getD ⟨0, 0⟩
  occurs : ∀ b, path b = none ↔ b ∉ occurring bs
  nonempty : ∀ b, path b ≠ some []
  prefixFree : ∀ b c p q, path b = some p → path c = some q → p <+: q → b = c

theorem CodePaths.of_none {bs : List Byte} (h : occurring bs = []) :
    CodePaths bs fun _ => none := by
  refine ⟨fun b => ?_, fun b => by simp [h], nofun, nofun⟩
  simp [huffmanCodes_of_none h, codeOf]

/-- The path of a single byte value is one 0 bit (R205). -/
theorem CodePaths.of_single {bs : List Byte} {b : Nat} (h : occurring bs = [b]) :
    CodePaths bs fun c => if c = b then some [false] else none := by
  refine ⟨fun c => ?_, fun c => by simp [h], fun c => by split <;> simp, fun c d p q hp hq _ => ?_⟩
  · rw [huffmanCodes_of_single h, codeOf, List.lookup_cons]
    by_cases hc : c = b
    · simp [hc, pathCode, bitsValue]
    · simp [hc, beq_eq_false_iff_ne.2 hc]
  · simp only [Option.ite_none_right_eq_some] at hp hq
    exact hp.1.trans hq.1.symm

theorem CodePaths.of_tree {bs : List Byte} {l r : HuffTree}
    (hm : MergesTo 0 (leafSet bs) (.node l r))
    (hc : huffmanCodes bs = treeCodes (.node l r) ⟨0, 0⟩) :
    CodePaths bs (HuffTree.node l r).path := by
  refine ⟨fun b => by rw [hc, codeOf_treeCodes], fun b => ?_, fun b hp => ?_,
    fun b c p q => HuffTree.eq_of_path_prefix⟩
  · rw [HuffTree.path_eq_none_iff, hm.leaves_perm_occurring.mem_iff]
  · obtain ⟨q, -, hq⟩ | ⟨q, -, hq⟩ := HuffTree.path_node_eq_some hp <;> cases hq

theorem exists_codePaths (bs : List Byte) : ∃ path, CodePaths bs path := by
  match h : occurring bs with
  | [] => exact ⟨_, .of_none h⟩
  | [b] => exact ⟨_, .of_single h⟩
  | _ :: _ :: _ =>
    obtain ⟨l, r, hm, hc⟩ := huffmanCodes_of_two (bs := bs) (by simp [h])
    exact ⟨_, .of_tree hm hc⟩

theorem codeOf_len_ne_zero_iff (bs : List Byte) (b : Nat) :
    (codeOf (huffmanCodes bs) b).len ≠ 0 ↔ b ∈ occurring bs := by
  obtain ⟨path, hpath⟩ := exists_codePaths bs
  have hne := hpath.nonempty b
  rw [hpath.code b, ← not_iff_not, ← hpath.occurs b]
  cases hp : path b with
  | none => simp
  | some p => simpa [pathCode, hp] using hne

/-- A byte value with a code has the code of its path. -/
theorem CodePaths.exists_path {bs : List Byte} {path : Nat → Option (List Bool)}
    (h : CodePaths bs path) {b : Nat} (hb : (codeOf (huffmanCodes bs) b).len ≠ 0) :
    ∃ p, path b = some p ∧ codeOf (huffmanCodes bs) b = pathCode p := by
  cases hp : path b with
  | none => exact absurd ((codeOf_len_ne_zero_iff bs b).1 hb) ((h.occurs b).1 hp)
  | some p => exact ⟨p, rfl, by rw [h.code, hp]; rfl⟩

/-- A code whose first bits are another's shortens to it, and so do their paths. -/
theorem prefix_of_pathCode {p q : List Bool} (hlen : p.length ≤ q.length)
    (h : bitsValue q / 2 ^ (q.length - p.length) = bitsValue p) : p <+: q := by
  have htake := patternBits_take (pat := bitsValue q) hlen
  rw [h, patternBits_bitsValue, patternBits_bitsValue] at htake
  exact htake ▸ List.take_prefix _ _

/-- Settles O24: the codes are paths to different leaves of one tree. -/
theorem huffmanCodesArePrefixFree : Obligations.HuffmanCodesArePrefixFree := by
  intro bs b c _ _ hne x y hx hy hlen hpat
  obtain ⟨path, hpath⟩ := exists_codePaths bs
  obtain ⟨p, hp, hcp⟩ := hpath.exists_path hx
  obtain ⟨q, hq, hcq⟩ := hpath.exists_path hy
  subst x y
  rw [hcp, hcq] at hlen hpat
  exact hne (hpath.prefixFree b c p q hp hq (prefix_of_pathCode hlen hpat))

theorem occurring_of_all_eq {bs : List Byte} {b : Nat} (hb : b < 256) (hne : bs ≠ [])
    (h : ∀ c ∈ bs, c = BitVec.ofNat 8 b) : occurring bs = [b] := by
  have hmem : BitVec.ofNat 8 b ∈ bs := by
    obtain ⟨c, hc⟩ := List.exists_mem_of_ne_nil _ hne
    exact h c hc ▸ hc
  refine List.perm_singleton.1 ((List.perm_ext_iff_of_nodup (occurring_nodup bs)
    (List.nodup_singleton b)).2 fun c => ?_)
  rw [mem_occurring, List.mem_singleton]
  refine ⟨fun ⟨hc, hin⟩ => ?_, fun hc => hc ▸ ⟨hb, hmem⟩⟩
  have heq := congrArg BitVec.toNat (h _ hin)
  rwa [BitVec.toNat_ofNat, BitVec.toNat_ofNat, Nat.mod_eq_of_lt hc, Nat.mod_eq_of_lt hb] at heq

/-- Settles O25: the codes are the paths of the one tree that the merges make, or the one bit of a single byte value. -/
theorem codesExactlyForOccurringBytes : Obligations.CodesExactlyForOccurringBytes := by
  refine ⟨fun bs b hb => ⟨?_, codeOf_huffmanCodes_pat_lt bs b, fun hne hall => ?_⟩, fun bs hbs => ?_⟩
  · rw [codeOf_len_ne_zero_iff, mem_occurring]
    exact and_iff_right hb
  · rw [huffmanCodes_of_single (occurring_of_all_eq hb hne hall)]
    simp [codeOf]
  · obtain ⟨l, r, hm, hc⟩ := huffmanCodes_of_two (bs := bs) (by simpa [leafSet_eq] using hbs)
    refine ⟨_, hm, fun t' h => h.unique hm (.refl _), fun b _ => ?_⟩
    rw [hc, codeOf_treeCodes]
    cases (HuffTree.node l r).path b <;> rfl

end Sys2Proof.Machine
end

section
/-! PROOFS. What a bit buffer holds: the bits appended to a stream are the bits of its bytes in DMEM and of the pending byte, and behind them there are 0 bits (20_memory.md R61; 45_bitbuffer.md R241, R242). -/

namespace Sys2Proof.Machine

/-- Buffer `b` over DMEM `m` holds the bits of the stream opened at `dst`: the completed bytes stand in DMEM, the rest in ACC with 0 bits below it (R38, R241). -/
structure BitBuf.Holds (b : BitBuf) (m : Dmem) (dst : Word) (bits : List Bool) : Prop where
  ptr : b.ptr = dst + BitVec.ofNat 32 (bits.length / 8)
  fill : b.fill.toNat = bits.length % 8
  written : ∀ k < 8 * (bits.length / 8), streamBit m dst.toNat k = bits.getD k false
  pending : ∀ j < 8, b.acc.getLsbD (7 - j) = bits.getD (8 * (bits.length / 8) + j) false

/-- ACC with one more bit, below the pending ones (R241). -/
def BitBuf.accWith (b : BitBuf) (x : Bool) : Byte :=
  b.acc ||| ((BitVec.ofBool x).setWidth 8 <<< (7 - b.fill.toNat))

theorem BitBuf.appendBit_full {b : BitBuf} (x : Bool) (h : b.fill.toNat + 1 = 8) :
    b.appendBit x =
      ({ b with ptr := b.ptr + 1, acc := 0, fill := 0 }, [(b.ptr.toNat, b.accWith x)]) := if_pos h

theorem BitBuf.appendBit_room {b : BitBuf} (x : Bool) (h : b.fill.toNat + 1 ≠ 8) :
    b.appendBit x = ({ b with acc := b.accWith x, fill := b.fill + 1 }, []) := if_neg h

theorem BitBuf.flush_empty {b : BitBuf} (h : b.fill.toNat = 0) :
    b.flush = ({ b with isOpen := false }, []) := if_pos (BitVec.eq_of_toNat_eq h)

theorem BitBuf.flush_partial {b : BitBuf} (h : b.fill.toNat ≠ 0) :
    b.flush = ({ b with ptr := b.ptr + 1, acc := 0, fill := 0, isOpen := false },
      [(b.ptr.toNat, b.acc)]) := if_neg fun h0 => h (congrArg BitVec.toNat h0)

theorem BitBuf.holds_openAt (m : Dmem) (dst : Word) : (BitBuf.openAt dst).Holds m dst [] :=
  ⟨by simp [openAt], rfl, by simp, by simp [openAt]⟩

theorem getD_concat (xs : List Bool) (x : Bool) (k : Nat) :
    (xs ++ [x]).getD k false = (xs.getD k false || (decide (k = xs.length) && x)) := by
  rcases Nat.lt_trichotomy k xs.length with h | rfl | h
  · rw [List.getD_append _ _ _ _ h, decide_eq_false h.ne, Bool.false_and, Bool.or_false]
  · simp
  · have h' : (xs ++ [x]).length ≤ k := by simpa using h
    rw [List.getD_eq_default _ _ h.le, List.getD_eq_default _ _ h', decide_eq_false h.ne']
    rfl

/-- A bit enters ACC at the place of its number in the stream (R241). -/
theorem BitBuf.getLsbD_accWith (b : BitBuf) (x : Bool) {j : Nat} (hj : j < 8) :
    (b.accWith x).getLsbD (7 - j) =
      (b.acc.getLsbD (7 - j) || (decide (j = b.fill.toNat) && x)) := by
  have hfill := b.fill.isLt
  rw [accWith, BitVec.getLsbD_or, BitVec.getLsbD_shiftLeft, BitVec.getLsbD_setWidth,
    BitVec.getLsbD_ofBool]
  congr 1
  by_cases h : j = b.fill.toNat
  · have hlt : 7 - b.fill.toNat < 8 := by omega
    simp [h, hlt]
  · obtain hout | hout : 7 - j < 7 - b.fill.toNat ∨ 7 - j - (7 - b.fill.toNat) ≠ 0 := by omega
    · simp [h, hout]
    · simp [h, hout]

theorem streamBit_setByte_same (m : Dmem) {a k : Nat} (b : Byte) {i : Nat} (hk : k / 8 = i) :
    streamBit (m.setByte (a + i) b) a k = b.getLsbD (7 - k % 8) := by
  rw [streamBit, hk, Dmem.byte_setByte_same]

theorem streamBit_setByte_other (m : Dmem) {a k : Nat} (b : Byte) {i : Nat} (hk : k / 8 ≠ i) :
    streamBit (m.setByte (a + i) b) a k = streamBit m a k := by
  rw [streamBit, Dmem.byte_setByte_other _ _ (by omega), streamBit]

section
variable {b : BitBuf} {m : Dmem} {dst : Word} {bits : List Bool} (h : b.Holds m dst bits)
include h

/-- Where no address wraps, BBPTR is the byte of the stream that is pending. -/
theorem BitBuf.Holds.ptr_toNat (hw : dst.toNat + bits.length / 8 < 2 ^ 32) :
    b.ptr.toNat = dst.toNat + bits.length / 8 := by
  rw [h.ptr, BitVec.toNat_add, BitVec.toNat_ofNat]
  omega

/-- The completed bytes and the pending one written behind them read as the bits of the stream (R241, R242). -/
theorem BitBuf.Holds.streamBit_setByte {acc : Byte} {bits' : List Bool} {i : Nat}
    (hi : bits.length / 8 = i) (hold : ∀ k < 8 * i, bits'.getD k false = bits.getD k false)
    (hacc : ∀ j < 8, acc.getLsbD (7 - j) = bits'.getD (8 * i + j) false) :
    ∀ k < 8 * (i + 1),
      streamBit (m.setByte (dst.toNat + i) acc) dst.toNat k = bits'.getD k false := by
  intro k hk
  by_cases hki : k / 8 = i
  · rw [streamBit_setByte_same m acc hki, hacc _ (Nat.mod_lt _ (by decide)), ← hki,
      Nat.div_add_mod]
  · rw [streamBit_setByte_other m acc hki, h.written k (by omega), hold k (by omega)]

/-- One bit appended (R241). -/
theorem BitBuf.Holds.appendBit (x : Bool) (hw : dst.toNat + (bits.length + 1) / 8 ≤ 2 ^ 32) :
    (b.appendBit x).1.Holds (m.setBytes (b.appendBit x).2) dst (bits ++ [x]) := by
  have hfill := h.fill
  have hmoved := b.appendBit_advanced x
  have hlen : (bits ++ [x]).length = bits.length + 1 := List.length_append
  have hdiv : (bits.length + 1) / 8 = bits.length / 8 + (b.fill.toNat + 1) / 8 := by omega
  have hold : ∀ k < 8 * (bits.length / 8), (bits ++ [x]).getD k false = bits.getD k false :=
    fun k hk => List.getD_append _ _ _ _ (by omega)
  have hacc : ∀ j < 8, (b.accWith x).getLsbD (7 - j) =
      (bits ++ [x]).getD (8 * (bits.length / 8) + j) false := fun j hj => by
    rw [b.getLsbD_accWith x hj, h.pending j hj, getD_concat]
    congr 3
    rw [eq_iff_iff]
    omega
  have hptr : (b.appendBit x).1.ptr = dst + BitVec.ofNat 32 ((bits ++ [x]).length / 8) := by
    rw [hmoved.ptr, h.ptr, hlen, hdiv, BitVec.ofNat_add, BitVec.add_assoc]
  have hroom : b.fill.toNat + 1 ≠ 8 → (b.fill.toNat + 1) / 8 = 0 := fun _ => by omega
  refine ⟨hptr, by rw [hmoved.fill, hlen]; omega, ?_, ?_⟩ <;> rw [hlen, hdiv] <;>
    by_cases hfull : b.fill.toNat + 1 = 8
  · rw [BitBuf.appendBit_full x hfull, hfull, h.ptr_toNat (by omega)]
    exact h.streamBit_setByte rfl hold hacc
  · rw [BitBuf.appendBit_room x hfull, hroom hfull]
    exact fun k hk => (h.written k hk).trans (hold k hk).symm
  · rw [BitBuf.appendBit_full x hfull, hfull]
    intro j hj
    rw [List.getD_eq_default _ _ (by omega)]
    exact BitVec.getLsbD_zero
  · rw [BitBuf.appendBit_room x hfull, hroom hfull]
    exact hacc

/-- Bits appended in their order (R241). -/
theorem BitBuf.Holds.appendBits (xs : List Bool)
    (hw : dst.toNat + (bits.length + xs.length) / 8 ≤ 2 ^ 32) :
    (b.appendBits xs).1.Holds (m.setBytes (b.appendBits xs).2) dst (bits ++ xs) := by
  induction xs generalizing b m bits with
  | nil => simpa [BitBuf.appendBits] using h
  | cons x xs ih =>
    rw [List.length_cons] at hw
    have h' := ih (h.appendBit x (by omega)) (by simp; omega)
    rwa [← Dmem.setBytes_append, List.append_assoc] at h'

/-- Codes appended in their order (R212). -/
theorem BitBuf.Holds.appendCodes (cs : List Code)
    (hw : dst.toNat + (bits.length + (codeBits cs).length) / 8 ≤ 2 ^ 32) :
    (b.appendCodes cs).1.Holds (m.setBytes (b.appendCodes cs).2) dst (bits ++ codeBits cs) := by
  induction cs generalizing b m bits with
  | nil => simpa [BitBuf.appendCodes, codeBits] using h
  | cons c cs ih =>
    rw [codeBits_cons, List.length_append] at hw
    obtain ⟨hptr, hfill, hwritten, hpending⟩ := h.appendBits (patternBits c.pat c.len) (by omega)
    have happend : (b.append c.pat c.len).1.Holds (m.setBytes (b.append c.pat c.len).2) dst
        (bits ++ patternBits c.pat c.len) := ⟨hptr, hfill, hwritten, hpending⟩
    have h' := ih happend (by rw [List.length_append]; omega)
    rwa [← Dmem.setBytes_append, List.append_assoc] at h'

theorem BitBuf.Holds.acc_eq_zero (h0 : b.fill.toNat = 0) : b.acc = 0 := by
  have hfill := h.fill
  refine BitVec.eq_of_getLsbD_eq fun i hi => ?_
  have hbit := h.pending (7 - i) (by omega)
  rw [Nat.sub_sub_self (by omega), List.getD_eq_default _ _ (by omega)] at hbit
  exact hbit.trans BitVec.getLsbD_zero.symm

/-- The flush leaves the stream closed behind its last byte, with nothing pending (R242). -/
theorem BitBuf.Holds.flush_eq : b.flush.1 =
    ⟨dst + BitVec.ofNat 32 (ceil8 bits.length), 0, 0, false, b.tot⟩ := by
  have hfill := h.fill
  by_cases h0 : b.fill.toNat = 0
  · have hceil : ceil8 bits.length = bits.length / 8 := by unfold ceil8; omega
    have hfill0 : b.fill = 0 := BitVec.eq_of_toNat_eq h0
    rw [hceil, ← h.ptr, BitBuf.flush_empty h0, h.acc_eq_zero h0, hfill0]
  · have hceil : ceil8 bits.length = bits.length / 8 + 1 := by unfold ceil8; omega
    rw [hceil, BitVec.ofNat_add, ← BitVec.add_assoc, ← h.ptr, BitBuf.flush_partial h0]
    rfl

/-- With the bytes completed before it the flush makes up the bytes that the bits reach into (R242). -/
theorem BitBuf.Holds.flush_length : bits.length / 8 + b.flush.2.length = ceil8 bits.length := by
  have hfill := h.fill
  unfold ceil8
  by_cases h0 : b.fill.toNat = 0
  · rw [BitBuf.flush_empty h0, List.length_nil]
    omega
  · rw [BitBuf.flush_partial h0, List.length_singleton]
    omega

/-- After the flush the stream's bytes are its bits, padded with 0 (R242). -/
theorem BitBuf.Holds.streamBit_flush (hw : dst.toNat + ceil8 bits.length ≤ 2 ^ 32) :
    ∀ k < 8 * ceil8 bits.length,
      streamBit (m.setBytes b.flush.2) dst.toNat k = bits.getD k false := by
  have hfill := h.fill
  unfold ceil8 at *
  intro k hk
  by_cases h0 : b.fill.toNat = 0
  · rw [BitBuf.flush_empty h0]
    exact h.written k (by omega)
  · rw [BitBuf.flush_partial h0, h.ptr_toNat (by omega)]
    exact h.streamBit_setByte rfl (fun _ _ => rfl) h.pending k (by omega)

end

end Sys2Proof.Machine
end

section
/-! PROOFS. HENC: its checks, the tables it fills and the payload it leaves (44_huffman.md R207 to R212; 60_exceptions.md R262, R264). -/

namespace Sys2Proof.Machine

/-! ### Checks (R207, R212, R262) -/

/-- Checks made after checks are checks of one list (R115). -/
theorem checked_checked (cs ds : List Check) (run : Unit → Result) :
    checked cs (fun _ => checked ds run) = checked (cs ++ ds) run := by
  unfold checked
  rw [firstError_append]
  cases firstError cs <;> rfl

/-- With every check passed the command completes by what it does (R112). -/
theorem exec_checked_ok {i : Instr} {s : State} {cs : List Check} {run : Unit → Result}
    (hi : resultOf i s.operands = checked cs run) (h : firstError cs = none) :
    exec i s = .next (s.complete (run ())) := by
  rw [exec_eq, hi, checked_ok _ _ h]

/-- All of HENC's checks, in their order (R212). -/
def hencAllChecks (a : Arch) : List Check :=
  checkSpan a.dmem a.regs.src.toNat a.regs.count.toNat 1 ::
    hencChecks a (hencInput a) (huffmanCodes (hencInput a))

/-- HENC checks the source span before it reads its input, and the rest after (R212). -/
theorem resultOf_henc (a : Arch) :
    resultOf .henc a = checked (hencAllChecks a) fun _ =>
      { effects := hencEffects a (hencInput a) (huffmanCodes (hencInput a)) } :=
  checked_checked [_] _ _

theorem overlongByte_eq_some_iff {cs : List (Nat × Code)} {b : Nat} :
    overlongByte cs = some b ↔
      b < 256 ∧ 32 < (codeOf cs b).len ∧ ∀ c < b, (codeOf cs c).len ≤ 32 := by
  simp only [overlongByte, List.find?_range_eq_some, List.mem_range, decide_eq_true_eq,
    Bool.not_eq_true', decide_eq_false_iff_not, Nat.not_lt, and_left_comm]
  rfl

theorem overlongByte_eq_none_iff {cs : List (Nat × Code)} :
    overlongByte cs = none ↔ ∀ b < 256, (codeOf cs b).len ≤ 32 := by
  simp only [overlongByte, List.find?_eq_none, List.mem_range, decide_eq_true_eq, Nat.not_lt]
  rfl

/-- The first check of HENC to fail, in the order of R212. -/
theorem firstError_hencAllChecks (a : Arch) :
    let bs := hencInput a
    let cs := huffmanCodes bs
    firstError (hencAllChecks a) =
      if inBounds a.dmem a.regs.src.toNat a.regs.count.toNat = false then some (.bounds, 1)
      else if (overlongByte cs).isSome then some (.codeOverflow, (overlongByte cs).getD 0)
      else if inBounds a.dmem a.regs.dst.toNat (ceil8 (totalBits bs cs)) = false then
        some (.bounds, 2)
      else if overlap a.regs.src.toNat a.regs.count.toNat a.regs.dst.toNat
          (ceil8 (totalBits bs cs)) = true then
        some (.precondition, 5)
      else none := by
  simp only [hencAllChecks, hencChecks, checkSpan, firstError, Bool.not_eq_true']

/-- HENC's checks pass exactly on these operands (R207, R212). -/
theorem firstError_hencAllChecks_eq_none_iff (a : Arch) :
    let bs := hencInput a
    let cs := huffmanCodes bs
    firstError (hencAllChecks a) = none ↔
      inBounds a.dmem a.regs.src.toNat a.regs.count.toNat = true ∧
        (∀ b < 256, (codeOf cs b).len ≤ 32) ∧
        inBounds a.dmem a.regs.dst.toNat (ceil8 (totalBits bs cs)) = true ∧
        overlap a.regs.src.toNat a.regs.count.toNat a.regs.dst.toNat
          (ceil8 (totalBits bs cs)) = false := by
  dsimp only
  rw [firstError_none, ← overlongByte_eq_none_iff]
  simp [hencAllChecks, hencChecks, checkSpan]

/-- A span in bounds does not reach past 2^32, so that no address in it wraps (R6). -/
theorem inBounds_no_wrap {m : Dmem} {a : Word} {len : Nat} (hs : Config.legalSize m.size)
    (h : inBounds m a.toNat len = true) : a.toNat + len ≤ 2 ^ 32 := by
  rw [inBounds_iff] at h
  obtain ⟨-, -, hmax⟩ := hs
  omega

/-- Settles O27: the first failing check is the first condition of the chain that holds. -/
theorem hencErrors : Obligations.HencErrors := by
  intro s
  dsimp only
  have hfail : ∀ c info, firstError (hencAllChecks s.operands) = some (c, info) →
      exec .henc s = .next (s.failedWith c info) :=
    fun _ _ => exec_checked_failed (resultOf_henc s.operands)
  have herr := firstError_hencAllChecks s.operands
  dsimp only at herr
  have hover := overlongByte_eq_none_iff (cs := huffmanCodes (hencInput s.operands))
  split_ifs with hsrc hlong hdst hoverlap
  · exact hfail _ _ (by rw [herr, if_pos hsrc])
  · obtain ⟨b, hb, hlen⟩ := hlong
    obtain ⟨c, hc⟩ := Option.ne_none_iff_exists'.1
      fun h => (hover.1 h b (List.mem_range.1 hb)).not_gt hlen
    obtain ⟨hlt, hlong, hleast⟩ := overlongByte_eq_some_iff.1 hc
    exact ⟨c, hlt, hlong, hleast, hfail _ _ (by rw [herr, if_neg hsrc, hc]; rfl)⟩
  all_goals
    have hshort := hover.2 fun b hb => Nat.not_lt.1 fun h => hlong ⟨b, List.mem_range.2 hb, h⟩
    rw [if_neg hsrc, hshort, if_neg (by simp)] at herr
  · exact hfail _ _ (by rw [herr, if_pos hdst])
  · exact hfail _ _ (by rw [herr, if_neg hdst, if_pos hoverlap])
  · rw [if_neg hdst, if_neg hoverlap] at herr
    exact ⟨_, exec_checked_ok (resultOf_henc _) herr, rfl⟩

/-! ### Tables (R210, R211) -/

theorem le_foldl_max {α : Type} (f : α → Nat) (l : List α) (m : Nat) :
    m ≤ l.foldl (fun m x => max m (f x)) m ∧
      ∀ x ∈ l, f x ≤ l.foldl (fun m x => max m (f x)) m := by
  induction l generalizing m with
  | nil => simp
  | cons y l ih =>
    obtain ⟨hm, hl⟩ := ih (max m (f y))
    exact ⟨(le_max_left _ _).trans hm,
      List.forall_mem_cons.2 ⟨(le_max_right _ _).trans hm, hl⟩⟩

theorem foldl_max_mem {α : Type} (f : α → Nat) (l : List α) (m : Nat) :
    l.foldl (fun m x => max m (f x)) m = m ∨
      ∃ x ∈ l, f x = l.foldl (fun m x => max m (f x)) m := by
  induction l generalizing m with
  | nil => exact .inl rfl
  | cons y l ih =>
    obtain h | ⟨x, hx, h⟩ := ih (max m (f y))
    · rw [List.foldl_cons, h]
      obtain h' | h' := max_choice m (f y)
      · exact .inl h'
      · exact .inr ⟨y, List.mem_cons_self, h'.symm⟩
    · exact .inr ⟨x, List.mem_cons_of_mem _ hx, h⟩

theorem codedBytes_huffmanCodes (bs : List Byte) :
    codedBytes (huffmanCodes bs) = occurring bs := by
  refine List.filter_congr fun b hb => ?_
  have := (codeOf_len_ne_zero_iff bs b).trans mem_occurring
  simp_all [freqOf_ne_zero_iff]

/-- MAXLEN is the length of the longest code (R211). -/
theorem codeOf_len_le_maxLenOf (cs : List (Nat × Code)) {b : Nat} (hb : b < 256) :
    (codeOf cs b).len ≤ maxLenOf cs := by
  by_cases h : (codeOf cs b).len = 0
  · rw [h]
    exact Nat.zero_le _
  · have hmem : b ∈ codedBytes cs := by simp [codedBytes, hb, h]
    exact (le_foldl_max (fun b => (codeOf cs b).len) (codedBytes cs) 0).2 b hmem

theorem maxLenOf_attained (cs : List (Nat × Code)) :
    maxLenOf cs = 0 ∨ ∃ b < 256, (codeOf cs b).len = maxLenOf cs :=
  (foldl_max_mem (fun b => (codeOf cs b).len) (codedBytes cs) 0).imp_right
    fun ⟨b, hb, h⟩ => ⟨b, List.mem_range.1 (List.mem_filter.1 hb).1, h⟩

theorem entryAt_dtabOf (cs : List (Nat × Code)) {i : Nat} (hi : i < 256) :
    entryAt (dtabOf cs) i ⟨0, 0, 0⟩ =
      ((codedBytes cs)[i]?.map (dtabEntryOf cs)).getD ⟨0, 0, 0⟩ := by
  rw [dtabOf, entryAt_tableOf _ _ hi, List.getD_eq_getElem?_getD, List.getElem?_map]

theorem toNat_ofNat6 {n : Nat} (h : n ≤ 32) : (BitVec.ofNat 6 n).toNat = n := by
  rw [BitVec.toNat_ofNat]
  omega

/-! ### Payload (R212) -/

theorem codesLength_cons (c : Code) (cs : List Code) :
    codesLength (c :: cs) = c.len + codesLength cs := rfl

theorem BitBuf.append_tot (b : BitBuf) (pat len : Nat) :
    (b.append pat len).1.tot = b.tot + BitVec.ofNat 64 len := rfl

/-- BBTOT counts the bits of the codes, modulo 2^64 (R241). -/
theorem BitBuf.appendCodes_tot (b : BitBuf) (cs : List Code) :
    (b.appendCodes cs).1.tot = b.tot + BitVec.ofNat 64 (codesLength cs) := by
  induction cs generalizing b with
  | nil => simp [appendCodes, codesLength]
  | cons c cs ih =>
    rw [appendCodes, ih, append_tot, codesLength_cons, BitVec.ofNat_add, BitVec.add_assoc]

/-- The codes of the input bytes in their order, as bits (R212). -/
def payloadCodeBits (bs : List Byte) (cs : List (Nat × Code)) : List Bool :=
  codeBits (bs.map fun b => codeOf cs b.toNat)

theorem payloadCodeBits_length (bs : List Byte) (cs : List (Nat × Code)) :
    (payloadCodeBits bs cs).length = totalBits bs cs := by
  rw [payloadCodeBits, codeBits_length, codesLength_eq_totalBits]

section
variable {dst : Word} {bs : List Byte} {cs : List (Nat × Code)}
  (hw : dst.toNat + ceil8 (totalBits bs cs) ≤ 2 ^ 32)
include hw

/-- Before the flush the buffer holds the payload's bits, in any memory it writes to. -/
theorem holds_payload (m : Dmem) :
    let p := (BitBuf.openAt dst).appendCodes (bs.map fun b => codeOf cs b.toNat)
    p.1.Holds (m.setBytes p.2) dst (payloadCodeBits bs cs) := by
  refine (BitBuf.holds_openAt m dst).appendCodes _ ?_
  have hlen := payloadCodeBits_length bs cs
  unfold payloadCodeBits ceil8 at *
  simp only [List.length_nil]
  omega

/-- HENC leaves the bit buffer closed behind the payload (R212). -/
theorem payload_bitBuf : (payload dst bs cs).1 =
    ⟨dst + BitVec.ofNat 32 (ceil8 (totalBits bs cs)), 0, 0, false,
      BitVec.ofNat 64 (totalBits bs cs)⟩ := by
  rw [payload, (holds_payload hw ⟨0, 0, []⟩).flush_eq, BitBuf.appendCodes_tot,
    payloadCodeBits_length, codesLength_eq_totalBits]
  simp [BitBuf.openAt]

theorem payload_length : (payload dst bs cs).2.length = ceil8 (totalBits bs cs) := by
  have hflush := (holds_payload hw ⟨0, 0, []⟩).flush_length
  have haddr := congrArg List.length
    ((BitBuf.openAt dst).appendCodes_advanced (bs.map fun b => codeOf cs b.toNat)).addresses
  rw [List.length_map, List.length_map, List.length_range, codesLength_eq_totalBits] at haddr
  rw [payloadCodeBits_length] at hflush
  rw [payload, List.length_append, haddr, ← hflush]
  simp [BitBuf.openAt]

/-- The payload's bytes are the codes of the input bytes, padded with 0 (R212, R242). -/
theorem streamBit_payload (m : Dmem) {k : Nat} (hk : k < 8 * ceil8 (totalBits bs cs)) :
    streamBit (m.setBytes (payload dst bs cs).2) dst.toNat k =
      (payloadCodeBits bs cs).getD k false := by
  rw [payload, Dmem.setBytes_append]
  rw [← payloadCodeBits_length] at hw hk
  exact (holds_payload (by rwa [← payloadCodeBits_length]) m).streamBit_flush hw k hk

end

/-- What HENC leaves besides DMEM, the tables and MAXLEN (R211, R212). -/
theorem complete_hencEffects (s : State) {a : Arch} {bs : List Byte} {cs : List (Nat × Code)}
    (hw : a.regs.dst.toNat + ceil8 (totalBits bs cs) ≤ 2 ^ 32) :
    let t := s.complete { effects := hencEffects a bs cs }
    t = { s with
      regs :=
        { s.regs with
          busy := false, done := true, errcode := 0, errinfo := 0
          outcnt := BitVec.ofNat 32 (ceil8 (totalBits bs cs))
          bitcnt := BitVec.ofNat 64 (totalBits bs cs)
          dtcnt := BitVec.ofNat 9 (codedBytes cs).length
          maxlen := t.regs.maxlen
          bb := ⟨a.regs.dst + BitVec.ofNat 32 (ceil8 (totalBits bs cs)), 0, 0, false,
            BitVec.ofNat 64 (totalBits bs cs)⟩ }
      etab := t.etab, dtab := t.dtab, dmem := t.dmem, inFlight := none } := by
  simp only [State.complete, completeStatus, Effects.applyRegs, Effects.outcnt, hencEffects,
    Option.getD_some, payload_bitBuf hw, payload_length hw]

/-- Settles O26: the effects of HENC are the tables of the codes and the payload of the input. -/
theorem hencCompletes : Obligations.HencCompletes := by
  intro s a bs cs total dst coded hsize hsrc hshort hdst hoverlap
  have hpass := (firstError_hencAllChecks_eq_none_iff a).2 ⟨hsrc, hshort, hdst, hoverlap⟩
  have hw : dst + ceil8 total ≤ 2 ^ 32 := inBounds_no_wrap hsize hdst
  have hcoded : codedBytes cs = coded := codedBytes_huffmanCodes bs
  have hmax : (BitVec.ofNat 6 (maxLenOf cs)).toNat = maxLenOf cs :=
    toNat_ofNat6 (maxLenOf_le (overlongByte_eq_none_iff.2 hshort))
  have hlen : (payloadCodeBits bs cs).length = total := payloadCodeBits_length bs cs
  refine ⟨_, exec_checked_ok (resultOf_henc _) hpass, ?_, ?_, ?_, ?_, ?_, ?_, ?_, ?_, ?_⟩
  · rw [← hcoded]
    exact complete_hencEffects s hw
  · exact s.dmem.sameOutside_setBytes fun c hc =>
      inSpans_single.2 (payload_mem (codesLength_eq_totalBits bs cs) hw hc)
  · exact fun b hb => hmax ▸ codeOf_len_le_maxLenOf cs hb
  · exact hmax ▸ maxLenOf_attained cs
  · exact fun b hb => entryAt_tableOf _ _ hb
  · intro i hi
    refine (entryAt_dtabOf cs hi).trans ?_
    rw [hcoded]
    cases coded[i]? <;> rfl
  · exact hlen
  · exact fun k hk => streamBit_payload hw s.dmem (by unfold ceil8; omega)
  · intro k hk hk'
    exact (streamBit_payload hw s.dmem hk').trans (List.getD_eq_default _ _ (hlen.trans_le hk))

end Sys2Proof.Machine
end

section
/-! PROOFS. The decode table: ValidateDTAB finds the first entry that makes it unusable, and HDEC's checks in their order (44_huffman.md R217, R219; 60_exceptions.md R262, R264). -/

namespace Sys2Proof.Machine

/-! ### Validation (R217) -/

/-- Entry `e` may follow the entries `seen` in a decode table (R217). -/
def entryUsable (seen : List DtabEntry) (e : DtabEntry) : Prop :=
  (1 ≤ e.len.toNat ∧ e.len.toNat ≤ 32 ∧ e.code.toNat < 2 ^ e.len.toNat) ∧
    ∀ d ∈ seen, ¬ (d.code = e.code ∧ d.len = e.len)

theorem tableUsable_nil : tableUsable [] := ⟨nofun, .nil⟩

theorem tableUsable_concat (t : List DtabEntry) (e : DtabEntry) :
    tableUsable (t ++ [e]) ↔ tableUsable t ∧ entryUsable t e := by
  simp only [tableUsable, entryUsable, List.pairwise_append, List.forall_mem_append,
    List.forall_mem_singleton, List.pairwise_singleton, true_and]
  tauto

theorem tableUsable.append_left {t u : List DtabEntry} (h : tableUsable (t ++ u)) :
    tableUsable t :=
  ⟨(List.forall_mem_append.1 h.1).1, (List.pairwise_append.1 h.2).1⟩

/-- ValidateDTAB goes on past an entry exactly where the entry is usable (R217). -/
theorem firstBadEntry_cons (t es : List DtabEntry) (e : DtabEntry) (i : Nat) :
    (entryUsable t e ∧ firstBadEntry t.reverse (e :: es) i =
        firstBadEntry (t ++ [e]).reverse es (i + 1)) ∨
      (¬ entryUsable t e ∧ firstBadEntry t.reverse (e :: es) i = some i) := by
  have hreverse : (t ++ [e]).reverse = e :: t.reverse := by simp
  have hseen : (t.reverse.any fun d => d.code == e.code && d.len == e.len) = true ↔
      ¬ ∀ d ∈ t, ¬ (d.code = e.code ∧ d.len = e.len) := by simp
  rw [firstBadEntry, hreverse]
  unfold entryUsable Config.codeMax
  split_ifs with hlen hcode hkey
  · exact .inr ⟨by omega, rfl⟩
  · exact .inr ⟨by omega, rfl⟩
  · exact .inr ⟨fun h => hseen.1 hkey h.2, rfl⟩
  · exact .inl ⟨⟨by omega, not_not.1 (mt hseen.2 hkey)⟩, rfl⟩

/-- ValidateDTAB finds the first entry that makes the table unusable, the entries `t` before it being usable (R217). -/
theorem firstBadEntry_spec {t : List DtabEntry} (ht : tableUsable t) (es : List DtabEntry)
    (i : Nat) :
    (firstBadEntry t.reverse es i = none ∧ tableUsable (t ++ es)) ∨
      ∃ l < es.length, firstBadEntry t.reverse es i = some (i + l) ∧
        tableUsable (t ++ es.take l) ∧ ¬ tableUsable (t ++ es.take (l + 1)) := by
  induction es generalizing t i with
  | nil => exact .inl ⟨rfl, by rwa [List.append_nil]⟩
  | cons e es ih =>
    obtain ⟨he, heq⟩ | ⟨he, heq⟩ := firstBadEntry_cons t es e i
    · rw [heq]
      obtain ⟨hnone, hall⟩ | ⟨l, hl, hsome, hbefore, hbad⟩ :=
        ih ((tableUsable_concat t e).2 ⟨ht, he⟩) (i + 1)
      · exact .inl ⟨hnone, by rwa [List.append_assoc] at hall⟩
      · refine .inr ⟨l + 1, Nat.succ_lt_succ hl, ?_, ?_, ?_⟩
        · rw [hsome, Nat.add_assoc, Nat.add_comm 1]
        · rwa [List.append_assoc] at hbefore
        · rwa [List.append_assoc] at hbad
    · refine .inr ⟨0, Nat.zero_lt_succ _, heq, by simpa using ht, fun h => he ?_⟩
      exact ((tableUsable_concat t e).1 h).2

theorem decodeTable_length {a : Arch} (h : a.regs.dtcnt.toNat ≤ 256) :
    (decodeTable a).length = a.regs.dtcnt.toNat := by
  simp [decodeTable, h]

/-- MALFORMED's value, and none for a usable table (R217). -/
theorem malformed_of_unusable {a : Arch} (h : a.regs.dtcnt.toNat ≤ 256)
    (hbad : ¬ tableUsable (decodeTable a)) :
    ∃ i < (decodeTable a).length, tableUsable ((decodeTable a).take i) ∧
      ¬ tableUsable ((decodeTable a).take (i + 1)) ∧ malformed a = some i := by
  obtain ⟨-, hall⟩ | ⟨i, hi, hsome, hbefore, hafter⟩ :=
    firstBadEntry_spec tableUsable_nil (decodeTable a) 0
  · exact absurd hall hbad
  · refine ⟨i, hi, hbefore, hafter, ?_⟩
    rw [malformed, if_neg (Nat.not_lt.2 h)]
    exact hsome.trans (congrArg some (Nat.zero_add i))

theorem malformed_of_usable {a : Arch} (h : a.regs.dtcnt.toNat ≤ 256)
    (hgood : tableUsable (decodeTable a)) : malformed a = none := by
  obtain ⟨hnone, -⟩ | ⟨i, -, -, -, hbad⟩ := firstBadEntry_spec tableUsable_nil (decodeTable a) 0
  · rw [malformed, if_neg (Nat.not_lt.2 h)]
    exact hnone
  · rw [List.nil_append] at hbad
    refine absurd (tableUsable.append_left (u := (decodeTable a).drop (i + 1)) ?_) hbad
    rwa [List.take_append_drop]

/-! ### Checks (R219, R262) -/

theorem resultOf_hdec (a : Arch) :
    resultOf .hdec a = checked (hdecChecks a) fun _ =>
      { error := (hdecDecode a).2
        effects :=
          { writes := bytesAt a.regs.dst.toNat (hdecDecode a).1
            maxlen := some (BitVec.ofNat 6 (tableMaxLen (decodeTable a))) } } := rfl

/-- The first check of HDEC to fail, in the order of R219. -/
theorem firstError_hdecChecks (a : Arch) :
    firstError (hdecChecks a) =
      if inBounds a.dmem a.regs.src.toNat (ceil8 a.regs.bitcnt.toNat) = false then
        some (.bounds, 1)
      else if inBounds a.dmem a.regs.dst.toNat a.regs.count.toNat = false then some (.bounds, 2)
      else if (malformed a).isSome then some (.malformed, (malformed a).getD 0)
      else if overlap a.regs.src.toNat (ceil8 a.regs.bitcnt.toNat) a.regs.dst.toNat
          a.regs.count.toNat = true then
        some (.precondition, 5)
      else none := by
  simp only [hdecChecks, checkSpan, firstError, Bool.not_eq_true']

/-- Settles O30: the first failing check is the first condition of the chain that holds, and MALFORMED's value is that of the first bad entry. -/
theorem hdecCheckErrors : Obligations.HdecCheckErrors := by
  intro s
  dsimp only
  have hfail : ∀ c info, firstError (hdecChecks s.operands) = some (c, info) →
      exec .hdec s = .next (s.failedWith c info) :=
    fun _ _ => exec_checked_failed (resultOf_hdec s.operands)
  have herr := firstError_hdecChecks s.operands
  split_ifs with hsrc hdst hmany
  · exact hfail _ _ (by rw [herr, if_pos hsrc])
  · exact hfail _ _ (by rw [herr, if_neg hsrc, if_pos hdst])
  · have hbad : malformed s.operands = some s.operands.regs.dtcnt.toNat := if_pos hmany
    exact hfail _ _ (by rw [herr, if_neg hsrc, if_neg hdst, hbad]; rfl)
  · rw [if_neg hsrc, if_neg hdst] at herr
    refine ⟨fun hunusable => ?_, fun husable hoverlap => ?_⟩
    · obtain ⟨i, hi, hbefore, hafter, hbad⟩ := malformed_of_unusable (Nat.not_lt.1 hmany) hunusable
      exact ⟨i, hi, hbefore, hafter, hfail _ _ (by rw [herr, hbad]; rfl)⟩
    · have hgood := malformed_of_usable (Nat.not_lt.1 hmany) husable
      exact hfail _ _ (by rw [herr, hgood, if_neg (by simp), if_pos hoverlap])

end Sys2Proof.Machine
end

section
/-! PROOFS. The decoder: it takes the reachable codes of a payload one by one, and stops where no code matches or no room is left (44_huffman.md R216 to R219; 60_exceptions.md R264). -/

namespace Sys2Proof.Machine

/-! ### Probing (R219) -/

theorem probe_eq_none_iff (t : List DtabEntry) (pat len : Nat) :
    probe t pat len = none ↔ ∀ e ∈ t, ¬ (e.len.toNat = len ∧ e.code.toNat = pat) := by
  simp only [probe, Option.map_eq_none_iff, List.find?_eq_none, Bool.and_eq_true,
    decide_eq_true_eq, and_comm]

/-- A key stands once in a usable table (R217). -/
theorem eq_of_same_key {t : List DtabEntry} (ht : tableUsable t) {d e : DtabEntry} (hd : d ∈ t)
    (he : e ∈ t) (hcode : d.code = e.code) (hlen : d.len = e.len) : d = e := by
  have hsymm : Std.Symm fun d e : DtabEntry => ¬ (d.code = e.code ∧ d.len = e.len) :=
    ⟨fun _ _ h hkey => h ⟨hkey.1.symm, hkey.2.symm⟩⟩
  by_contra hne
  exact ht.2.forall hd he hne ⟨hcode, hlen⟩

/-- In a usable table an entry is found by its own key (R217). -/
theorem probe_of_mem {t : List DtabEntry} (ht : tableUsable t) {e : DtabEntry} (he : e ∈ t) :
    probe t e.code.toNat e.len.toNat = some e.value := by
  have hsome : probe t e.code.toNat e.len.toNat ≠ none := fun h =>
    (probe_eq_none_iff _ _ _).1 h e he ⟨rfl, rfl⟩
  obtain ⟨v, hv⟩ := Option.ne_none_iff_exists'.1 hsome
  obtain ⟨d, hd, rfl⟩ := Option.map_eq_some_iff.1 hv
  have hkey := List.find?_some hd
  simp only [Bool.and_eq_true, decide_eq_true_eq, BitVec.toNat_inj] at hkey
  obtain ⟨hcode, hlen⟩ := hkey
  rw [hv, eq_of_same_key ht (List.mem_of_find?_eq_some hd) he hcode hlen]

theorem probe_eq_none_of_noMatch {t : List DtabEntry} {bits : List Bool} {n j : Nat}
    (h : noMatchWithin t bits n) (hj : 1 ≤ j) (hjn : j ≤ n) :
    probe t (bitsValue (bits.take j)) j = none := (probe_eq_none_iff _ _ _).2 (h j hj hjn)

theorem noMatchWithin.mono {t : List DtabEntry} {bits : List Bool} {n m : Nat}
    (h : noMatchWithin t bits n) (hm : m ≤ n) : noMatchWithin t bits m :=
  fun j hj hjm => h j hj (hjm.trans hm)

/-! ### One bit (R219) -/

section
variable {t : List DtabEntry} {M cap pat len i n : Nat} {x : Bool} {xs : List Bool} {v : Byte}

theorem decodeBits_miss (h : probe t (2 * pat + x.toNat) (len + 1) = none) (hM : len + 1 ≤ M) :
    decodeBits t M cap (x :: xs) i pat len n =
      decodeBits t M cap xs (i + 1) (2 * pat + x.toNat) (len + 1) n := by
  simp only [decodeBits, h, if_neg (Nat.not_lt.2 hM)]

theorem decodeBits_overlong (h : probe t (2 * pat + x.toNat) (len + 1) = none)
    (hM : M < len + 1) :
    decodeBits t M cap (x :: xs) i pat len n = ([], some (.decodeMismatch, i)) := by
  simp only [decodeBits, h, if_pos hM]

theorem decodeBits_full (h : probe t (2 * pat + x.toNat) (len + 1) = some v) :
    decodeBits t M cap (x :: xs) i pat len cap = ([], some (.bounds, 4)) := by
  simp only [decodeBits, h, if_pos]

theorem decodeBits_hit (h : probe t (2 * pat + x.toNat) (len + 1) = some v) (hn : n ≠ cap) :
    decodeBits t M cap (x :: xs) i pat len n =
      (v :: (decodeBits t M cap xs (i + 1) 0 0 (n + 1)).1,
        (decodeBits t M cap xs (i + 1) 0 0 (n + 1)).2) := by
  simp only [decodeBits, h, if_neg hn]

end

/-! ### Codes (R219) -/

section
variable {t : List DtabEntry} {M cap : Nat} {bits : List Bool}

/-- While no code matches and the accumulator is no longer than MAXLEN, the decoder accumulates (R219). -/
theorem decodeBits_accumulate {k : Nat} (i n : Nat) (hmiss : noMatchWithin t bits k)
    (hM : k ≤ M) (hk : k ≤ bits.length) :
    decodeBits t M cap bits i 0 0 n =
      decodeBits t M cap (bits.drop k) (i + k) (bitsValue (bits.take k)) k n := by
  induction k with
  | zero => rfl
  | succ k ih =>
    have htake : bitsValue (bits.take (k + 1)) = 2 * bitsValue (bits.take k) + bits[k].toNat := by
      rw [List.take_succ_eq_append_getElem hk, bitsValue_concat]
    have hprobe := probe_eq_none_of_noMatch hmiss (Nat.le_add_left 1 k) le_rfl
    rw [htake] at hprobe
    rw [ih (hmiss.mono (Nat.le_succ k)) (by omega) (by omega), List.drop_eq_getElem_cons hk,
      decodeBits_miss hprobe hM, ← htake, Nat.add_assoc]

/-- No code of the table matches before the end of a reachable one (R217). -/
theorem noMatchWithin_of_reachable {e : DtabEntry} (he : reachableEntry t e)
    (hcode : e.code.toNat < 2 ^ e.len.toNat) (rest : List Bool) :
    noMatchWithin t (patternBits e.code.toNat e.len.toNat ++ rest) (e.len.toNat - 1) := by
  rintro j hj hjlen d hd ⟨hlen, hpat⟩
  rw [List.take_append_of_le_length (by rw [patternBits_length]; omega),
    bitsValue_patternBits_take hcode (by omega), ← hlen] at hpat
  exact he.2 d hd (by omega) hpat.symm

theorem len_le_tableMaxLen {e : DtabEntry} (he : e ∈ t) : e.len.toNat ≤ tableMaxLen t :=
  (le_foldl_max (fun e : DtabEntry => e.len.toNat) t 0).2 e he

/-- The decoder comes to the last bit of a reachable code, and there its entry is found (R219). -/
theorem decodeBits_reachable (ht : tableUsable t) {e : DtabEntry} (he : reachableEntry t e)
    (rest : List Bool) (i n : Nat) :
    ∃ pat x len, len + 1 = e.len.toNat ∧
      probe t (2 * pat + x.toNat) (len + 1) = some e.value ∧
      decodeBits t (tableMaxLen t) cap (patternBits e.code.toNat e.len.toNat ++ rest) i 0 0 n =
        decodeBits t (tableMaxLen t) cap (x :: rest) (i + len) pat len n := by
  obtain ⟨hpos, -, hcode⟩ := ht.1 e he.1
  obtain ⟨len, hlen⟩ := Nat.exists_eq_add_of_le' hpos
  have hmiss := noMatchWithin_of_reachable he hcode rest
  have hM := len_le_tableMaxLen he.1
  have hprobe := probe_of_mem ht he.1
  rw [hlen] at hcode hmiss hM hprobe ⊢
  have hbits := patternBits_succ e.code.toNat len
  have hinit : (patternBits (e.code.toNat / 2) len).length = len := patternBits_length _ _
  refine ⟨bitsValue (patternBits (e.code.toNat / 2) len), e.code.toNat.testBit 0, len, rfl, ?_, ?_⟩
  · rwa [← bitsValue_concat, ← hbits, bitsValue_patternBits hcode]
  · rw [decodeBits_accumulate i n hmiss (by omega) (by simp [patternBits_length]; omega), hbits,
      List.append_assoc, Nat.add_sub_cancel, List.drop_left' hinit, List.take_left' hinit]
    rfl

theorem decodeBits_code (ht : tableUsable t) {e : DtabEntry} (he : reachableEntry t e)
    (rest : List Bool) (i : Nat) {n : Nat} (hn : n ≠ cap) :
    let p := decodeBits t (tableMaxLen t) cap rest (i + e.len.toNat) 0 0 (n + 1)
    decodeBits t (tableMaxLen t) cap (patternBits e.code.toNat e.len.toNat ++ rest) i 0 0 n =
      (e.value :: p.1, p.2) := by
  obtain ⟨pat, x, len, hlen, hprobe, hwalk⟩ := decodeBits_reachable (cap := cap) ht he rest i n
  rw [hwalk, decodeBits_hit hprobe hn, Nat.add_assoc, hlen]

/-- With no room left a code ends the decoding (R219). -/
theorem decodeBits_code_full (ht : tableUsable t) {e : DtabEntry} (he : reachableEntry t e)
    (rest : List Bool) (i : Nat) :
    decodeBits t (tableMaxLen t) cap (patternBits e.code.toNat e.len.toNat ++ rest) i 0 0 cap =
      ([], some (.bounds, 4)) := by
  obtain ⟨pat, x, len, -, hprobe, hwalk⟩ := decodeBits_reachable (cap := cap) ht he rest i cap
  rw [hwalk, decodeBits_full hprobe]

/-- A sequence of reachable codes decodes to their bytes, one after another (R219). -/
theorem decodeBits_codes (ht : tableUsable t) {es : List DtabEntry}
    (hes : ∀ e ∈ es, reachableEntry t e) (rest : List Bool) (i : Nat) {n : Nat}
    (hn : n + es.length ≤ cap) :
    let codes := codeBits (es.map DtabEntry.asCode)
    let p := decodeBits t (tableMaxLen t) cap rest (i + codes.length) 0 0 (n + es.length)
    decodeBits t (tableMaxLen t) cap (codes ++ rest) i 0 0 n =
      (es.map DtabEntry.value ++ p.1, p.2) := by
  induction es generalizing i n with
  | nil => rfl
  | cons e es ih =>
    obtain ⟨he, hes⟩ := List.forall_mem_cons.1 hes
    rw [List.length_cons] at hn
    have hhead : codeBits ((e :: es).map DtabEntry.asCode) =
        patternBits e.code.toNat e.len.toNat ++ codeBits (es.map DtabEntry.asCode) := rfl
    have hlen : ∀ k, i + e.len.toNat + k = i + (e.len.toNat + k) := Nat.add_assoc _ _
    dsimp only
    rw [hhead, List.append_assoc, decodeBits_code ht he _ i (by omega),
      ih hes (i + e.len.toNat) (by omega), List.length_append, patternBits_length, hlen,
      List.length_cons, Nat.add_assoc n, Nat.add_comm 1]
    rfl

/-- Bits that end inside a code (R219). -/
theorem decodeBits_ended (i n : Nat) (hne : bits ≠ []) (hlen : bits.length ≤ M)
    (hmiss : noMatchWithin t bits bits.length) :
    decodeBits t M cap bits i 0 0 n = ([], some (.decodeMismatch, i + bits.length)) := by
  have hpos : bits.length ≠ 0 := mt List.length_eq_zero_iff.1 hne
  rw [decodeBits_accumulate i n hmiss hlen le_rfl, List.drop_length, decodeBits, if_pos hpos]

/-- Bits that match no code up to the first that makes the accumulator longer than MAXLEN (R219). -/
theorem decodeBits_mismatch (i n : Nat) (hlen : M < bits.length)
    (hmiss : noMatchWithin t bits (M + 1)) :
    decodeBits t M cap bits i 0 0 n = ([], some (.decodeMismatch, i + M)) := by
  have hprobe := probe_eq_none_of_noMatch hmiss (Nat.le_add_left 1 M) le_rfl
  rw [List.take_succ_eq_append_getElem hlen, bitsValue_concat] at hprobe
  rw [decodeBits_accumulate i n (hmiss.mono (Nat.le_succ M)) le_rfl hlen.le,
    List.drop_eq_getElem_cons hlen, decodeBits_overlong hprobe (Nat.lt_succ_self M)]

end

/-! ### HDEC (R219) -/

/-- The operands on which HDEC goes on to decode (R217, R219). -/
structure Arch.DecodeReady (a : Arch) : Prop where
  source : inBounds a.dmem a.regs.src.toNat (ceil8 a.regs.bitcnt.toNat) = true
  room : inBounds a.dmem a.regs.dst.toNat a.regs.count.toNat = true
  count : a.regs.dtcnt.toNat ≤ 256
  table : tableUsable (decodeTable a)
  apart : overlap a.regs.src.toNat (ceil8 a.regs.bitcnt.toNat) a.regs.dst.toNat
    a.regs.count.toNat = false

theorem Arch.DecodeReady.firstError_eq_none {a : Arch} (h : a.DecodeReady) :
    firstError (hdecChecks a) = none := by
  rw [firstError_hdecChecks, malformed_of_usable h.count h.table]
  simp [h.source, h.room, h.apart]

/-- What HDEC does on a payload that begins with reachable codes: it writes their bytes, and goes on with the rest (R218, R219). -/
theorem exec_hdec_of_codes {s : State} {es : List DtabEntry} {rest : List Bool}
    {error : Option (ErrCode × Nat)} (h : s.operands.DecodeReady)
    (hes : ∀ e ∈ es, reachableEntry (decodeTable s.operands) e)
    (hbits : payloadBits s.operands = codeBits (es.map DtabEntry.asCode) ++ rest)
    (hroom : es.length ≤ s.operands.regs.count.toNat)
    (hrest : decodeBits (decodeTable s.operands) (tableMaxLen (decodeTable s.operands))
      s.operands.regs.count.toNat rest (codeBits (es.map DtabEntry.asCode)).length 0 0 es.length =
        ([], error)) :
    exec .hdec s = .next (s.complete
      { error := error
        effects :=
          { writes := bytesAt s.operands.regs.dst.toNat (es.map DtabEntry.value)
            maxlen := some (BitVec.ofNat 6 (tableMaxLen (decodeTable s.operands))) } }) := by
  have hdecode : hdecDecode s.operands = (es.map DtabEntry.value, error) := by
    have hcodes := decodeBits_codes h.table hes rest 0 ((Nat.zero_add _).trans_le hroom)
    dsimp only at hcodes
    rw [← hbits, Nat.zero_add, Nat.zero_add, hrest, List.append_nil] at hcodes
    exact hcodes
  rw [exec_checked_ok (resultOf_hdec _) h.firstError_eq_none, hdecode]

/-- The bytes of the entries decoded, each at its place, and nothing else written (R219). -/
theorem setBytes_bytesAt_values (m : Dmem) (dst : Nat) (es : List DtabEntry) :
    let m' := m.setBytes (bytesAt dst (es.map DtabEntry.value))
    m.sameOutside m' [(dst, es.length)] ∧
      ∀ i, (h : i < es.length) → m'.byte (dst + i) = es[i].value := by
  refine ⟨m.sameOutside_setBytes fun c hc => inSpans_single.2 ?_, fun i hi => ?_⟩
  · simpa using bytesAt_mem _ _ _ hc
  · rw [m.byte_bytesAt _ _ _ (by simpa using hi), List.getElem_map]

theorem bytesAt_values_length (dst : Nat) (es : List DtabEntry) :
    (bytesAt dst (es.map DtabEntry.value)).length = es.length := by
  rw [bytesAt_length, List.length_map]

/-- Settles O29: the payload decodes to its end, with no error. -/
theorem hdecCompletes : Obligations.HdecCompletes := by
  intro s es a tab src dst len hsrc hdst hcount htab hoverlap hes hbits hroom
  have hexec := exec_hdec_of_codes (rest := []) (error := none)
    ⟨hsrc, hdst, hcount, htab, hoverlap⟩ hes (hbits.trans (List.append_nil _).symm) hroom rfl
  obtain ⟨hsame, hbytes⟩ := setBytes_bytesAt_values s.dmem dst es
  have hmax : (BitVec.ofNat 6 (tableMaxLen tab)).toNat = tableMaxLen tab :=
    toNat_ofNat6 (tableMaxLen_le (malformed_of_usable hcount htab))
  have hattained : tableMaxLen tab = 0 ∨ ∃ e ∈ tab, e.len.toNat = tableMaxLen tab :=
    foldl_max_mem _ tab 0
  rw [← hmax] at hattained
  refine ⟨_, hexec, ?_, hsame, fun e he => (len_le_tableMaxLen he).trans_eq hmax.symm, hattained,
    hbytes⟩
  rw [← bytesAt_values_length dst es]
  rfl

/-- Settles O31: the bytes before the error are decoded as ever, and there the rest of the bits ends, matches no code, or gives a byte too many. -/
theorem hdecDecodeErrors : Obligations.HdecDecodeErrors := by
  intro s es rest a tab src dst len count maxlen used hsrc hdst hcount htab hoverlap hes hbits hroom
    c info hcase
  have hrest : decodeBits tab (tableMaxLen tab) count rest used 0 0 es.length =
      ([], some (c, info)) := by
    obtain ⟨hne, hlen, hmiss, rfl, rfl⟩ | ⟨hlen, hmiss, rfl, rfl⟩ |
      ⟨hfull, ⟨e, he, more, rfl⟩, rfl, rfl⟩ := hcase
    · have hbitcnt : used + rest.length = a.regs.bitcnt.toNat := by
        rw [← List.length_append, ← hbits, payloadBits, List.length_map, List.length_range]
      exact hbitcnt ▸ decodeBits_ended used _ hne hlen hmiss
    · exact decodeBits_mismatch used _ hlen hmiss
    · rw [hfull, decodeBits_code_full htab he]
  have hexec := exec_hdec_of_codes ⟨hsrc, hdst, hcount, htab, hoverlap⟩ hes hbits hroom hrest
  obtain ⟨hsame, hbytes⟩ := setBytes_bytesAt_values s.dmem dst es
  refine ⟨_, hexec, ?_, hsame, hbytes⟩
  rw [← bytesAt_values_length dst es]
  rfl

end Sys2Proof.Machine
end

section
/-! PROOFS. HDEC after HENC: the table that HENC leaves is usable and none of its codes begins another, so that its payload is a sequence of reachable codes (44_huffman.md R208, R211, R220). -/

namespace Sys2Proof.Machine

/-- The codes of an input, none longer than CODE_MAX (R207). -/
def shortCodes (bs : List Byte) : Prop := ∀ b < 256, (codeOf (huffmanCodes bs) b).len ≤ 32

section
variable {bs : List Byte} (hshort : shortCodes bs)
include hshort

theorem asCode_dtabEntryOf {b : Nat} (hb : b < 256) :
    (dtabEntryOf (huffmanCodes bs) b).asCode = codeOf (huffmanCodes bs) b := by
  have hlen := hshort b hb
  have hpat := (codeOf_huffmanCodes_pat_lt bs b).trans_le (Nat.pow_le_pow_right two_pos hlen)
  rw [DtabEntry.asCode, dtabEntryOf, toNat_ofNat6 hlen, BitVec.toNat_ofNat, Nat.mod_eq_of_lt hpat]

theorem code_dtabEntryOf {b : Nat} (hb : b < 256) :
    (dtabEntryOf (huffmanCodes bs) b).code.toNat = (codeOf (huffmanCodes bs) b).pat :=
  congrArg Code.pat (asCode_dtabEntryOf hshort hb)

theorem len_dtabEntryOf {b : Nat} (hb : b < 256) :
    (dtabEntryOf (huffmanCodes bs) b).len.toNat = (codeOf (huffmanCodes bs) b).len :=
  congrArg Code.len (asCode_dtabEntryOf hshort hb)

/-- No entry that HENC makes has a code that begins another's (R208). -/
theorem dtabEntryOf_prefixFree {b c : Nat} (hb : b ∈ occurring bs) (hc : c ∈ occurring bs)
    (hne : b ≠ c) :
    let d := dtabEntryOf (huffmanCodes bs) b
    let e := dtabEntryOf (huffmanCodes bs) c
    d.len.toNat ≤ e.len.toNat → e.code.toNat / 2 ^ (e.len.toNat - d.len.toNat) ≠ d.code.toNat := by
  have hb' := (mem_occurring.1 hb).1
  have hc' := (mem_occurring.1 hc).1
  dsimp only
  rw [code_dtabEntryOf hshort hb', code_dtabEntryOf hshort hc', len_dtabEntryOf hshort hb',
    len_dtabEntryOf hshort hc']
  exact huffmanCodesArePrefixFree bs b c hb' hc' hne ((codeOf_len_ne_zero_iff bs b).2 hb)
    ((codeOf_len_ne_zero_iff bs c).2 hc)

theorem tableUsable_dtabEntries :
    tableUsable ((occurring bs).map (dtabEntryOf (huffmanCodes bs))) := by
  refine ⟨List.forall_mem_map.2 fun b hb => ?_, ?_⟩
  · have hb' := (mem_occurring.1 hb).1
    rw [code_dtabEntryOf hshort hb', len_dtabEntryOf hshort hb']
    exact ⟨Nat.one_le_iff_ne_zero.2 ((codeOf_len_ne_zero_iff bs b).2 hb), hshort b hb',
      codeOf_huffmanCodes_pat_lt bs b⟩
  · rw [List.pairwise_map]
    refine (occurring_nodup bs).imp_of_mem fun hb hc hne hkey => ?_
    obtain ⟨hcode, hlen⟩ := hkey
    refine dtabEntryOf_prefixFree hshort hb hc hne (by rw [hlen]) ?_
    rw [hlen, hcode, Nat.sub_self, pow_zero, Nat.div_one]

theorem reachable_dtabEntryOf {b : Nat} (hb : b ∈ occurring bs) :
    reachableEntry ((occurring bs).map (dtabEntryOf (huffmanCodes bs)))
      (dtabEntryOf (huffmanCodes bs) b) := by
  refine ⟨List.mem_map_of_mem hb, List.forall_mem_map.2 fun c hc hlt => ?_⟩
  refine dtabEntryOf_prefixFree hshort hc hb (fun heq => ?_) hlt.le
  exact absurd hlt (heq ▸ lt_irrefl _)

end

theorem occurring_length_le (bs : List Byte) : (occurring bs).length ≤ 256 :=
  (List.length_filter_le _ _).trans (List.length_range (n := 256)).le

theorem toNat_mem_occurring {bs : List Byte} {x : Byte} (hx : x ∈ bs) :
    x.toNat ∈ occurring bs := by
  rw [mem_occurring, BitVec.ofNat_toNat, BitVec.setWidth_eq]
  exact ⟨x.isLt, hx⟩

/-- DTCNT holds the number of distinct bytes, 256 included (R211). -/
theorem toNat_dtcnt (bs : List Byte) :
    (BitVec.ofNat 9 (codedBytes (huffmanCodes bs)).length).toNat = (occurring bs).length := by
  have hle := occurring_length_le bs
  rw [codedBytes_huffmanCodes, BitVec.toNat_ofNat]
  omega

/-- HDEC finds in DTAB the entries that HENC made (R211, R216). -/
theorem decodeTable_of_henc {a : Arch} {bs : List Byte} (hdtab : a.dtab = dtabOf (huffmanCodes bs))
    (hdtcnt : a.regs.dtcnt = BitVec.ofNat 9 (codedBytes (huffmanCodes bs)).length) :
    decodeTable a = (occurring bs).map (dtabEntryOf (huffmanCodes bs)) := by
  have hcount : a.regs.dtcnt.toNat = (occurring bs).length := by rw [hdtcnt, toNat_dtcnt]
  have hle := occurring_length_le bs
  refine List.ext_getElem ?_ fun i hi hi' => ?_
  · rw [decodeTable_length (hcount.trans_le hle), hcount, List.length_map]
  · have hlt : i < (occurring bs).length := by simpa using hi'
    simp [decodeTable, hdtab, dtabOf, tableOf, codedBytes_huffmanCodes, hlt]

/-- HDEC reads the bits that HENC wrote (R212, R216). -/
theorem payloadBits_of_henc {b : Arch} {m : Dmem} {bs : List Byte} {cs : List (Nat × Code)}
    (hw : b.regs.src.toNat + ceil8 (totalBits bs cs) ≤ 2 ^ 32)
    (hbitcnt : b.regs.bitcnt.toNat = totalBits bs cs)
    (hmem : ∀ k < ceil8 (totalBits bs cs), b.dmem.byte (b.regs.src.toNat + k) =
      (m.setBytes (payload b.regs.src bs cs).2).byte (b.regs.src.toNat + k)) :
    payloadBits b = payloadCodeBits bs cs := by
  have hlen := payloadCodeBits_length bs cs
  refine List.ext_getElem (by simp [payloadBits, hbitcnt, hlen]) fun k hk hk' => ?_
  have hceil : k < 8 * ceil8 (totalBits bs cs) := by
    unfold ceil8
    omega
  have hbit := streamBit_payload hw m hceil
  rw [List.getD_eq_getElem _ _ hk', streamBit, ← hmem _ (by omega)] at hbit
  rw [← hbit]
  simp [payloadBits, streamBit]

theorem hencInput_length (a : Arch) : (hencInput a).length = a.regs.count.toNat := by
  simp [hencInput]

/-- The entry that HENC makes for each byte of its input (R211). -/
def inputEntries (bs : List Byte) : List DtabEntry :=
  bs.map fun x => dtabEntryOf (huffmanCodes bs) x.toNat

theorem inputEntries_codes {bs : List Byte} (hshort : shortCodes bs) :
    codeBits ((inputEntries bs).map DtabEntry.asCode) = payloadCodeBits bs (huffmanCodes bs) := by
  rw [inputEntries, List.map_map, payloadCodeBits]
  exact congrArg codeBits (List.map_congr_left fun x _ => asCode_dtabEntryOf hshort x.isLt)

theorem inputEntries_length (a : Arch) :
    (inputEntries (hencInput a)).length = a.regs.count.toNat := by
  rw [inputEntries, List.length_map, hencInput_length]

theorem inputEntries_value (a : Arch) {p : Nat} (hp : p < (inputEntries (hencInput a)).length) :
    (inputEntries (hencInput a))[p].value = a.dmem.byte (a.regs.src.toNat + p) := by
  simp [inputEntries, dtabEntryOf, hencInput]

theorem inBounds_congr {m m' : Dmem} (h : m.size = m'.size) (a len : Nat) :
    inBounds m a len = inBounds m' a len := by rw [inBounds, inBounds, h]

theorem inBounds_length_le {m : Dmem} {a len : Nat} (hs : Config.legalSize m.size)
    (h : inBounds m a len = true) : len ≤ 2 ^ 31 := by
  rw [inBounds_iff] at h
  obtain ⟨-, -, hmax⟩ := hs
  omega

/-- What HENC leaves where it reports no error (R211, R212). -/
theorem henc_succeeded {s t : State} (hsize : Config.legalSize s.operands.dmem.size)
    (ht : exec .henc s = .next t) (herr : t.regs.errcode = 0) :
    let a := s.operands
    let bs := hencInput a
    let cs := huffmanCodes bs
    let total := totalBits bs cs
    shortCodes bs ∧ inBounds a.dmem a.regs.dst.toNat (ceil8 total) = true ∧
      t.dtab = dtabOf cs ∧ t.regs.dtcnt = BitVec.ofNat 9 (codedBytes cs).length ∧
      t.regs.bitcnt.toNat = total ∧ t.regs.outcnt.toNat = ceil8 total ∧
      t.dmem = s.dmem.setBytes (payload a.regs.dst bs cs).2 := by
  have hpass := firstError_eq_none_of_errcode (resultOf_henc _) ht herr
  obtain ⟨-, hshort, hout, -⟩ := (firstError_hencAllChecks_eq_none_iff _).1 hpass
  obtain rfl := Host.Outcome.next.inj ((exec_checked_ok (resultOf_henc _) hpass).symm.trans ht)
  have hw := inBounds_no_wrap hsize hout
  have hceil := inBounds_length_le hsize hout
  refine ⟨hshort, hout, rfl, rfl, ?_, ?_, rfl⟩
  · refine (BitVec.toNat_ofNat _ _).trans (Nat.mod_eq_of_lt ?_)
    unfold ceil8 at hceil
    omega
  · refine (BitVec.toNat_ofNat _ _).trans ?_
    rw [hencEffects, payload_length hw]
    exact Nat.mod_eq_of_lt (by omega)

/-- Settles O28: the payload is a sequence of codes that the decoder can reach, and their entries hold the input's bytes. -/
theorem huffmanRoundTrip : Obligations.HuffmanRoundTrip := by
  intro s t u a b _ hsize ht herr hdtab hdtcnt hbitcnt hsrc hdmem hpayload hroom hdst hoverlap
  obtain ⟨hshort, hout, htdtab, htdtcnt, htbitcnt, htoutcnt, htdmem⟩ :=
    henc_succeeded hsize ht herr
  rw [htdtab] at hdtab
  rw [htdtcnt] at hdtcnt
  rw [htoutcnt] at hpayload hoverlap
  rw [htdmem] at hpayload
  rw [← hbitcnt] at htbitcnt
  rw [← hsrc, inBounds_congr hdmem.symm] at hout
  have hw := inBounds_no_wrap (hdmem ▸ hsize) hout
  have htable := decodeTable_of_henc hdtab hdtcnt
  have hcount : b.regs.dtcnt.toNat ≤ 256 := by
    rw [hdtcnt, toNat_dtcnt]
    exact occurring_length_le _
  have hes : ∀ e ∈ inputEntries (hencInput a), reachableEntry (decodeTable b) e := by
    rw [htable]
    exact List.forall_mem_map.2 fun x hx => reachable_dtabEntryOf hshort (toNat_mem_occurring hx)
  have hbits : payloadBits b = codeBits ((inputEntries (hencInput a)).map DtabEntry.asCode) := by
    rw [inputEntries_codes hshort]
    rw [← hsrc] at hpayload
    exact payloadBits_of_henc hw htbitcnt hpayload
  obtain ⟨v, hv, hdone, -, -, -, hbytes⟩ := hdecCompletes u (inputEntries (hencInput a))
    (htbitcnt ▸ hout) hdst hcount (htable ▸ tableUsable_dtabEntries hshort) (htbitcnt ▸ hoverlap)
    hes hbits (by rwa [inputEntries_length])
  refine ⟨v, hv, by rw [hdone], by rw [hdone]; simp [inputEntries_length], fun p hp => ?_⟩
  rw [← inputEntries_length a] at hp
  rw [hbytes p hp, inputEntries_value]

end Sys2Proof.Machine
end

section
/-! PROOFS. The commands of the bit buffer, BBRST, BBADD and BBFIN: their checks, and what each leaves (45_bitbuffer.md R240 to R245; 60_exceptions.md R262, R264). -/

namespace Sys2Proof.Machine

/-- Settles O33: BBRST has no check and no write. -/
theorem bbrstOpensStream : Obligations.BbrstOpensStream := exec_eq .bbrst

/-! ### Checks (R244, R245, R262) -/

/-- BBADD checks, then appends (R244). -/
theorem resultOf_bbadd (len : Nat) (a : Arch) :
    resultOf (.bbadd len) a = checked (bbaddChecks len a) fun _ =>
      { effects :=
        { writes := (a.regs.bb.append a.regs.arg0.toNat len).2
          bb := some (a.regs.bb.append a.regs.arg0.toNat len).1 } } := rfl

/-- BBFIN checks, then flushes (R245). -/
theorem resultOf_bbfin (a : Arch) :
    resultOf .bbfin a = checked (bbfinChecks a) fun _ =>
      { effects :=
        { writes := a.regs.bb.flush.2, bb := some a.regs.bb.flush.1
          bitcnt := some a.regs.bb.tot } } := rfl

/-- The first check of BBADD to fail, in the order of R244. -/
theorem firstError_bbaddChecks (len : Nat) (a : Arch) :
    firstError (bbaddChecks len a) =
      if 32 < len then some (.illegalCmd, 0)
      else if a.regs.bb.isOpen = false then some (.precondition, 4)
      else if inBounds a.dmem a.regs.bb.ptr.toNat ((a.regs.bb.fill.toNat + len) / 8) = false then
        some (.bounds, 2)
      else none := by
  simp only [bbaddChecks, checkSpan, firstError, decide_eq_true_eq, Bool.not_eq_true']
  rfl

/-- The first check of BBFIN to fail, in the order of R245: without a partial byte there is no byte to check. -/
theorem firstError_bbfinChecks (a : Arch) :
    firstError (bbfinChecks a) =
      if a.regs.bb.isOpen = false then some (.precondition, 4)
      else if a.regs.bb.fill ≠ 0 ∧ inBounds a.dmem a.regs.bb.ptr.toNat 1 = false then
        some (.bounds, 2)
      else none := by
  simp only [bbfinChecks, checkSpan, firstError, Bool.not_eq_true']
  by_cases h : a.regs.bb.fill = 0
  · simp only [h, if_true, ne_eq, not_true, false_and]
    rfl
  · simp only [h, if_false, ne_eq, not_false_eq_true, true_and]

/-- How a command ends whose checks raise `error`, or none (R115, R264). -/
def State.EndsBy (s : State) (i : Instr) : Option (ErrCode × Nat) → Prop
  | some (c, info) => exec i s = .next (s.failedWith c info)
  | none => ∃ t, exec i s = .next t ∧ t.regs.errcode = 0

/-- A command that reports no error of its own ends by its first failing check. -/
theorem exec_checked_endsBy {i : Instr} {s : State} {cs : List Check} {e : Effects}
    (hi : resultOf i s.operands = checked cs fun _ => { effects := e }) :
    s.EndsBy i (firstError cs) := by
  cases h : firstError cs with
  | some error => exact exec_checked_failed hi h
  | none => exact ⟨_, exec_checked_ok hi h, rfl⟩

/-- Settles O36: the first failing check is the first condition of the chain that holds. -/
theorem bitBufferErrors : Obligations.BitBufferErrors := by
  intro s len a b
  have hadd := exec_checked_endsBy (resultOf_bbadd len a)
  have hfin := exec_checked_endsBy (resultOf_bbfin a)
  rw [firstError_bbaddChecks] at hadd
  rw [firstError_bbfinChecks] at hfin
  constructor
  · split_ifs at hadd ⊢ <;> exact hadd
  · split_ifs at hfin ⊢ <;> exact hfin

/-! ### BBFIN (R242, R245) -/

/-- BBFIN with every check passed (R245). -/
theorem exec_bbfin_ok {s : State} (hopen : s.operands.regs.bb.isOpen = true)
    (hroom : s.operands.regs.bb.fill ≠ 0 →
      inBounds s.operands.dmem s.operands.regs.bb.ptr.toNat 1 = true) :
    exec .bbfin s = .next (s.complete
      { effects :=
        { writes := s.operands.regs.bb.flush.2, bb := some s.operands.regs.bb.flush.1
          bitcnt := some s.operands.regs.bb.tot } }) := by
  refine exec_checked_ok (resultOf_bbfin _) ?_
  rw [firstError_bbfinChecks, if_neg (by simp [hopen]), if_neg]
  rintro ⟨hne, hout⟩
  simp [hroom hne] at hout

/-- What a flush leaves, whether there is a partial byte or none (R242). -/
theorem BitBuf.flush_fst (b : BitBuf) : b.flush.1 =
    ⟨b.ptr + BitVec.ofNat 32 (if b.fill = 0 then 0 else 1), if b.fill = 0 then b.acc else 0, 0,
      false, b.tot⟩ := by
  unfold flush
  split_ifs with h
  · simp [h]
  · rfl

theorem BitBuf.flush_snd_length (b : BitBuf) :
    b.flush.2.length = if b.fill = 0 then 0 else 1 := by
  unfold flush
  split_ifs <;> rfl

/-- Settles O35: the flush writes the partial byte where there is one, and nothing otherwise. -/
theorem bbfinFlushes : Obligations.BbfinFlushes := by
  intro s a b n hopen hroom
  have hexec := exec_bbfin_ok hopen fun hne => by rwa [show n = 1 from if_neg hne] at hroom
  refine ⟨_, hexec, ?_, s.dmem.sameOutside_setBytes fun c hc => inSpans_single.2 ?_, fun hne => ?_⟩
  · simp only [State.complete, completeStatus, Effects.applyRegs, Effects.outcnt,
      Option.getD_some, Option.getD_none, BitBuf.flush_fst, BitBuf.flush_snd_length]
    rfl
  · obtain ⟨hne, hptr⟩ : b.fill.toNat ≠ 0 ∧ c.1 = b.ptr.toNat := BitBuf.flush_mem hc
    have hn : n = 1 := if_neg fun h0 => hne (congrArg BitVec.toNat h0)
    omega
  · have hwrites : b.flush.2 = [(b.ptr.toNat, b.acc)] := by rw [BitBuf.flush, if_neg hne]
    rw [State.complete_dmem, hwrites]
    exact Dmem.byte_setByte_same _ _ _

end Sys2Proof.Machine
end

section
/-! PROOFS. BBADD: the pending bits and the appended ones are the bits of one number, cut into the completed bytes and a rest (45_bitbuffer.md R241, R244). -/

namespace Sys2Proof.Machine

/-! ### Bytes of a number that is written bit by bit -/

theorem getD_patternBits (v n i : Nat) :
    (patternBits v n).getD i false = (decide (i < n) && v.testBit (n - 1 - i)) := by
  by_cases h : i < n
  · rw [List.getD_eq_getElem _ _ (by rwa [patternBits_length])]
    simp [patternBits, h]
  · rw [List.getD_eq_default _ _ (by rw [patternBits_length]; omega), decide_eq_false h,
      Bool.false_and]

/-- A byte is the number that its bits are those of, most significant first. -/
theorem byte_eq_ofNat {x : Byte} {y : Nat} (h : ∀ j < 8, x.getLsbD (7 - j) = y.testBit (7 - j)) :
    x = BitVec.ofNat 8 y := by
  refine BitVec.eq_of_getLsbD_eq fun i hi => ?_
  rw [BitVec.getLsbD_ofNat, decide_eq_true hi, Bool.true_and]
  simpa [show 7 - (7 - i) = i by omega] using h (7 - i) (by omega)

section
variable {x : Byte} {v n k : Nat}
  (h : ∀ j < 8, x.getLsbD (7 - j) = (patternBits v n).getD (8 * k + j) false)
include h

/-- Eight bits of a number are the number shortened to them. -/
theorem byte_of_patternBits (hk : k < n / 8) :
    x = BitVec.ofNat 8 (v / 2 ^ (n - 8 * (k + 1))) := by
  refine byte_eq_ofNat fun j hj => ?_
  rw [h j hj, getD_patternBits, decide_eq_true (by omega), Bool.true_and, Nat.testBit_div_two_pow]
  congr 1
  omega

/-- The last bits of a number, fewer than eight, with 0 bits below them. -/
theorem byte_of_patternBits_rest (hk : k = n / 8) :
    x = BitVec.ofNat 8 (v % 2 ^ (n % 8) * 2 ^ (8 - n % 8)) := by
  refine byte_eq_ofNat fun j hj => ?_
  rw [h j hj, getD_patternBits, Nat.testBit_mul_two_pow, Nat.testBit_mod_two_pow]
  by_cases hj' : j < n % 8
  · have hplace : 7 - j - (8 - n % 8) = n - 1 - (8 * k + j) := by omega
    have hrest : n - 1 - (8 * k + j) < n % 8 := by omega
    rw [hplace, decide_eq_true hrest, decide_eq_true (by omega), decide_eq_true (by omega),
      Bool.true_and, Bool.true_and]
  · rw [decide_eq_false (by omega), decide_eq_false (by omega), Bool.false_and, Bool.false_and]

end

/-- Bits of a pattern above its length do not matter (R241). -/
theorem patternBits_mod {m len : Nat} (pat : Nat) (h : len ≤ m) :
    patternBits (pat % 2 ^ m) len = patternBits pat len := by
  refine List.map_congr_left fun t ht => ?_
  have := List.mem_range.1 ht
  rw [Nat.testBit_mod_two_pow, decide_eq_true (by omega), Bool.true_and]

theorem bitsValue_patternBits_mod (pat len : Nat) :
    bitsValue (patternBits pat len) = pat % 2 ^ len := by
  rw [← patternBits_mod pat le_rfl, bitsValue_patternBits (Nat.mod_lt _ (Nat.two_pow_pos len))]

/-- The bits of two patterns one behind the other are those of one number. -/
theorem patternBits_append {v m : Nat} (h : v < 2 ^ m) (w n : Nat) :
    patternBits v m ++ patternBits w n = patternBits (v * 2 ^ n + w % 2 ^ n) (m + n) := by
  have hbits := patternBits_bitsValue (patternBits v m ++ patternBits w n)
  rw [bitsValue_append, bitsValue_patternBits h, bitsValue_patternBits_mod, List.length_append,
    patternBits_length, patternBits_length] at hbits
  exact hbits.symm

/-! ### Appending to a buffer (R241) -/

/-- The pending bits as a number (R38). -/
def BitBuf.pendingValue (b : BitBuf) : Nat := b.acc.toNat / 2 ^ (8 - b.fill.toNat)

theorem BitBuf.pendingValue_lt (b : BitBuf) : b.pendingValue < 2 ^ b.fill.toNat := by
  have hfill := b.fill.isLt
  refine Nat.div_lt_of_lt_mul ?_
  rw [← pow_add, Nat.sub_add_cancel (by omega)]
  exact b.acc.isLt

/-- A clean buffer holds its pending bits, as a stream opened at BBPTR (R38). -/
theorem BitBuf.holds_of_clean {b : BitBuf} (h : b.clean) (m : Dmem) :
    b.Holds m b.ptr (patternBits b.pendingValue b.fill.toNat) := by
  have hfill : b.fill.toNat < 8 := b.fill.isLt
  have hdiv : b.fill.toNat / 8 = 0 := Nat.div_eq_of_lt hfill
  refine ⟨?_, ?_, ?_, fun j hj => ?_⟩ <;> simp only [patternBits_length, hdiv]
  · simp
  · omega
  · simp
  · rw [Nat.mul_zero, Nat.zero_add, getD_patternBits, pendingValue, Nat.testBit_div_two_pow,
      ← BitVec.testBit_toNat]
    by_cases hpending : j < b.fill.toNat
    · rw [decide_eq_true hpending, Bool.true_and]
      congr 1
      omega
    · have hlow := Nat.testBit_mod_two_pow b.acc.toNat (8 - b.fill.toNat) (7 - j)
      rw [h, decide_eq_true (by omega), Bool.true_and, Nat.zero_testBit] at hlow
      rw [decide_eq_false hpending, Bool.false_and, hlow]

/-- BBAppend: the bits of the pattern follow those held (R241); BBTOT moves apart. -/
theorem BitBuf.Holds.append {b : BitBuf} {m : Dmem} {dst : Word} {bits : List Bool}
    (h : b.Holds m dst bits) (pat len : Nat) (hw : dst.toNat + (bits.length + len) / 8 ≤ 2 ^ 32) :
    (b.append pat len).1.Holds (m.setBytes (b.append pat len).2) dst
      (bits ++ patternBits pat len) := by
  obtain ⟨hptr, hfill, hwritten, hpending⟩ :=
    h.appendBits (patternBits pat len) (by rwa [patternBits_length])
  exact ⟨hptr, hfill, hwritten, hpending⟩

theorem BitBuf.appendBit_isOpen (b : BitBuf) (x : Bool) : (b.appendBit x).1.isOpen = b.isOpen := by
  unfold appendBit
  split_ifs <;> rfl

theorem BitBuf.appendBits_isOpen (b : BitBuf) (xs : List Bool) :
    (b.appendBits xs).1.isOpen = b.isOpen := by
  induction xs generalizing b with
  | nil => rfl
  | cons x xs ih => exact (ih _).trans (b.appendBit_isOpen x)

theorem BitBuf.append_isOpen (b : BitBuf) (pat len : Nat) :
    (b.append pat len).1.isOpen = b.isOpen := b.appendBits_isOpen _

theorem BitBuf.append_length (b : BitBuf) (pat len : Nat) :
    (b.append pat len).2.length = (b.fill.toNat + len) / 8 := by
  simpa using congrArg List.length (b.append_advanced pat len).addresses

/-- BBAppend on a clean buffer: the pending bits and the appended ones are those of one number `v`, whose completed bytes go to DMEM and whose rest stays in ACC (R241). -/
theorem BitBuf.append_of_clean {b : BitBuf} (hclean : b.clean) (m : Dmem) {pat len n v : Nat}
    (hn : n = b.fill.toNat + len) (hv : v = b.pendingValue * 2 ^ len + pat % 2 ^ len)
    (hw : b.ptr.toNat + n / 8 ≤ 2 ^ 32) :
    (b.append pat len).1 = ⟨b.ptr + BitVec.ofNat 32 (n / 8),
        BitVec.ofNat 8 (v % 2 ^ (n % 8) * 2 ^ (8 - n % 8)), BitVec.ofNat 3 (n % 8), b.isOpen,
        b.tot + BitVec.ofNat 64 len⟩ ∧
      ∀ k < n / 8, (m.setBytes (b.append pat len).2).byte (b.ptr.toNat + k) =
        BitVec.ofNat 8 (v / 2 ^ (n - 8 * (k + 1))) := by
  have hholds := (holds_of_clean hclean m).append pat len (by rwa [patternBits_length, ← hn])
  rw [patternBits_append b.pendingValue_lt, ← hn, ← hv] at hholds
  obtain ⟨hptr, hfill, hwritten, hpending⟩ := hholds
  rw [patternBits_length] at hptr hfill hwritten hpending
  refine ⟨(BitBuf.mk.injEq ..).mpr ⟨hptr, byte_of_patternBits_rest hpending rfl, ?_,
    b.append_isOpen pat len, b.append_tot pat len⟩, fun k hk => ?_⟩
  · exact BitVec.eq_of_toNat_eq (hfill.trans (by rw [BitVec.toNat_ofNat]; omega))
  · refine byte_of_patternBits (fun j hj => ?_) hk
    rw [← hwritten (8 * k + j) (by omega), streamBit]
    congr 3 <;> omega

/-! ### BBADD (R244) -/

/-- BBADD with every check passed (R244). -/
theorem exec_bbadd_ok {s : State} {len : Nat} (hlen : len ≤ 32)
    (hopen : s.operands.regs.bb.isOpen = true)
    (hroom : inBounds s.operands.dmem s.operands.regs.bb.ptr.toNat
      ((s.operands.regs.bb.fill.toNat + len) / 8) = true) :
    exec (.bbadd len) s = .next (s.complete
      { effects :=
        { writes := (s.operands.regs.bb.append s.operands.regs.arg0.toNat len).2
          bb := some (s.operands.regs.bb.append s.operands.regs.arg0.toNat len).1 } }) := by
  refine exec_checked_ok (resultOf_bbadd len _) ?_
  rw [firstError_bbaddChecks, if_neg hlen.not_gt, if_neg (by simp [hopen]),
    if_neg (by simp [hroom])]

/-- Settles O34: the appended bits follow the pending ones, and BBADD stores in its span alone. -/
theorem bbaddAppends : Obligations.BbaddAppends := by
  intro s len a b n v hsize hclean hlen hopen hroom
  have hexec := exec_bbadd_ok hlen hopen hroom
  obtain ⟨hbuf, hbytes⟩ := BitBuf.append_of_clean hclean s.dmem (n := n) (v := v) rfl rfl
    (inBounds_no_wrap hsize hroom)
  refine ⟨_, hexec, ?_, commandsStoreOnlyInTheirSpans _ s _ hsize hexec, hbytes⟩
  rw [hopen] at hbuf
  simp only [State.complete, completeStatus, Effects.applyRegs, Effects.outcnt,
    Option.getD_some, Option.getD_none, BitBuf.append_length]
  rw [hbuf]

end Sys2Proof.Machine
end

section
/-! PROOFS. The host's loop over the bit buffer: BBRST, BBADD of each code and BBFIN leave the codes' bits (45_bitbuffer.md R246). -/

namespace Sys2Proof.Machine

/-- With nothing in flight, the stream opened at `dst` is open and holds `bits`, all of them counted (R241). -/
structure State.Building (s : State) (dst : Word) (bits : List Bool) : Prop where
  idle : s.inFlight = none
  size : Config.legalSize s.dmem.size
  isOpen : s.regs.bb.isOpen = true
  tot : s.regs.bb.tot = BitVec.ofNat 64 bits.length
  holds : s.regs.bb.Holds s.dmem dst bits

/-- BBRST opens an empty stream at DST (R243). -/
theorem bbrst_building {s : State} (hidle : s.inFlight = none)
    (hsize : Config.legalSize s.dmem.size) :
    ∃ t, exec .bbrst s = .next t ∧ t.Building s.regs.dst [] ∧ t.dmem = s.dmem := by
  have hexec := bbrstOpensStream s
  rw [State.operands_none s hidle] at hexec
  exact ⟨_, hexec, ⟨rfl, hsize, rfl, rfl, BitBuf.holds_openAt s.dmem s.regs.dst⟩, rfl⟩

section
variable {s : State} {dst : Word} {bits : List Bool} (h : s.Building dst bits)
include h

/-- Writing ARG0 leaves the stream alone. -/
theorem State.Building.setArg0 (v : Word) :
    State.Building { s with regs := { s.regs with arg0 := v } } dst bits :=
  ⟨h.idle, h.size, h.isOpen, h.tot, h.holds⟩

/-- BBADD appends the pattern in ARG0 where there is room for the bytes that it completes (R244). -/
theorem State.Building.bbadd {len : Nat} (hlen : len ≤ 32)
    (hroom : dst.toNat + (bits.length + len) / 8 ≤ s.dmem.size) :
    ∃ t, exec (.bbadd len) s = .next t ∧ t.regs.errcode = 0 ∧ t.dmem.size = s.dmem.size ∧
      t.Building dst (bits ++ patternBits s.regs.arg0.toNat len) := by
  obtain ⟨hidle, hsize, hopen, htot, hholds⟩ := h
  have ⟨_, _, hmax⟩ := hsize
  have hfill := hholds.fill
  have hptr := hholds.ptr_toNat (by omega)
  have hexec := exec_bbadd_ok (s := s) hlen
  rw [State.operands_none s hidle] at hexec
  have hspan : inBounds s.dmem s.regs.bb.ptr.toNat ((s.regs.bb.fill.toNat + len) / 8) = true := by
    rw [inBounds_iff]
    omega
  refine ⟨_, hexec hopen hspan, rfl, Dmem.setBytes_size _ _, rfl, ?_, ?_, ?_, ?_⟩
  · rwa [State.complete_dmem, Dmem.setBytes_size]
  · exact (BitBuf.append_isOpen _ _ _).trans hopen
  · rw [List.length_append, patternBits_length, BitVec.ofNat_add, ← htot]
    rfl
  · exact hholds.append _ len (by omega)

/-- BBADD of each code in turn (R246). -/
theorem State.Building.appendRun {cs : List Code} (hlen : ∀ c ∈ cs, c.len ≤ 32)
    (hroom : dst.toNat + (bits.length + codesLength cs) / 8 ≤ s.dmem.size) :
    ∃ t, appendRun s cs = some t ∧ t.dmem.size = s.dmem.size ∧
      t.Building dst (bits ++ codeBits cs) := by
  induction cs generalizing s bits with
  | nil => exact ⟨s, rfl, rfl, by simpa [codeBits] using h⟩
  | cons c cs ih =>
    obtain ⟨hc, hcs⟩ := List.forall_mem_cons.1 hlen
    rw [codesLength_cons] at hroom
    obtain ⟨t, hexec, hok, hsize, hbuild⟩ := (h.setArg0 (BitVec.ofNat 32 c.pat)).bbadd hc
      (by dsimp only; omega)
    rw [BitVec.toNat_ofNat, patternBits_mod c.pat hc] at hbuild
    obtain ⟨u, hrun, hsize', hbuild'⟩ := ih hbuild hcs (by
      rw [List.length_append, patternBits_length, hsize]
      dsimp only
      omega)
    rw [List.append_assoc] at hbuild'
    refine ⟨u, ?_, hsize'.trans hsize, hbuild'⟩
    simp only [Machine.appendRun, hexec, hok, if_true, hrun]

/-- BBFIN leaves the bits padded with 0, and their number in BITCNT (R245). -/
theorem State.Building.bbfin (hroom : dst.toNat + ceil8 bits.length ≤ s.dmem.size) :
    ∃ t, exec .bbfin s = .next t ∧ t.regs.errcode = 0 ∧
      t.regs.bitcnt = BitVec.ofNat 64 bits.length ∧
      ∀ k < 8 * ceil8 bits.length, streamBit t.dmem dst.toNat k = bits.getD k false := by
  obtain ⟨hidle, hsize, hopen, htot, hholds⟩ := h
  have ⟨_, _, hmax⟩ := hsize
  have hexec := exec_bbfin_ok (s := s)
  rw [State.operands_none s hidle] at hexec
  have hpartial : s.regs.bb.fill ≠ 0 → inBounds s.dmem s.regs.bb.ptr.toNat 1 = true := fun hne => by
    have hfill := hholds.fill
    have hpos : s.regs.bb.fill.toNat ≠ 0 := fun h0 => hne (BitVec.eq_of_toNat_eq h0)
    unfold ceil8 at hroom
    rw [inBounds_iff, hholds.ptr_toNat (by omega)]
    omega
  exact ⟨_, hexec hopen hpartial, rfl, htot, hholds.streamBit_flush (by omega)⟩

end

/-- Settles O37: BBRST opens an empty stream, each BBADD keeps that it holds the bits so far, and BBFIN pads them. -/
theorem bitBufferBuildsTheStream : Obligations.BitBufferBuildsTheStream := by
  intro s cs d hidle hsize hlen hroom
  have hbits : (codeBits cs).length = codesLength cs := codeBits_length cs
  obtain ⟨s₁, hrst, hopen, hdmem⟩ := bbrst_building hidle hsize
  obtain ⟨s₂, hrun, hsize₂, hbuilt⟩ := hopen.appendRun hlen (by
    unfold ceil8 at hroom
    rw [hdmem, List.length_nil]
    omega)
  rw [List.nil_append] at hbuilt
  rw [← hdmem, ← hsize₂, ← hbits] at hroom
  obtain ⟨t, hfin, hok, hbitcnt, hstream⟩ := hbuilt.bbfin hroom
  rw [hbits] at hbitcnt hstream
  refine ⟨s₁, s₂, t, hrst, hrun, hfin, hok, hbitcnt, hbits, fun k hk => ?_, fun k hk hk' => ?_⟩
  · exact hstream k (by unfold ceil8; omega)
  · rw [hstream k hk', List.getD_eq_default _ _ (hbits.trans_le hk)]

end Sys2Proof.Machine
end

section
/-! PROOFS. Which errors leave more behind than STATUS, ERRINFO and OUTCNT: those that HDEC meets while it decodes, and no others (40_command_model.md R115; 44_huffman.md R219; 60_exceptions.md R264). -/

namespace Sys2Proof.Machine

/-- Every command but HDEC makes all its checks first and has no error after them (R115, R264). -/
theorem resultOf_eq_checked {i : Instr} (hi : i ≠ .hdec) (a : Arch) :
    ∃ cs e, resultOf i a = checked cs fun _ => { effects := e } := by
  cases i with
  | nop => exact ⟨[], {}, rfl⟩
  | csc fmt => exact ⟨_, _, resultOf_csc fmt a⟩
  | fdct sep => exact ⟨_, _, resultOf_fdct sep a⟩
  | idct sep => exact ⟨_, _, resultOf_idct sep a⟩
  | qzz => exact ⟨_, _, resultOf_qzz a⟩
  | dqzz => exact ⟨_, _, resultOf_dqzz a⟩
  | henc => exact ⟨_, _, resultOf_henc a⟩
  | hdec => exact absurd rfl hi
  | bbrst => exact ⟨[], _, rfl⟩
  | bbadd len => exact ⟨_, _, resultOf_bbadd len a⟩
  | bbfin => exact ⟨_, _, resultOf_bbfin a⟩

/-- An error of a command that ends by its checks leaves exactly `failedWith`. -/
theorem State.EndsBy.failedWith_of_errcode {i : Instr} {s t : State}
    {error : Option (ErrCode × Nat)} (h : s.EndsBy i error) (ht : exec i s = .next t)
    (hne : t.regs.errcode ≠ 0) : ∃ c info, t = s.failedWith c info := by
  cases error with
  | some e => exact ⟨e.1, e.2, Host.Outcome.next.inj (ht.symm.trans h)⟩
  | none =>
    obtain ⟨u, hu, hok⟩ := h
    obtain rfl := Host.Outcome.next.inj (ht.symm.trans hu)
    exact absurd hok hne

/-- The decoder stops at bits that match no code or at a byte too many, and at nothing else (R219). -/
theorem decodeBits_error {t : List DtabEntry} {M cap : Nat} {bits : List Bool}
    {i pat len n : Nat} {e : ErrCode × Nat} (h : (decodeBits t M cap bits i pat len n).2 = some e) :
    e.1 = .decodeMismatch ∨ e = (.bounds, 4) := by
  induction bits generalizing i pat len n with
  | nil =>
    obtain ⟨-, hmismatch⟩ := Option.ite_none_right_eq_some.1 h
    obtain rfl := Option.some.inj hmismatch
    exact .inl rfl
  | cons x xs ih =>
    cases hp : probe t (2 * pat + x.toNat) (len + 1) with
    | some v =>
      by_cases hn : n = cap
      · subst hn
        rw [decodeBits_full hp] at h
        exact .inr (Option.some.inj h).symm
      · rw [decodeBits_hit hp hn] at h
        exact ih h
    | none =>
      by_cases hM : M < len + 1
      · rw [decodeBits_overlong hp hM] at h
        obtain rfl := Option.some.inj h
        exact .inl rfl
      · rw [decodeBits_miss hp (Nat.not_lt.1 hM)] at h
        exact ih h

/-- HDEC's errors are those of its checks, which leave `failedWith`, and the decoder's two (R219, R264). -/
theorem exec_hdec_error {s t : State} (ht : exec .hdec s = .next t) (hne : t.regs.errcode ≠ 0) :
    (t.regs.errcode = 0x03 ∨ (t.regs.errcode = 0x05 ∧ t.regs.errinfo = 4)) ∨
      ∃ c info, t = s.failedWith c info := by
  cases hchecks : firstError (hdecChecks s.operands) with
  | some e =>
    have hfail := exec_checked_failed (resultOf_hdec _) hchecks
    exact .inr ⟨e.1, e.2, Host.Outcome.next.inj (ht.symm.trans hfail)⟩
  | none =>
    rw [exec_checked_ok (resultOf_hdec _) hchecks] at ht
    obtain rfl := Host.Outcome.next.inj ht
    rw [State.complete_regs] at hne ⊢
    cases hdecode : (hdecDecode s.operands).2 with
    | none =>
      rw [hdecode] at hne
      exact absurd rfl hne
    | some e =>
      obtain ⟨c, info⟩ := e
      obtain rfl | ⟨rfl, rfl⟩ := decodeBits_error hdecode
      · exact .inl (.inl rfl)
      · exact .inl (.inr ⟨rfl, rfl⟩)

/-- Settles O41: HDEC apart, an error is that of a check, and a failing check ends the command with `failedWith`. -/
theorem errorsWriteNothing : Obligations.ErrorsWriteNothing := by
  intro i s t ht hne
  by_cases hi : i = .hdec
  · subst hi
    exact (exec_hdec_error ht hne).imp_left fun hdecoder => ⟨rfl, hdecoder⟩
  · obtain ⟨cs, e, hresult⟩ := resultOf_eq_checked hi s.operands
    exact .inr ((exec_checked_endsBy hresult).failedWith_of_errcode ht hne)

end Sys2Proof.Machine
end

section
/-! PROOFS. The two resets: what a soft reset and a power-on reset leave, and what an abandoned command leaves of DMEM (10_state.md R23, R26; 70_reset_and_hazards.md R291 to R293). -/

namespace Sys2Proof.Machine

/-! ### The reset state (R291) -/

/-- A table filled with one value holds it at each of its 256 indices. -/
theorem entryAt_replicate {α : Type} (x d : α) {i : Nat} (hi : i < 256) :
    entryAt (Vector.replicate 256 x) i d = x := by
  rw [entryAt, Vector.toArray_replicate, Array.toList_replicate, List.getD_replicate _ hi]

/-- The reset column of R23: CFG.BLKN is 8, ID and VERSION are constants, all else is 0. -/
theorem regRead_reset (r : RegName) :
    regRead Regs.reset r =
      if r = .id then 0x4A504331 else if r = .version then 1 else if r = .cfg then 8 else 0 := by
  cases r <;> rfl

/-- Settles O54: register by register, entry by entry, and by the platform's turn. -/
theorem powerOnResetState : Obligations.PowerOnResetState := by
  refine ⟨regRead_reset, fun i hi => ?_, fun i hi => ?_, rfl, rfl, rfl, fun s rest hturns => ?_⟩
  · exact entryAt_replicate _ _ hi
  · exact entryAt_replicate _ _ hi
  · exact step_turn s .powerOn rest hturns

/-- Settles O59: the reset state is what a reset leaves with its DMEM, which is canonical and of a legal size. -/
theorem resetMeetsTheInvariant : Obligations.ResetMeetsTheInvariant := by
  have hsize : Config.legalSize State.reset.dmem.size :=
    (by decide : Config.legalSize Config.dmemBytesDefault)
  exact resetTo_inv State.reset State.reset_dmem_wf hsize

/-! ### Soft reset (R292, R293) -/

/-- SRST reads 0 whatever the registers hold (R26). -/
theorem ctrlWord_srst (r : Regs) : (ctrlWord r).getLsbD 1 = false := by
  rw [ctrlWord, BitVec.getLsbD_append]
  rfl

/-- A write to CTRL with SRST set is a soft reset, at any time (R292). -/
theorem hostWrite_srst {v : Word} (s : State) (h : v.getLsbD 1 = true) :
    hostWrite 0x008 32 v s = .next s.softReset :=
  (hostWrite_register .ctrl v s).trans (congrArg _ (if_pos h))

/-- The DMEM of an abandoned command: a draw at each address that it would have written (R293). -/
theorem State.abandon_dmem_some {s : State} {f : InFlight} (hf : s.inFlight = some f) :
    s.abandon.dmem = s.dmem.setBytes
      ((execWord f.cmdword f.pre).effects.writes.map fun c =>
        (c.1, Config.abortByte s.aborts c.1)) := by
  simp [State.abandon, hf]

/-- Abandoning a command keeps every byte that it would not have written (R293). -/
theorem State.byte_abandon_other {s : State} {f : InFlight} (hf : s.inFlight = some f) {x : Nat}
    (hx : ∀ c ∈ (execWord f.cmdword f.pre).effects.writes, c.1 ≠ x) :
    s.abandon.dmem.byte x = s.dmem.byte x := by
  rw [State.abandon_dmem_some hf]
  exact s.dmem.byte_setBytes_other _ x (List.forall_mem_map.2 hx)

/-- Abandoning a command changes neither DMEM_BYTES nor the power-on draws. -/
theorem State.abandon_dmem_frame (s : State) :
    s.abandon.dmem.size = s.dmem.size ∧ s.abandon.dmem.powerOns = s.dmem.powerOns := by
  cases hf : s.inFlight with
  | none => rw [State.abandon_none s hf]; exact ⟨rfl, rfl⟩
  | some f =>
    rw [State.abandon_dmem_some hf]
    exact ⟨Dmem.setBytes_size _ _, Dmem.setBytes_powerOns _ _⟩

/-- Settles O53: the write is a soft reset, and its DMEM is that of the command abandoned. -/
theorem softResetRestoresEverythingButDmem : Obligations.SoftResetRestoresEverythingButDmem := by
  intro s v hv
  obtain ⟨hsize, hdraws⟩ := s.abandon_dmem_frame
  refine ⟨s.softReset, hostWrite_srst s hv, rfl, rfl, rfl, rfl, rfl, ctrlWord_srst _, hsize,
    hdraws, fun hidle => ?_, fun f hf x hx => ?_⟩
  · exact congrArg (·.dmem) (State.abandon_none s hidle)
  · exact State.byte_abandon_other hf hx

/-- BBFIN of one pending bit, in flight: its completion would store one byte, at 0 (R245). -/
def bbfinInFlight : State :=
  State.launch (encode .bbfin) (s :=
    { State.reset with regs := { Regs.reset with bb := ⟨0, 0x80, 1, true, 1⟩ } })

theorem bbfinInFlight_writes :
    (execWord (encode .bbfin) bbfinInFlight.toArch).effects.writes = [(0, 0x80)] := rfl

/-- A soft reset of a command that does write keeps the byte beside the one it would store (R293). -/
theorem softReset_bbfinInFlight_byte_one :
    bbfinInFlight.softReset.dmem.byte 1 = bbfinInFlight.dmem.byte 1 := by
  refine State.byte_abandon_other rfl fun c hc => ?_
  obtain rfl := List.mem_singleton.1 (bbfinInFlight_writes ▸ hc)
  exact Nat.zero_ne_one

end Sys2Proof.Machine
end
